-- ==== Sys2Proof/Word.lean ====
section
/-! DEFINITION. The data formats of the block (spec/30_encoding.md R90): values of the number system, sample
elements, classifier results, melody steps, note rows, phase and select words, environment entries, events. -/

namespace Sys2Proof

/-- A phase code, format PH (R90, R97). -/
abbrev PhaseWord := BitVec 4

/-- A Sampler select word `{tick, last}`, format TSEL (R98): bit 1 is `tick`, bit 0 is `last`. -/
abbrev TselWord := BitVec 2

/-- A value of the number system NUM (spec/00_scope.md R8). The normative number system is the exact reals; a value is
written as the exact expression that denotes it, so that states stay plain data (log 2). What it denotes is
`Value.val`. -/
inductive Value where
  /-- an exact rational number -/
  | rat (q : Rat)
  /-- `cos(2π·r)`, `r` in turns -/
  | cosT (r : Rat)
  /-- a real parameter of the configuration that no other form writes, known by its number only (log 17) -/
  | param (k : Nat)
  | plus (a b : Value)
  | minus (a b : Value)
  | times (a b : Value)
  | root (a : Value)
deriving DecidableEq, Repr, Inhabited

/-- The value zero: what both components of every bank element hold after reset (R22, R47). -/
def Value.zero : Value := .rat 0

/-- One sample element, format SMP (R92). -/
structure Smp where
  re : Value
  im : Value
deriving DecidableEq, Repr, Inhabited

/-- The element `(0, 0)` (R22, R47). -/
def Smp.zero : Smp := ⟨.zero, .zero⟩

/-- A classifier result `{nomatch, sym}`, format CLS (R93). -/
structure Cls where
  noMatch : Bool
  sym : Nat
deriving DecidableEq, Repr, Inhabited

/-- A melody step `{rest, sym}`, format MST (R94). -/
structure MelodyStep where
  rest : Bool
  sym : Nat
deriving DecidableEq, Repr, Inhabited

/-- A NoteRange row `{sym, fmin, fmax}`, format NRG (R95). -/
structure NoteRow where
  sym : Nat
  fmin : Nat
  fmax : Nat
deriving DecidableEq, Repr, Inhabited

/-- What the environment presents at the input ports during one step (spec/60_exceptions.md R255): reset asserted, a
tick to be served, the reading at `adc_raw`, the count at `now_ms`. -/
structure EnvInput where
  rst : Bool
  tick : Bool
  raw : Nat
  now : Nat
deriving DecidableEq, Repr, Inhabited

/-- An output event (spec/00_scope.md R13). -/
inductive Event where
  /-- drive unit `unit` was sent command `v` -/
  | cmdWrite (unit : Fin 2) (v : Nat)
  /-- the side output of one detection pass toward the excluded renderer and logger -/
  | diag (spectrum : List Value) (peakMag : Value) (peakBin domFreqNum : Nat)
deriving DecidableEq, Repr, Inhabited

end Sys2Proof
end

