-- ==== Sys2Proof/Config.lean ====
section
/-! DEFINITION. The configuration record CFG (spec/00_scope.md R5, R6) and the free values of the model. -/

namespace Sys2Proof

/-- The parameter NUM (R6, R8): the exact reals, which are normative, or some finite format, named by a number, of
which nothing is known but that each result depends on the operands alone (log 4). -/
inductive NumSys where
  | exact
  | finite (id : Nat)
deriving DecidableEq, Repr, Inhabited

/-- CFG: the implementation parameters of R6. `K` and `L` are the lengths of `noteTable` and `melody`, `LOGN` is
derived from `n`. -/
structure Config where
  n : Nat
  fs : Nat
  adcW : Nat
  adcMax : Nat
  calScale : Value
  calOffset : Value
  num : NumSys
  hamming : List Value
  noteTable : List NoteRow
  melody : List MelodyStep
  stepDuration : Nat
  speedFwd0 : Nat
  speedFwd1 : Nat
  speedNeutral : Nat
  symW : Nat
  freqW : Nat
  timeW : Nat
  cmdW : Nat
  fsW : Nat
deriving DecidableEq, Repr, Inhabited

/-- `LOGN = log2 N` (R6). -/
def Config.logn (c : Config) : Nat := c.n.log2

/-- `K`, the number of NoteRange rows (R6). -/
def Config.k (c : Config) : Nat := c.noteTable.length

/-- `L`, the melody length (R6). -/
def Config.l (c : Config) : Nat := c.melody.length

/-- `SPEED_FWD[u]` (R6). -/
def Config.speedFwd (c : Config) (u : Fin 2) : Nat := if u = 0 then c.speedFwd0 else c.speedFwd1

/-- Free value: what the environment presents at the ports of a step that has no entry left in `State.inputs`
(spec/93_implementation_defined.md U12, U13; log 5). -/
opaque Config.freeInput : Nat → EnvInput

/-- Free values: the functions of the finite number system with the given name (R8, log 4). -/
opaque Config.finOfNat : Nat → Nat → Value
/-- See `Config.finOfNat`. -/
opaque Config.finAdd : Nat → Value → Value → Value
/-- See `Config.finOfNat`. -/
opaque Config.finSub : Nat → Value → Value → Value
/-- See `Config.finOfNat`. -/
opaque Config.finMul : Nat → Value → Value → Value
/-- See `Config.finOfNat`. -/
opaque Config.finDiv : Nat → Value → Value → Value
/-- See `Config.finOfNat`. -/
opaque Config.finSqrt : Nat → Value → Value
/-- The cosine of `2π` times the given number of turns. See `Config.finOfNat`. -/
opaque Config.finCos : Nat → Rat → Value
/-- The sine of `2π` times the given number of turns. See `Config.finOfNat`. -/
opaque Config.finSin : Nat → Rat → Value
/-- The order `gt`. See `Config.finOfNat`; that it is a total order is an assumption a claim must state (U5). -/
opaque Config.finGt : Nat → Value → Value → Bool

end Sys2Proof
end

