-- ==== Sys2Proof/Syntax.lean ====
section
/-! DEFINITION. The seventeen operations (spec/30_encoding.md R97), the block's analogue of instructions. -/

namespace Sys2Proof

/-- The operations of R97, one constructor per row of spec/opcode_table.json. None has a written operand (R106): each
reads and writes fixed registers. -/
inductive Instr where
  /-- SAMPLE, TSEL `1x` (R120) -/
  | sample
  /-- BANKFLIP, TSEL `11`: SAMPLE and BANKFLIP in one indivisible operation (R98, R121) -/
  | bankflip
  /-- DISPATCH, PH 0 (R215) -/
  | dispatch
  /-- ACQUIRE, PH 1 (R216) -/
  | acquire
  /-- COPY, PH 2 (R140) -/
  | copy
  /-- DCREM, PH 3 (R141) -/
  | dcrem
  /-- WINDOW, PH 4 (R142) -/
  | window
  /-- FFT, PH 5 (R143) -/
  | fft
  /-- MAG, PH 6 (R144) -/
  | mag
  /-- PEAK, PH 7 (R160) -/
  | peak
  /-- FREQ, PH 8 (R161) -/
  | freq
  /-- LOOKUP, PH 9 (R162) -/
  | lookup
  /-- EMIT, PH 10 (R222) -/
  | emit
  /-- SEQ_WAIT, PH 11 (R180) -/
  | seqWait
  /-- DRIVE, PH 12 (R200) -/
  | drive
  /-- PLAY_CHECK, PH 13 (R183) -/
  | playCheck
  /-- STOP, PH 14 (R201) -/
  | stop
deriving DecidableEq, Repr, Inhabited

/-- The two word spaces an operation's code lives in (R97): TSEL selects what the Sampler does on a tick, PH what the
loop controller does next. -/
inductive Format where
  | tsel
  | ph
deriving DecidableEq, Repr, Inhabited

/-- The agent an operation belongs to (R97, spec/45_mainloop.md R227). -/
def Instr.format : Instr → Format
  | .sample | .bankflip => .tsel
  | .dispatch | .acquire | .copy | .dcrem | .window | .fft | .mag | .peak | .freq | .lookup | .emit | .seqWait
  | .drive | .playCheck | .stop => .ph

end Sys2Proof
end

