-- ==== Sys2Proof/WellFormed.lean ====
section
/-! DEFINITION. Well-formedness: of a configuration (spec/70_reset_and_hazards.md R276), of an operation, and of a
code word of a given format. -/

namespace Sys2Proof

/-- No operation has a written operand (spec/30_encoding.md R106), so every term of `Instr` is well formed. -/
def Instr.wf : Instr → Bool
  | .sample | .bankflip | .dispatch | .acquire | .copy | .dcrem | .window | .fft | .mag | .peak | .freq | .lookup
  | .emit | .seqWait | .drive | .playCheck | .stop => true

/-- A melody step is a well-formed MST word when its symbol fits (R276). `rest = 1` with `sym != 0` is reserved but
accepted, as REST (R101). -/
def MelodyStep.wf (symW : Nat) (m : MelodyStep) : Bool := decide (m.sym < 2 ^ symW)

/-- The fields of a NoteRange row fit their widths (R276). -/
def NoteRow.wf (symW freqW : Nat) (r : NoteRow) : Bool :=
  decide (r.sym < 2 ^ symW) && decide (r.fmin < 2 ^ freqW) && decide (r.fmax < 2 ^ freqW)

/-- `N` is a power of two and at least 4 (R7, R276). -/
def Config.blockSizeOk (c : Config) : Bool := decide (4 ≤ c.n) && decide (c.n = 2 ^ c.logn)

/-- `FS` is a positive integer below `2^FS_W`, `ADC_MAX >= 1` (R276), `ADC_W >= 1` (R6). -/
def Config.ratesOk (c : Config) : Bool :=
  decide (1 ≤ c.fs) && decide (c.fs < 2 ^ c.fsW) && decide (1 ≤ c.adcMax) && decide (1 ≤ c.adcW)

/-- One window coefficient per index (R6). -/
def Config.hammingOk (c : Config) : Bool := decide (c.hamming.length = c.n)

/-- `L >= 1` and every step is a well-formed MST word (R276). -/
def Config.melodyOk (c : Config) : Bool := decide (1 ≤ c.l) && c.melody.all (MelodyStep.wf c.symW)

/-- Every row fits the widths (R276); `K = 0` is legal (R102). -/
def Config.noteTableOk (c : Config) : Bool := c.noteTable.all (NoteRow.wf c.symW c.freqW)

/-- `STEP_DURATION < 2^TIME_W` (R276) and the widths are at least 1 (R6). -/
def Config.widthsOk (c : Config) : Bool :=
  decide (c.stepDuration < 2 ^ c.timeW) && decide (1 ≤ c.symW) && decide (1 ≤ c.freqW) && decide (1 ≤ c.timeW)
    && decide (1 ≤ c.cmdW)

/-- The three speeds are commands, and pairwise distinct (R276, "fixed, asymmetric"). -/
def Config.speedsOk (c : Config) : Bool :=
  decide (c.speedFwd0 < 2 ^ c.cmdW) && decide (c.speedFwd1 < 2 ^ c.cmdW) && decide (c.speedNeutral < 2 ^ c.cmdW)
    && decide (c.speedFwd0 ≠ c.speedNeutral) && decide (c.speedFwd1 ≠ c.speedNeutral)
    && decide (c.speedFwd0 ≠ c.speedFwd1)

/-- A configuration the block is defined for (R275 (1), R276). -/
def Config.wf (c : Config) : Bool :=
  c.blockSizeOk && c.ratesOk && c.hammingOk && c.melodyOk && c.noteTableOk && c.widthsOk && c.speedsOk

/-- The width in bits of a code word of a format (R90). -/
def Format.width : Format → Nat
  | .tsel => 2
  | .ph => 4

/-- A number is a word of a format when it fits the format's width (spec/00_scope.md R10). -/
def Format.fits (f : Format) (w : Nat) : Bool := decide (w < 2 ^ f.width)

end Sys2Proof
end

