-- ==== Sys2Proof/Decode.lean ====
section
/-! DEFINITION. Decoding and encoding the operation codes (spec/30_encoding.md R97, R98, R100). -/

namespace Sys2Proof

/-- Why a word selects no operation. -/
inductive DecodeReject where
  /-- TSEL with `tick = 0`: the Sampler does nothing (R98) -/
  | noTick
  /-- PH 15 is reserved (R100) -/
  | reservedPhase
  /-- the number does not fit the width of the format -/
  | tooWide
deriving DecidableEq, Repr, Inhabited

/-- The operation a TSEL word selects (R98). `10` is SAMPLE alone; `11` is SAMPLE with BANKFLIP as part of the same
indivisible operation, which the table lists as BANKFLIP. -/
def decodeTsel (w : TselWord) : Except DecodeReject Instr :=
  match w.toNat with
  | 2 => .ok .sample
  | 3 => .ok .bankflip
  | _ => .error .noTick

/-- The operation a phase code names (R97). -/
def decodePh (w : PhaseWord) : Except DecodeReject Instr :=
  match w.toNat with
  | 0 => .ok .dispatch
  | 1 => .ok .acquire
  | 2 => .ok .copy
  | 3 => .ok .dcrem
  | 4 => .ok .window
  | 5 => .ok .fft
  | 6 => .ok .mag
  | 7 => .ok .peak
  | 8 => .ok .freq
  | 9 => .ok .lookup
  | 10 => .ok .emit
  | 11 => .ok .seqWait
  | 12 => .ok .drive
  | 13 => .ok .playCheck
  | 14 => .ok .stop
  | _ => .error .reservedPhase

/-- Decoding a number as a word of a format. -/
def decode (f : Format) (w : Nat) : Except DecodeReject Instr :=
  if f.fits w then
    match f with
    | .tsel => decodeTsel (BitVec.ofNat 2 w)
    | .ph => decodePh (BitVec.ofNat 4 w)
  else .error .tooWide

/-- The code of an operation (R97), with SAMPLE's don't-care bit 0. -/
def Instr.code : Instr → Nat
  | .sample => 0b10
  | .bankflip => 0b11
  | .dispatch => 0b0000
  | .acquire => 0b0001
  | .copy => 0b0010
  | .dcrem => 0b0011
  | .window => 0b0100
  | .fft => 0b0101
  | .mag => 0b0110
  | .peak => 0b0111
  | .freq => 0b1000
  | .lookup => 0b1001
  | .emit => 0b1010
  | .seqWait => 0b1011
  | .drive => 0b1100
  | .playCheck => 0b1101
  | .stop => 0b1110

/-- The encoder: an operation's format and code. -/
def encode (i : Instr) : Format × Nat := (i.format, i.code)

/-- Which of the two word spaces a table word of `nbits` bits is read in: a word of at most two bits is a TSEL word,
a wider one a PH word. Rounded to whole bytes the two spaces cannot be told apart, and PH is taken (log 10). -/
def tableFormat (nbits : Nat) : Format := if nbits ≤ 2 then .tsel else .ph

/-- What the decoder reads from a word numbered as spec/opcode_table.json numbers it. -/
def decodeTableWord (nbits w : Nat) : Option Instr :=
  match decode (tableFormat nbits) w with
  | .ok i => some i
  | .error _ => none

end Sys2Proof
end

