-- ==== Sys2Proof/Machine/Real.lean ====
section
/-! DEFINITION. The real number a value stands for, once the named real parameters are given (spec/00_scope.md R6, R8,
R11), and what it is to be the order of those numbers. Claims are stated with it; the machine never evaluates it. -/

namespace Sys2Proof

namespace Value

/-- The real number a value denotes when its named real parameters are the numbers `ρ`. -/
noncomputable def valIn (ρ : Nat → ℝ) : Value → ℝ
  | .rat q => (q : ℝ)
  | .cosT r => Real.cos (2 * Real.pi * (r : ℝ))
  | .param k => ρ k
  | .plus a b => valIn ρ a + valIn ρ b
  | .minus a b => valIn ρ a - valIn ρ b
  | .times a b => valIn ρ a * valIn ρ b
  | .root a => Real.sqrt (valIn ρ a)

/-- The value holds no named real parameter. -/
def closed : Value → Bool
  | .rat _ | .cosT _ => true
  | .param _ => false
  | .plus a b | .minus a b | .times a b => closed a && closed b
  | .root a => closed a

end Value

/-- `f` is the order of the real numbers when the named real parameters are the numbers `ρ`. -/
def IsOrderOf (ρ : Nat → ℝ) (f : Value → Value → Bool) : Prop := ∀ a b, f a b = true ↔ b.valIn ρ < a.valIn ρ

/-- The orders of the real numbers, each under some choice of the named real parameters. -/
abbrev RealOrder := { f : Value → Value → Bool // ∃ ρ : Nat → ℝ, IsOrderOf ρ f }

end Sys2Proof
end

