-- ==== Sys2Proof/Machine/Algebraic.lean ====
section
/-! DEFINITION. The order of the numbers that rationals, cosines of rational turns, sums, differences, products and
square roots make, decided by approximation (spec/00_scope.md R8, log 3). -/

namespace Sys2Proof

/-- `⌊√n⌋`, one bit of the root for each unit of fuel. -/
def isqrtFuel : Nat → Nat → Nat
  | 0, _ => 0
  | f + 1, n =>
    let r := 2 * isqrtFuel f (n / 4)
    if (r + 1) * (r + 1) ≤ n then r + 1 else r

/-- `⌊√n⌋`. -/
def isqrt (n : Nat) : Nat := isqrtFuel (n.log2 / 2 + 1) n

namespace Value

/-! ### The order of the exact reals, decided by approximation

`approx a p` is within 1 of `2^p · a`; `sepBits` bounds below the absolute value of a non-zero value; so enough bits
decide the sign (log 3; `Value.gtAlgebraic_iff` in Sys2Proof/Laws/Order.lean). Here a named real parameter counts as
zero; a value that holds one is never ordered by these functions. -/

/-- `⌊(x + 2^(k-1)) / 2^k⌋`: `x / 2^k` to the nearest integer, `k > 0`. -/
def roundShift (x : Int) (k : Nat) : Int := (x + (2 ^ (k - 1) : Nat)) / ((2 ^ k : Nat) : Int)

/-- The absolute value of `a` is at most `2^(mag a)`. -/
def mag : Value → Nat
  | .rat q => q.num.natAbs.log2 + 1
  | .cosT _ | .param _ => 0
  | .plus a b | .minus a b => max (mag a) (mag b) + 1
  | .times a b => mag a + mag b
  | .root a => mag a

/-- `cos(2π / 2^(j+2))` in units of `2^-q`, by halving the angle from a quarter turn. -/
def cosPow (q : Nat) : Nat → Nat
  | 0 => 0
  | j + 1 => isqrt (2 ^ (q - 1) * (2 ^ q + cosPow q j))

/-- `(cos(kθ), cos((k+1)θ))` in units of `2^-q` for `k < 2^j`, from `c`, the cosine of `θ`, by doubling. -/
def cosLadder (q : Nat) (c : Int) : Nat → Nat → Int × Int
  | 0, _ => (((2 ^ q : Nat) : Int), c)
  | j + 1, k =>
    let e := cosLadder q c j (k / 2)
    let one := ((2 ^ q : Nat) : Int)
    if k % 2 = 0 then (2 * e.1 * e.1 / one - one, 2 * e.1 * e.2 / one - c)
    else (2 * e.1 * e.2 / one - c, 2 * e.2 * e.2 / one - one)

/-- `cos(2π·r)` in units of `2^-p`, within 1. -/
def approxCos (r : Rat) (p : Nat) : Int :=
  let m := p + 6
  let q := p + 3 * m + 4
  let f := r - (r.floor : Rat)
  let k := (f.num.natAbs * 2 ^ m) / f.den
  roundShift (cosLadder q (cosPow q (m - 2)) m k).1 (q - p)

/-- `a` in units of `2^-p`, within 1. -/
def approx : Value → Nat → Int
  | .rat q, p => q.num * ((2 ^ p : Nat) : Int) / (q.den : Int)
  | .cosT r, p => approxCos r p
  | .param _, _ => 0
  | .plus a b, p => roundShift (approx a (p + 2) + approx b (p + 2)) 2
  | .minus a b, p => roundShift (approx a (p + 2) - approx b (p + 2)) 2
  | .times a b, p =>
    roundShift (approx a (p + mag b + 3) * approx b (p + mag a + 3)) (p + mag a + mag b + 6)
  | .root a, p => roundShift (isqrt (approx a (2 * p + 4)).toNat) 2

/-- A positive integer whose product with the value is an algebraic integer. -/
def denom : Value → Nat
  | .rat q => q.den
  | .cosT _ => 2
  | .param _ => 1
  | .plus a b | .minus a b => Nat.lcm (denom a) (denom b)
  | .times a b => denom a * denom b
  | .root a => denom a

/-- Every conjugate of the value is at most this in absolute value. -/
def conjBound : Value → Nat
  | .rat q => q.num.natAbs
  | .cosT _ => 1
  | .param _ => 0
  | .plus a b | .minus a b => conjBound a + conjBound b
  | .times a b => conjBound a * conjBound b
  | .root a => conjBound a + 1

/-- The cosines in the value lie in the field of the roots of unity of this order. -/
def cycOrder : Value → Nat
  | .rat _ | .param _ => 1
  | .cosT r => r.den
  | .plus a b | .minus a b | .times a b => Nat.lcm (cycOrder a) (cycOrder b)
  | .root a => cycOrder a

/-- The number of square roots in the value. -/
def rootCount : Value → Nat
  | .rat _ | .cosT _ | .param _ => 0
  | .plus a b | .minus a b | .times a b => rootCount a + rootCount b
  | .root a => rootCount a + 1

/-- A value other than zero is at least `2^-(sepBits a)` in absolute value. -/
def sepBits (a : Value) : Nat :=
  (cycOrder a * 2 ^ rootCount a) * ((denom a * conjBound a).log2 + 1) + (denom a).log2 + 1

/-- Whether the value is positive: two cheap tries, then as many bits as decide it. -/
def isPos (a : Value) : Bool :=
  let x := approx a 64
  if 1 < x then true
  else if x < -1 then false
  else
    let y := approx a 1024
    if 1 < y then true
    else if y < -1 then false
    else decide (1 < approx a (sepBits a + 2))

/-- The order of the numbers the expressions stand for, a named real parameter counting as zero. -/
def gtAlgebraic (a b : Value) : Bool := if a = b then false else isPos (.minus a b)

end Value

end Sys2Proof
end

