-- ==== Sys2Proof/Laws/Approx.lean ====
section
/-! SUPPORT. `approx a p` is within 1 of `2^p` times the number `a` stands for, named real parameters counting as zero. -/

namespace Sys2Proof

/-! ### The integer square root -/

theorem isqrtFuel_spec (f n : Nat) (h : n < 4 ^ f) :
    isqrtFuel f n * isqrtFuel f n ≤ n ∧ n < (isqrtFuel f n + 1) * (isqrtFuel f n + 1) := by
  induction f generalizing n with
  | zero => simp only [pow_zero, Nat.lt_one_iff] at h; subst h; simp [isqrtFuel]
  | succ f ih =>
    obtain ⟨h1, h2⟩ := ih (n / 4) (by rw [pow_succ] at h; omega)
    simp only [isqrtFuel]
    generalize isqrtFuel f (n / 4) = r at *
    have hr : n < 4 * ((r + 1) * (r + 1)) := by omega
    have hr' : 4 * (r * r) ≤ n := by omega
    split_ifs with hc
    · exact ⟨hc, by nlinarith⟩
    · exact ⟨by nlinarith, by omega⟩

theorem lt_four_pow_log2 (n : Nat) : n < 4 ^ (n.log2 / 2 + 1) := by
  rcases Nat.eq_zero_or_pos n with rfl | h
  · positivity
  · calc n < 2 ^ (n.log2 + 1) := Nat.lt_log2_self
      _ ≤ 2 ^ (2 * (n.log2 / 2 + 1)) := Nat.pow_le_pow_right (by norm_num) (by omega)
      _ = 4 ^ (n.log2 / 2 + 1) := by rw [pow_mul]; norm_num

/-- `isqrt n` is the integer part of the square root. -/
theorem isqrt_spec (n : Nat) : isqrt n * isqrt n ≤ n ∧ n < (isqrt n + 1) * (isqrt n + 1) :=
  isqrtFuel_spec _ _ (lt_four_pow_log2 n)

/-- `isqrt n` is below the real square root by less than 1. -/
theorem isqrt_real (n : Nat) : (isqrt n : ℝ) ≤ √(n : ℝ) ∧ √(n : ℝ) < (isqrt n : ℝ) + 1 := by
  obtain ⟨h1, h2⟩ := isqrt_spec n
  constructor
  · exact Real.le_sqrt_of_sq_le (by rw [sq]; exact_mod_cast h1)
  · rw [Real.sqrt_lt' (by positivity), sq]
    exact_mod_cast h2

namespace Value

variable {ρ : Nat → ℝ}

@[simp] theorem valIn_rat (q : Rat) : (Value.rat q).valIn ρ = (q : ℝ) := rfl
@[simp] theorem valIn_cosT (r : Rat) : (Value.cosT r).valIn ρ = Real.cos (2 * Real.pi * (r : ℝ)) := rfl
@[simp] theorem valIn_param (k : Nat) : (Value.param k).valIn ρ = ρ k := rfl
@[simp] theorem valIn_plus (a b : Value) : (Value.plus a b).valIn ρ = a.valIn ρ + b.valIn ρ := rfl
@[simp] theorem valIn_minus (a b : Value) : (Value.minus a b).valIn ρ = a.valIn ρ - b.valIn ρ := rfl
@[simp] theorem valIn_times (a b : Value) : (Value.times a b).valIn ρ = a.valIn ρ * b.valIn ρ := rfl
@[simp] theorem valIn_root (a : Value) : (Value.root a).valIn ρ = √(a.valIn ρ) := rfl

/-- A value without named real parameters denotes the same number whatever they are. -/
theorem valIn_closed {a : Value} (h : a.closed = true) (ρ σ : Nat → ℝ) : a.valIn ρ = a.valIn σ := by
  induction a with
  | rat | cosT => rfl
  | param => cases h
  | plus a b iha ihb | minus a b iha ihb | times a b iha ihb =>
    simp only [closed, Bool.and_eq_true] at h
    simp [iha h.1, ihb h.2]
  | root a ih => simp [ih h]

/-- The number a value denotes when every named real parameter is zero. -/
noncomputable abbrev val₀ (a : Value) : ℝ := a.valIn fun _ => 0

end Value

end Sys2Proof

namespace Sys2Proof.Value

theorem roundShift_spec (x : Int) {k : Nat} (hk : 0 < k) : |(x : ℝ) / 2 ^ k - (roundShift x k : ℝ)| ≤ 1 / 2 := by
  obtain ⟨j, rfl⟩ : ∃ j, k = j + 1 := ⟨k - 1, by omega⟩
  unfold roundShift
  simp only [Nat.add_sub_cancel]
  set h : Int := ((2 ^ j : Nat) : Int) with hh
  have hd : ((2 ^ (j + 1) : Nat) : Int) = 2 * h := by rw [hh]; push_cast; ring
  have hpos : 0 < h := by positivity
  rw [hd]
  have e1 := Int.emod_add_mul_ediv (x + h) (2 * h)
  have e2 := Int.emod_nonneg (x + h) (by omega : 2 * h ≠ 0)
  have e3 := Int.emod_lt_of_pos (x + h) (by omega : 0 < 2 * h)
  generalize (x + h) / (2 * h) = q at *
  generalize (x + h) % (2 * h) = r at *
  have hx : (x : ℝ) = 2 * (h : ℝ) * q + r - h := by
    have : x = 2 * h * q + r - h := by omega
    exact_mod_cast this
  have hp : (2 : ℝ) ^ (j + 1) = 2 * (h : ℝ) := by rw [hh]; push_cast; ring
  have hposR : (0 : ℝ) < h := by exact_mod_cast hpos
  have hr0 : (0 : ℝ) ≤ r := by exact_mod_cast e2
  have hr1 : (r : ℝ) ≤ 2 * h := by exact_mod_cast e3.le
  rw [hp, hx, show (2 * (h : ℝ) * q + r - h) / (2 * h) - q = (r - h) / (2 * h) by field_simp; ring, abs_le]
  constructor
  · rw [le_div_iff₀ (by positivity)]; linarith
  · rw [div_le_iff₀ (by positivity)]; linarith

/-- Integer division is below the real quotient by less than 1. -/
theorem ediv_spec (x : Int) {d : Int} (hd : 0 < d) : |(x : ℝ) / (d : ℝ) - ((x / d : Int) : ℝ)| ≤ 1 := by
  have e1 := Int.emod_add_mul_ediv x d
  have e2 := Int.emod_nonneg x hd.ne'
  have e3 := Int.emod_lt_of_pos x hd
  generalize x / d = q at *
  generalize x % d = r at *
  have hx : (x : ℝ) = d * q + r := by
    have : x = d * q + r := by omega
    exact_mod_cast this
  have hdR : (0 : ℝ) < d := by exact_mod_cast hd
  have hr0 : (0 : ℝ) ≤ r := by exact_mod_cast e2
  have hr1 : (r : ℝ) ≤ d := by exact_mod_cast e3.le
  rw [hx, show ((d : ℝ) * q + r) / d - q = r / d by field_simp; ring, abs_le]
  constructor
  · have : 0 ≤ (r : ℝ) / d := by positivity
    linarith
  · rw [div_le_iff₀ hdR]; linarith

theorem abs_sqrt_sub_sqrt_le {x y : ℝ} (hx : 0 ≤ x) (hy : 0 ≤ y) : |√x - √y| ≤ √|x - y| := by
  apply Real.le_sqrt_of_sq_le
  rw [sq_abs]
  have h1 := Real.sq_sqrt hx
  have h2 := Real.sq_sqrt hy
  have h3 := Real.sqrt_nonneg x
  have h4 := Real.sqrt_nonneg y
  rcases le_total x y with h | h
  · rw [abs_of_nonpos (by linarith)]
    have := Real.sqrt_le_sqrt h
    nlinarith
  · rw [abs_of_nonneg (by linarith)]
    have := Real.sqrt_le_sqrt h
    nlinarith

/-! ### Magnitudes -/

theorem abs_val_le (a : Value) : |a.val₀| ≤ 2 ^ mag a := by
  induction a with
  | rat q =>
    have h1 : |(q : ℝ)| ≤ (q.num.natAbs : ℝ) := by
      rw [show (q : ℝ) = (q.num : ℝ) / (q.den : ℝ) by exact_mod_cast (Rat.num_div_den q).symm, abs_div,
        Nat.abs_cast, ← Int.cast_abs, Int.abs_eq_natAbs, Int.cast_natCast]
      exact div_le_self (by positivity) (by exact_mod_cast q.pos)
    refine h1.trans ?_
    have : q.num.natAbs < 2 ^ (q.num.natAbs.log2 + 1) := Nat.lt_log2_self
    exact_mod_cast this.le
  | cosT r => simpa [mag] using Real.abs_cos_le_one _
  | param k => simp [mag]
  | plus a b iha ihb =>
    have ha : (2 : ℝ) ^ mag a ≤ 2 ^ max (mag a) (mag b) := pow_le_pow_right₀ (by norm_num) (le_max_left _ _)
    have hb : (2 : ℝ) ^ mag b ≤ 2 ^ max (mag a) (mag b) := pow_le_pow_right₀ (by norm_num) (le_max_right _ _)
    have := abs_add_le a.val₀ b.val₀
    simp only [valIn_plus, mag, pow_succ]
    linarith
  | minus a b iha ihb =>
    have ha : (2 : ℝ) ^ mag a ≤ 2 ^ max (mag a) (mag b) := pow_le_pow_right₀ (by norm_num) (le_max_left _ _)
    have hb : (2 : ℝ) ^ mag b ≤ 2 ^ max (mag a) (mag b) := pow_le_pow_right₀ (by norm_num) (le_max_right _ _)
    have := abs_sub a.val₀ b.val₀
    simp only [valIn_minus, mag, pow_succ]
    linarith
  | times a b iha ihb =>
    simp only [valIn_times, mag, pow_add, abs_mul]
    gcongr
  | root a ih =>
    simp only [valIn_root, mag]
    rw [abs_of_nonneg (Real.sqrt_nonneg _)]
    have h1 : (1 : ℝ) ≤ 2 ^ mag a := one_le_pow₀ (by norm_num)
    rw [Real.sqrt_le_left (by positivity)]
    have := (le_abs_self a.val₀).trans ih
    nlinarith

/-! ### The cosine -/

/-- The angle `2π / 2^(j+2)`. -/
noncomputable def powAngle (j : Nat) : ℝ := 2 * Real.pi / 2 ^ (j + 2)

theorem powAngle_succ (j : Nat) : powAngle (j + 1) = powAngle j / 2 := by
  unfold powAngle; rw [show j + 1 + 2 = (j + 2) + 1 by ring, pow_succ]; field_simp

theorem powAngle_bounds (j : Nat) : 0 ≤ powAngle j ∧ powAngle j ≤ Real.pi / 2 := by
  have hpi := Real.pi_pos
  unfold powAngle
  constructor
  · positivity
  · rw [div_le_div_iff₀ (by positivity) (by norm_num)]
    have : (4 : ℝ) ≤ 2 ^ (j + 2) := by
      calc (4 : ℝ) = 2 ^ 2 := by norm_num
        _ ≤ 2 ^ (j + 2) := pow_le_pow_right₀ (by norm_num) (by omega)
    nlinarith

theorem cosPow_spec {q : Nat} (hq : 1 ≤ q) (j : Nat) :
    |(cosPow q j : ℝ) - 2 ^ q * Real.cos (powAngle j)| ≤ 4 := by
  induction j with
  | zero =>
    simp [cosPow, powAngle, show 2 * Real.pi / 2 ^ 2 = Real.pi / 2 by ring]
  | succ j ih =>
    obtain ⟨hb0, hb1⟩ := powAngle_bounds j
    have hpi := Real.pi_pos
    have hc0 : 0 ≤ Real.cos (powAngle j) := Real.cos_nonneg_of_neg_pi_div_two_le_of_le (by linarith) hb1
    obtain ⟨k, rfl⟩ : ∃ k, q = k + 1 := ⟨q - 1, by omega⟩
    rw [powAngle_succ, Real.cos_half (by linarith) (by linarith)]
    simp only [cosPow, Nat.add_sub_cancel]
    set c := Real.cos (powAngle j)
    set C := cosPow (k + 1) j
    set h : ℝ := 2 ^ k with hh
    have hhp : 0 < h := by positivity
    have hQ : (2 : ℝ) ^ (k + 1) = 2 * h := by rw [pow_succ]; ring
    rw [hQ] at ih ⊢
    have hX : (((2 ^ k * (2 ^ (k + 1) + C) : Nat)) : ℝ) = h * (2 * h + C) := by push_cast; rw [hQ]
    obtain ⟨s1, s2⟩ := isqrt_real (2 ^ k * (2 ^ (k + 1) + C))
    rw [hX] at s1 s2
    have hY : 2 * h * √((1 + c) / 2) = √(h * (2 * h + 2 * h * c)) := by
      rw [show h * (2 * h + 2 * h * c) = (2 * h) ^ 2 * ((1 + c) / 2) by ring, Real.sqrt_mul (by positivity),
        Real.sqrt_sq (by positivity)]
    rw [hY]
    have hXY : |√(h * (2 * h + C)) - √(h * (2 * h + 2 * h * c))| ≤ 3 := by
      set X := h * (2 * h + (C : ℝ)) with hXdef
      set Y := h * (2 * h + 2 * h * c) with hYdef
      have hX0 : 0 ≤ X := by positivity
      have hY0 : 2 * h ^ 2 ≤ Y := by rw [hYdef]; nlinarith [mul_nonneg (mul_nonneg hhp.le hhp.le) hc0]
      have hYh : h ≤ √Y := Real.le_sqrt_of_sq_le (by nlinarith)
      have hYs : (1.4 * h) ≤ √Y := Real.le_sqrt_of_sq_le (by nlinarith)
      have hdiff : |X - Y| ≤ 4 * h := by
        rw [show X - Y = h * ((C : ℝ) - 2 * h * c) by rw [hXdef, hYdef]; ring, abs_mul, abs_of_pos hhp]
        nlinarith
      have hfac : (√X - √Y) * (√X + √Y) = X - Y := by
        have h1 := Real.sq_sqrt hX0
        have h2 := Real.sq_sqrt (show 0 ≤ Y by nlinarith)
        nlinarith
      have habs : |√X - √Y| * (√X + √Y) = |X - Y| := by
        rw [← hfac, abs_mul, abs_of_nonneg (by positivity : 0 ≤ √X + √Y)]
      have hsX := Real.sqrt_nonneg X
      have hd0 := abs_nonneg (√X - √Y)
      by_contra hcon
      push Not at hcon
      nlinarith
    rw [abs_le] at hXY ⊢
    constructor <;> linarith [hXY.1, hXY.2]

theorem cosLadder_spec {q : Nat} {c : Int} {θ : ℝ} (hc : |(c : ℝ) - 2 ^ q * Real.cos θ| ≤ 4) (j k : Nat)
    (hk : k < 2 ^ j) (hq : 4 * 8 ^ j ≤ (2 : ℝ) ^ q) :
    |((cosLadder q c j k).1 : ℝ) - 2 ^ q * Real.cos (k * θ)| ≤ 4 * 8 ^ j ∧
    |((cosLadder q c j k).2 : ℝ) - 2 ^ q * Real.cos ((k + 1) * θ)| ≤ 4 * 8 ^ j := by
  induction j generalizing k with
  | zero =>
    obtain rfl : k = 0 := by simpa using hk
    constructor
    · simp [cosLadder]
    · simpa [cosLadder] using hc
  | succ j ih =>
    have h8 : (4 * 8 ^ j : ℝ) ≤ 2 ^ q := by
      refine le_trans ?_ hq
      rw [pow_succ]; nlinarith [show (0 : ℝ) < 8 ^ j by positivity]
    obtain ⟨h1, h2⟩ := ih (k / 2) (by rw [pow_succ] at hk; omega) h8
    set E : ℝ := 4 * 8 ^ j with hE
    have hE4 : 4 ≤ E := by rw [hE]; nlinarith [one_le_pow₀ (show (1 : ℝ) ≤ 8 by norm_num) (n := j)]
    have hE' : (4 * 8 ^ (j + 1) : ℝ) = 8 * E := by rw [hE, pow_succ]; ring
    rw [hE']
    set Q : ℝ := 2 ^ q with hQ
    have hQp : 0 < Q := by positivity
    set X := (cosLadder q c j (k / 2)).1
    set Y := (cosLadder q c j (k / 2)).2
    set φ : ℝ := ((k / 2 : Nat) : ℝ) * θ with hφ
    set ψ : ℝ := (((k / 2 : Nat) : ℝ) + 1) * θ with hψ
    have hone : (((2 ^ q : Nat) : Int) : ℝ) = Q := by rw [hQ]; push_cast; rfl
    have hop : (0 : Int) < ((2 ^ q : Nat) : Int) := by positivity
    -- a product of two approximations, scaled back
    have prod : ∀ (A B : Int) (a b : ℝ), |(A : ℝ) - Q * a| ≤ E → |(B : ℝ) - Q * b| ≤ E → |a| ≤ 1 → |b| ≤ 1 →
        |((2 * A * B / ((2 ^ q : Nat) : Int) : Int) : ℝ) - Q * (2 * a * b)| ≤ 6 * E + 1 := by
      intro A B a b hA hB ha hb
      have hd := ediv_spec (2 * A * B) hop
      rw [hone] at hd
      obtain ⟨e, he⟩ : ∃ e, (A : ℝ) = Q * a + e := ⟨A - Q * a, by ring⟩
      obtain ⟨f, hf⟩ : ∃ f, (B : ℝ) = Q * b + f := ⟨B - Q * b, by ring⟩
      rw [he, add_sub_cancel_left] at hA
      rw [hf, add_sub_cancel_left] at hB
      have hval : ((2 * A * B : Int) : ℝ) / Q = Q * (2 * a * b) + (2 * a * f + 2 * b * e + 2 * e * f / Q) := by
        push_cast; rw [he, hf]; field_simp; ring
      rw [hval] at hd
      have haf : |a * f| ≤ E := by rw [abs_mul]; nlinarith [abs_nonneg a, abs_nonneg f]
      have hbe : |b * e| ≤ E := by rw [abs_mul]; nlinarith [abs_nonneg b, abs_nonneg e]
      have hef : |e * f / Q| ≤ E := by
        rw [abs_div, abs_of_pos hQp, div_le_iff₀ hQp, abs_mul]
        nlinarith [abs_nonneg e, abs_nonneg f]
      rw [abs_le] at haf hbe hef hd ⊢
      have : 2 * e * f / Q = 2 * (e * f / Q) := by ring
      rw [this] at hd
      constructor <;> nlinarith [haf.1, haf.2, hbe.1, hbe.2, hef.1, hef.2, hd.1, hd.2]
    have hcφ := Real.abs_cos_le_one φ
    have hcψ := Real.abs_cos_le_one ψ
    have hXX := prod X X _ _ h1 h1 hcφ hcφ
    have hXY := prod X Y _ _ h1 h2 hcφ hcψ
    have hYY := prod Y Y _ _ h2 h2 hcψ hcψ
    have t1 : 2 * Real.cos φ * Real.cos φ - 1 = Real.cos (2 * φ) := by rw [Real.cos_two_mul]; ring
    have t2 : 2 * Real.cos φ * Real.cos ψ - Real.cos θ = Real.cos (φ + ψ) := by
      have hθ : θ = ψ - φ := by rw [hψ, hφ]; ring
      rw [hθ, Real.cos_add, Real.cos_sub]; ring
    have t3 : 2 * Real.cos ψ * Real.cos ψ - 1 = Real.cos (2 * ψ) := by rw [Real.cos_two_mul]; ring
    simp only [cosLadder]
    rcases Nat.even_or_odd' k with ⟨l, rfl | rfl⟩
    · have hl : 2 * l / 2 = l := by omega
      rw [if_pos (by omega)]
      rw [hl] at hφ hψ
      have a1 : ((2 * l : Nat) : ℝ) * θ = 2 * φ := by rw [hφ]; push_cast; ring
      have a2 : (((2 * l : Nat) : ℝ) + 1) * θ = φ + ψ := by rw [hφ, hψ]; push_cast; ring
      rw [a1, a2, ← t1, ← t2]
      push_cast at hXX hXY hone ⊢
      rw [abs_le] at hXX hXY hc
      refine ⟨abs_le.mpr ⟨?_, ?_⟩, abs_le.mpr ⟨?_, ?_⟩⟩ <;>
        linarith only [hXX.1, hXX.2, hXY.1, hXY.2, hc.1, hc.2, hE4, hone]
    · have hl : (2 * l + 1) / 2 = l := by omega
      rw [if_neg (by omega)]
      rw [hl] at hφ hψ
      have a1 : ((2 * l + 1 : Nat) : ℝ) * θ = φ + ψ := by rw [hφ, hψ]; push_cast; ring
      have a2 : (((2 * l + 1 : Nat) : ℝ) + 1) * θ = 2 * ψ := by rw [hψ]; push_cast; ring
      rw [a1, a2, ← t2, ← t3]
      push_cast at hXY hYY hone ⊢
      rw [abs_le] at hYY hXY hc
      refine ⟨abs_le.mpr ⟨?_, ?_⟩, abs_le.mpr ⟨?_, ?_⟩⟩ <;>
        linarith only [hYY.1, hYY.2, hXY.1, hXY.2, hc.1, hc.2, hE4, hone]


theorem approxCos_spec (r : Rat) (p : Nat) :
    |2 ^ p * Real.cos (2 * Real.pi * (r : ℝ)) - (approxCos r p : ℝ)| ≤ 1 := by
  unfold approxCos
  dsimp only
  set f : Rat := r - (r.floor : Rat) with hf
  set k : Nat := f.num.natAbs * 2 ^ (p + 6) / f.den with hk
  have hf0 : 0 ≤ f := by rw [hf, sub_nonneg]; exact Rat.floor_le r
  have hf1 : f < 1 := by rw [hf, sub_lt_iff_lt_add']; exact_mod_cast Rat.lt_floor_add_one r
  have hnum : ((f.num.natAbs : Nat) : ℝ) = (f : ℝ) * (f.den : ℝ) := by
    have h1 : (f.num.natAbs : Int) = f.num := Int.natAbs_of_nonneg (Rat.num_nonneg.mpr hf0)
    rw [← Int.cast_natCast, h1]
    exact_mod_cast (Rat.mul_den_eq_num f).symm
  have hden : (0 : ℝ) < (f.den : ℝ) := by exact_mod_cast f.pos
  have hM : (0 : ℝ) < 2 ^ (p + 6) := by positivity
  have hkle : (k : ℝ) ≤ f * 2 ^ (p + 6) := by
    have : k * f.den ≤ f.num.natAbs * 2 ^ (p + 6) := Nat.div_mul_le_self _ _
    have : (k : ℝ) * f.den ≤ f.num.natAbs * 2 ^ (p + 6) := by exact_mod_cast this
    rw [hnum] at this
    nlinarith
  have hkgt : (f : ℝ) * 2 ^ (p + 6) ≤ k + 1 := by
    have : f.num.natAbs * 2 ^ (p + 6) < (k + 1) * f.den := by
      rw [hk, Nat.add_mul, Nat.one_mul]; exact Nat.lt_div_mul_add f.pos
    have : (f.num.natAbs : ℝ) * 2 ^ (p + 6) < (k + 1) * f.den := by exact_mod_cast this
    rw [hnum] at this
    nlinarith
  have hf1R : (f : ℝ) < 1 := by exact_mod_cast hf1
  have hklt : k < 2 ^ (p + 6) := by
    have : (k : ℝ) < 2 ^ (p + 6) := lt_of_le_of_lt hkle (by nlinarith)
    exact_mod_cast this
  obtain ⟨q, hq⟩ : ∃ q, q = p + 3 * (p + 6) + 4 := ⟨_, rfl⟩
  rw [← hq]
  have hpow : (4 * 8 ^ (p + 6) : ℝ) = 2 ^ (3 * (p + 6) + 2) := by
    rw [pow_add (2 : ℝ), pow_mul]; norm_num; ring
  have hq8 : (4 * 8 ^ (p + 6) : ℝ) ≤ 2 ^ q := by
    rw [hpow, hq]; exact pow_le_pow_right₀ (by norm_num) (by omega)
  have hlad := (cosLadder_spec (c := (cosPow q (p + 6 - 2) : Int)) (θ := powAngle (p + 6 - 2)) (q := q)
    (by push_cast; exact cosPow_spec (by omega) _) (p + 6) k hklt hq8).1
  set X := (cosLadder q (cosPow q (p + 6 - 2) : Int) (p + 6) k).1 with hX
  have hsh : q - p = 3 * (p + 6) + 4 := by omega
  rw [hsh]
  have hround := roundShift_spec X (k := 3 * (p + 6) + 4) (by omega)
  -- the ladder's error, in units of 2^-p
  have hang : powAngle (p + 6 - 2) = 2 * Real.pi / 2 ^ (p + 6) := by
    unfold powAngle; rw [show p + 6 - 2 + 2 = p + 6 by omega]
  rw [hang] at hlad
  set D : ℝ := 2 ^ (3 * (p + 6) + 4) with hD
  have hDp : 0 < D := by positivity
  have hQD : (2 : ℝ) ^ q = 2 ^ p * D := by rw [hD, hq, add_assoc, pow_add]
  have hED : (4 * 8 ^ (p + 6) : ℝ) = D / 4 := by rw [hpow, hD]; rw [pow_add, pow_add]; ring
  rw [hQD, hED] at hlad
  set c1 := Real.cos (k * (2 * Real.pi / 2 ^ (p + 6))) with hc1
  have h1 : |(X : ℝ) / D - 2 ^ p * c1| ≤ 1 / 4 := by
    have : (X : ℝ) / D - 2 ^ p * c1 = (X - 2 ^ p * D * c1) / D := by field_simp
    rw [this, abs_div, abs_of_pos hDp, div_le_iff₀ hDp]
    linarith
  -- the angle's error
  have h2 : |c1 - Real.cos (2 * Real.pi * (f : ℝ))| ≤ 7 / 2 ^ (p + 6) := by
    refine (Real.abs_cos_sub_cos_le _ _).trans ?_
    have : (k : ℝ) * (2 * Real.pi / 2 ^ (p + 6)) - 2 * Real.pi * f = 2 * Real.pi * ((k - f * 2 ^ (p + 6)) / 2 ^ (p + 6)) := by
      field_simp
    rw [this, abs_mul, abs_div, abs_of_pos hM, abs_of_pos (by have := Real.pi_pos; positivity : 0 < 2 * Real.pi),
      mul_div_assoc']
    gcongr
    have hpi := Real.pi_lt_d2
    have habs : |(k : ℝ) - f * 2 ^ (p + 6)| ≤ 1 := abs_le.mpr ⟨by linarith, by linarith⟩
    nlinarith [abs_nonneg ((k : ℝ) - f * 2 ^ (p + 6)), Real.pi_pos]
  have h3 : |2 ^ p * c1 - 2 ^ p * Real.cos (2 * Real.pi * (f : ℝ))| ≤ 7 / 64 := by
    rw [← mul_sub, abs_mul, abs_of_pos (by positivity : (0 : ℝ) < 2 ^ p)]
    calc 2 ^ p * |c1 - Real.cos (2 * Real.pi * (f : ℝ))| ≤ 2 ^ p * (7 / 2 ^ (p + 6)) := by gcongr
      _ = 7 / 64 := by rw [pow_add]; field_simp; norm_num
  have h4 : Real.cos (2 * Real.pi * (f : ℝ)) = Real.cos (2 * Real.pi * (r : ℝ)) := by
    rw [hf]; push_cast
    rw [show 2 * Real.pi * ((r : ℝ) - (r.floor : ℝ)) = 2 * Real.pi * (r : ℝ) - (r.floor : ℝ) * (2 * Real.pi) by ring]
    exact Real.cos_sub_int_mul_two_pi _ _
  rw [← h4]
  rw [abs_le] at *
  constructor <;> linarith [h1.1, h1.2, h3.1, h3.2, hround.1, hround.2]

/-- `approx a p` is within 1 of `2^p · a`. -/
theorem approx_spec (a : Value) (p : Nat) : |2 ^ p * a.val₀ - (approx a p : ℝ)| ≤ 1 := by
  induction a generalizing p with
  | rat q =>
    have h := ediv_spec (q.num * ((2 ^ p : Nat) : Int)) (d := (q.den : Int)) (by exact_mod_cast q.pos)
    have hq : (2 : ℝ) ^ p * (q : ℝ) = ((q.num * ((2 ^ p : Nat) : Int) : Int) : ℝ) / ((q.den : Int) : ℝ) := by
      rw [show (q : ℝ) = (q.num : ℝ) / (q.den : ℝ) by exact_mod_cast (Rat.num_div_den q).symm]
      push_cast; ring
    simpa only [approx, valIn_rat, hq] using h
  | cosT r => exact approxCos_spec r p
  | param k => simp [approx]
  | plus a b iha ihb =>
    have ha := iha (p + 2)
    have hb := ihb (p + 2)
    have hr := roundShift_spec (approx a (p + 2) + approx b (p + 2)) (k := 2) (by norm_num)
    simp only [approx, valIn_plus]
    push_cast at hr
    rw [pow_add] at ha hb
    rw [abs_le] at *
    constructor <;> nlinarith [ha.1, ha.2, hb.1, hb.2, hr.1, hr.2]
  | minus a b iha ihb =>
    have ha := iha (p + 2)
    have hb := ihb (p + 2)
    have hr := roundShift_spec (approx a (p + 2) - approx b (p + 2)) (k := 2) (by norm_num)
    simp only [approx, valIn_minus]
    push_cast at hr
    rw [pow_add] at ha hb
    rw [abs_le] at *
    constructor <;> nlinarith [ha.1, ha.2, hb.1, hb.2, hr.1, hr.2]
  | times a b iha ihb =>
    have ha := iha (p + mag b + 3)
    have hb := ihb (p + mag a + 3)
    have hma := abs_val_le a
    have hmb := abs_val_le b
    simp only [approx, valIn_times]
    set A : ℝ := (approx a (p + mag b + 3) : ℝ) with hA
    set B : ℝ := (approx b (p + mag a + 3) : ℝ) with hB
    have hr := roundShift_spec (approx a (p + mag b + 3) * approx b (p + mag a + 3)) (k := p + mag a + mag b + 6)
      (by omega)
    push_cast at hr
    rw [← hA, ← hB] at hr
    set P : ℝ := 2 ^ p with hP
    set M : ℝ := 2 ^ mag a with hM
    set N : ℝ := 2 ^ mag b with hN
    have hP1 : 1 ≤ P := one_le_pow₀ (by norm_num)
    have hM1 : 1 ≤ M := one_le_pow₀ (by norm_num)
    have hN1 : 1 ≤ N := one_le_pow₀ (by norm_num)
    have e1 : (2 : ℝ) ^ (p + mag b + 3) = 8 * (P * N) := by rw [pow_add, pow_add]; ring
    have e2 : (2 : ℝ) ^ (p + mag a + 3) = 8 * (P * M) := by rw [pow_add, pow_add]; ring
    have e3 : (2 : ℝ) ^ (p + mag a + mag b + 6) = 64 * (P * M * N) := by rw [pow_add, pow_add, pow_add]; ring
    rw [e1] at ha
    rw [e2] at hb
    rw [e3] at hr
    set x := a.val₀
    set y := b.val₀
    obtain ⟨e, he⟩ : ∃ e, A = 8 * (P * N) * x + e := ⟨A - 8 * (P * N) * x, by ring⟩
    obtain ⟨f, hf⟩ : ∃ f, B = 8 * (P * M) * y + f := ⟨B - 8 * (P * M) * y, by ring⟩
    have he1 : |e| ≤ 1 := by rw [he] at ha; rwa [sub_add_cancel_left, abs_neg] at ha
    have hf1 : |f| ≤ 1 := by rw [hf] at hb; rwa [sub_add_cancel_left, abs_neg] at hb
    set T : ℝ := 64 * (P * M * N) with hT
    have hTp : 0 < T := by positivity
    have hval : A * B / T = P * (x * y) + (8 * (P * N) * x * f + 8 * (P * M) * y * e + e * f) / T := by
      rw [he, hf, hT]; field_simp; ring
    have hbound : |(8 * (P * N) * x * f + 8 * (P * M) * y * e + e * f) / T| ≤ 1 / 2 := by
      rw [abs_div, abs_of_pos hTp, div_le_iff₀ hTp]
      have g1 : |8 * (P * N) * x * f| ≤ 8 * (P * M * N) := by
        rw [abs_mul, abs_mul, abs_of_pos (by positivity : 0 < 8 * (P * N))]
        calc 8 * (P * N) * |x| * |f| ≤ 8 * (P * N) * M * 1 := by gcongr
          _ = _ := by ring
      have g2 : |8 * (P * M) * y * e| ≤ 8 * (P * M * N) := by
        rw [abs_mul, abs_mul, abs_of_pos (by positivity : 0 < 8 * (P * M))]
        calc 8 * (P * M) * |y| * |e| ≤ 8 * (P * M) * N * 1 := by gcongr
          _ = _ := by ring
      have g3 : |e * f| ≤ 1 := by rw [abs_mul]; nlinarith [abs_nonneg e, abs_nonneg f]
      have hPMN : 1 ≤ P * M * N := one_le_mul_of_one_le_of_one_le (one_le_mul_of_one_le_of_one_le hP1 hM1) hN1
      have := abs_add_le (8 * (P * N) * x * f + 8 * (P * M) * y * e) (e * f)
      have := abs_add_le (8 * (P * N) * x * f) (8 * (P * M) * y * e)
      rw [hT]
      linarith
    rw [hval] at hr
    rw [abs_le] at *
    constructor <;> linarith [hr.1, hr.2, hbound.1, hbound.2]
  | root a ih =>
    have ha := ih (2 * p + 4)
    simp only [approx, valIn_root]
    set A := approx a (2 * p + 4) with hA
    have hr := roundShift_spec ((isqrt A.toNat : Nat) : Int) (k := 2) (by norm_num)
    obtain ⟨s1, s2⟩ := isqrt_real A.toNat
    have hAn : ((A.toNat : Nat) : ℝ) = max (A : ℝ) 0 := by
      have : ((A.toNat : Nat) : Int) = max A 0 := Int.toNat_eq_max A
      rw [← Int.cast_natCast, this]; push_cast; rfl
    rw [hAn] at s1 s2
    have hroot : 2 ^ (p + 2) * √a.val₀ = √(max ((2 : ℝ) ^ (2 * p + 4) * a.val₀) 0) := by
      rcases le_total 0 a.val₀ with h | h
      · rw [max_eq_left (by positivity), show 2 * p + 4 = (p + 2) * 2 by ring, pow_mul,
          Real.sqrt_mul (by positivity), Real.sqrt_sq (by positivity)]
      · rw [max_eq_right (mul_nonpos_of_nonneg_of_nonpos (by positivity) h), Real.sqrt_eq_zero_of_nonpos h,
          Real.sqrt_zero, mul_zero]
    have hdiff : |√(max ((2 : ℝ) ^ (2 * p + 4) * a.val₀) 0) - √(max (A : ℝ) 0)| ≤ 1 := by
      refine (abs_sqrt_sub_sqrt_le (le_max_right _ _) (le_max_right _ _)).trans ?_
      exact Real.sqrt_le_one.mpr ((abs_max_sub_max_le_abs _ _ _).trans ha)
    rw [← hroot, pow_add] at hdiff
    push_cast at hr
    rw [abs_le] at *
    constructor <;> nlinarith [hdiff.1, hdiff.2, hr.1, hr.2]

end Sys2Proof.Value
end

