-- ==== Sys2Proof/Laws/Separation.lean ====
section
/-! SUPPORT. A value other than zero is not closer to zero than its expression allows: `d` times it is an algebraic
integer, so the product of its conjugates is at least 1 in absolute value. -/

namespace Sys2Proof.Value

open IntermediateField Polynomial

/-- The field of the algebraic numbers. -/
noncomputable abbrev Alg : IntermediateField ℚ ℂ := algebraicClosure ℚ ℂ

theorem finrank_restrict {k L : Type*} [Field k] [Field L] [Algebra k L] (F : IntermediateField k L)
    (G : IntermediateField F L) [FiniteDimensional k F] [FiniteDimensional F G] :
    FiniteDimensional k (G.restrictScalars k) ∧
      Module.finrank k (G.restrictScalars k) = Module.finrank k F * Module.finrank F G := by
  have : Module.Free F G := Module.Free.of_divisionRing F G
  have : Module.Free k F := Module.Free.of_divisionRing k F
  have h : Module.finrank k F * Module.finrank F G = Module.finrank k G := Module.finrank_mul_finrank k F G
  have f : FiniteDimensional k G := FiniteDimensional.trans k F G
  exact ⟨f, h.symm⟩

/-- The degree of an element of a tower of two extensions is at most the product of their degrees. -/
theorem natDegree_minpoly_le {k L : Type*} [Field k] [Field L] [Algebra k L] (F : IntermediateField k L)
    (G : IntermediateField F L) [FiniteDimensional k F] [FiniteDimensional F G] {u : L} (hu : u ∈ G) :
    (minpoly k u).natDegree ≤ Module.finrank k F * Module.finrank F G := by
  obtain ⟨h1, h2⟩ := finrank_restrict F G
  have h3 := minpoly.natDegree_le (A := k) (⟨u, hu⟩ : G.restrictScalars k)
  have h4 : minpoly k (⟨u, hu⟩ : G.restrictScalars k) = minpoly k u :=
    (minpoly.algebraMap_eq (B := G.restrictScalars k) (B' := L) Subtype.val_injective _).symm
  rwa [h4, h2] at h3

/-- What the separation bound needs to know of a real number `v`, over a field `E` of algebraic numbers: it is an
algebraic number in an extension of `E` of degree at most `2^r`, `d` times it is an algebraic integer, and no conjugate
of it exceeds `b`. -/
structure Bounded (E : IntermediateField ℚ Alg) (v : ℝ) (d b r : Nat) where
  x : Alg
  F : IntermediateField E Alg
  coe_eq : (x : ℂ) = (v : ℂ)
  conj_le : ∀ σ : Alg →ₐ[ℚ] ℂ, ‖σ x‖ ≤ (b : ℝ)
  integral : IsIntegral ℤ ((d : Alg) * x)
  mem : x ∈ F
  finite : FiniteDimensional E F
  degree : Module.finrank E F ≤ 2 ^ r

variable {E : IntermediateField ℚ Alg} {v w : ℝ} {d b r d' b' r' : Nat}

theorem Bounded.ofBase {x : Alg} (hx : x ∈ E) (hv : (x : ℂ) = (v : ℂ)) (hc : ∀ σ : Alg →ₐ[ℚ] ℂ, ‖σ x‖ ≤ (b : ℝ))
    (hi : IsIntegral ℤ ((d : Alg) * x)) : Nonempty (Bounded E v d b 0) :=
  ⟨{ x := x, F := ⊥, coe_eq := hv, conj_le := hc, integral := hi
     mem := IntermediateField.mem_bot.mpr ⟨⟨x, hx⟩, rfl⟩
     finite := inferInstance
     degree := by simp }⟩

theorem Bounded.rat (E : IntermediateField ℚ Alg) (q : ℚ) : Nonempty (Bounded E (q : ℝ) q.den q.num.natAbs 0) := by
  refine Bounded.ofBase (x := (q : Alg)) (SubfieldClass.ratCast_mem E q) (by push_cast; rfl) (fun σ => ?_) ?_
  · have h1 : |(q : ℝ)| ≤ (q.num.natAbs : ℝ) := by
      rw [show (q : ℝ) = (q.num : ℝ) / (q.den : ℝ) by exact_mod_cast (Rat.num_div_den q).symm, abs_div,
        Nat.abs_cast, ← Int.cast_abs, Int.abs_eq_natAbs, Int.cast_natCast]
      exact div_le_self (by positivity) (by exact_mod_cast q.pos)
    rw [map_ratCast]
    have : ‖((q : ℚ) : ℂ)‖ = |(q : ℝ)| := by
      rw [← Complex.ofReal_ratCast, Complex.norm_real, Real.norm_eq_abs]
    rwa [this]
  · have : (q.den : Alg) * (q : Alg) = ((q.num : ℤ) : Alg) := by
      rw [mul_comm]; exact_mod_cast congrArg (fun z : ℚ => (z : Alg)) (Rat.mul_den_eq_num q)
    rw [this]
    exact isIntegral_intCast q.num

theorem Bounded.sup (B : Bounded E v d b r) (C : Bounded E w d' b' r') :
    FiniteDimensional E (B.F ⊔ C.F : IntermediateField E Alg) ∧
      Module.finrank E (B.F ⊔ C.F : IntermediateField E Alg) ≤ 2 ^ (r + r') := by
  have := B.finite
  have := C.finite
  refine ⟨inferInstance, (IntermediateField.finrank_sup_le B.F C.F).trans ?_⟩
  rw [pow_add]
  exact Nat.mul_le_mul B.degree C.degree

theorem isIntegral_natCast_mul {x : Alg} (n : Nat) (h : IsIntegral ℤ x) : IsIntegral ℤ ((n : Alg) * x) :=
  (isIntegral_natCast n).mul h

theorem Bounded.add (B : Bounded E v d b r) (C : Bounded E w d' b' r') :
    Nonempty (Bounded E (v + w) (Nat.lcm d d') (b + b') (r + r')) := by
  obtain ⟨h1, h2⟩ := B.sup C
  refine ⟨{ x := B.x + C.x, F := B.F ⊔ C.F, coe_eq := ?_, conj_le := fun σ => ?_, integral := ?_, mem := ?_
            finite := h1, degree := h2 }⟩
  · push_cast; rw [B.coe_eq, C.coe_eq]
  · rw [map_add]; push_cast
    exact (norm_add_le _ _).trans (add_le_add (B.conj_le σ) (C.conj_le σ))
  · obtain ⟨k, hk⟩ := Nat.dvd_lcm_left d d'
    obtain ⟨l, hl⟩ := Nat.dvd_lcm_right d d'
    have : ((Nat.lcm d d' : Nat) : Alg) * (B.x + C.x) = (k : Alg) * ((d : Alg) * B.x) + (l : Alg) * ((d' : Alg) * C.x) := by
      rw [mul_add]
      congr 1
      · rw [hk]; push_cast; ring
      · rw [hl]; push_cast; ring
    rw [this]
    exact (isIntegral_natCast_mul k B.integral).add (isIntegral_natCast_mul l C.integral)
  · exact add_mem ((le_sup_left : B.F ≤ B.F ⊔ C.F) B.mem) ((le_sup_right : C.F ≤ B.F ⊔ C.F) C.mem)

theorem Bounded.neg (B : Bounded E v d b r) : Nonempty (Bounded E (-v) d b r) :=
  ⟨{ x := -B.x, F := B.F, coe_eq := by push_cast; rw [B.coe_eq]
     conj_le := fun σ => by rw [map_neg, norm_neg]; exact B.conj_le σ
     integral := by rw [mul_neg]; exact B.integral.neg
     mem := neg_mem B.mem, finite := B.finite, degree := B.degree }⟩

theorem Bounded.mul (B : Bounded E v d b r) (C : Bounded E w d' b' r') :
    Nonempty (Bounded E (v * w) (d * d') (b * b') (r + r')) := by
  obtain ⟨h1, h2⟩ := B.sup C
  refine ⟨{ x := B.x * C.x, F := B.F ⊔ C.F, coe_eq := ?_, conj_le := fun σ => ?_, integral := ?_, mem := ?_
            finite := h1, degree := h2 }⟩
  · push_cast; rw [B.coe_eq, C.coe_eq]
  · rw [map_mul, norm_mul]; push_cast
    exact mul_le_mul (B.conj_le σ) (C.conj_le σ) (norm_nonneg _) (by positivity)
  · have : ((d * d' : Nat) : Alg) * (B.x * C.x) = ((d : Alg) * B.x) * ((d' : Alg) * C.x) := by push_cast; ring
    rw [this]
    exact B.integral.mul C.integral
  · exact mul_mem ((le_sup_left : B.F ≤ B.F ⊔ C.F) B.mem) ((le_sup_right : C.F ≤ B.F ⊔ C.F) C.mem)

theorem Bounded.sqrt (B : Bounded E v d b r) : Nonempty (Bounded E (√v) d (b + 1) (r + 1)) := by
  rcases lt_or_ge v 0 with hv | hv
  · rw [Real.sqrt_eq_zero_of_nonpos hv.le]
    refine ⟨{ x := 0, F := ⊥, coe_eq := by simp, conj_le := fun σ => ?_, integral := ?_
              mem := zero_mem _, finite := inferInstance, degree := ?_ }⟩
    · rw [map_zero, norm_zero]; positivity
    · rw [mul_zero]; exact isIntegral_zero
    · rw [IntermediateField.finrank_bot]; exact Nat.one_le_two_pow
  · have hsq : ((√v : ℝ) : ℂ) ^ 2 = (B.x : ℂ) := by
      rw [B.coe_eq, ← Complex.ofReal_pow, Real.sq_sqrt hv]
    have halg : ((√v : ℝ) : ℂ) ∈ Alg := by
      rw [mem_algebraicClosure_iff]
      refine IsAlgebraic.of_pow (n := 2) (by norm_num) ?_
      rw [hsq]
      exact (mem_algebraicClosure_iff).mp B.x.2
    set y : Alg := ⟨((√v : ℝ) : ℂ), halg⟩ with hy
    have hy2 : y ^ 2 = B.x := Subtype.ext (by rw [hy]; exact hsq)
    have := B.finite
    have hyint : IsIntegral B.F y := by
      refine IsIntegral.of_pow (n := 2) (by norm_num) ?_
      rw [hy2]
      exact isIntegral_algebraMap (x := (⟨B.x, B.mem⟩ : B.F))
    have hdeg : Module.finrank B.F B.F⟮y⟯ ≤ 2 := by
      rw [IntermediateField.adjoin.finrank hyint]
      have hroot : aeval y (X ^ 2 - C (⟨B.x, B.mem⟩ : B.F)) = 0 := by
        rw [map_sub, map_pow, aeval_X, aeval_C, hy2]
        exact sub_self _
      have hmonic : (X ^ 2 - C (⟨B.x, B.mem⟩ : B.F)).Monic := monic_X_pow_sub_C _ (by norm_num)
      refine (natDegree_le_of_dvd (minpoly.dvd B.F y hroot) hmonic.ne_zero).trans ?_
      rw [natDegree_X_pow_sub_C]
    have : FiniteDimensional B.F B.F⟮y⟯ := IntermediateField.adjoin.finiteDimensional hyint
    obtain ⟨hfin, hmul⟩ := finrank_restrict B.F B.F⟮y⟯
    refine ⟨{ x := y, F := (B.F⟮y⟯).restrictScalars E, coe_eq := rfl, conj_le := fun σ => ?_, integral := ?_
              mem := mem_adjoin_simple_self B.F y, finite := hfin, degree := ?_ }⟩
    · have h1 : ‖σ y‖ ^ 2 ≤ (b : ℝ) := by rw [← norm_pow, ← map_pow, hy2]; exact B.conj_le σ
      push_cast
      nlinarith [norm_nonneg (σ y)]
    · refine IsIntegral.of_pow (n := 2) (by norm_num) ?_
      rw [mul_pow, hy2, sq, mul_assoc]
      exact isIntegral_natCast_mul d B.integral
    · rw [hmul, pow_succ]
      exact Nat.mul_le_mul B.degree hdeg

/-- A primitive root of unity among the algebraic numbers. -/
theorem exists_zeta {M : Nat} (hM : 0 < M) : ∃ ζ : Alg, (ζ : ℂ) = Complex.exp (2 * Real.pi * Complex.I / M) ∧ ζ ^ M = 1 := by
  have h1 : (Complex.exp (2 * Real.pi * Complex.I / M)) ^ M = 1 := by
    rw [← Complex.exp_nat_mul, mul_div_cancel₀ _ (by exact_mod_cast hM.ne'), Complex.exp_two_pi_mul_I]
  refine ⟨⟨_, ?_⟩, rfl, Subtype.ext (by simpa using h1)⟩
  rw [mem_algebraicClosure_iff]
  refine IsAlgebraic.of_pow hM ?_
  rw [h1]
  exact isAlgebraic_one

theorem finrank_adjoin_root_le {M : Nat} (hM : 0 < M) {ζ : Alg} (h : ζ ^ M = 1) :
    FiniteDimensional ℚ ℚ⟮ζ⟯ ∧ Module.finrank ℚ ℚ⟮ζ⟯ ≤ M := by
  have hint : IsIntegral ℚ ζ := IsIntegral.of_pow hM (by rw [h]; exact isIntegral_one)
  refine ⟨IntermediateField.adjoin.finiteDimensional hint, ?_⟩
  rw [IntermediateField.adjoin.finrank hint]
  have hroot : aeval ζ (X ^ M - C (1 : ℚ)) = 0 := by simp [h]
  have hmonic : (X ^ M - C (1 : ℚ)).Monic := monic_X_pow_sub_C _ hM.ne'
  refine (natDegree_le_of_dvd (minpoly.dvd ℚ ζ hroot) hmonic.ne_zero).trans ?_
  rw [natDegree_X_pow_sub_C]

/-- A non-zero algebraic integer of degree at most `D` none of whose conjugates exceeds `U` is at least `U^-D`. -/
theorem one_le_norm_mul_pow {u : Alg} (hu : IsIntegral ℤ u) (h0 : u ≠ 0) {D : Nat}
    (hD : (minpoly ℚ u).natDegree ≤ D) {U : ℝ} (hU1 : 1 ≤ U) (hU : ∀ σ : Alg →ₐ[ℚ] ℂ, ‖σ u‖ ≤ U) :
    1 ≤ ‖(u : ℂ)‖ * U ^ D := by
  have huQ : IsIntegral ℚ u := hu.tower_top
  set P := (minpoly ℚ u).map (algebraMap ℚ ℂ) with hP
  have hmonic : P.Monic := (minpoly.monic huQ).map _
  have hsplit : P.Splits := IsAlgClosed.splits P
  have hcoeff := hsplit.coeff_zero_eq_prod_roots_of_monic hmonic
  have hroots : ∀ z ∈ P.roots, ‖z‖ ≤ U := by
    intro z hz
    have hz' : z ∈ (minpoly ℚ u).rootSet ℂ := by
      rw [mem_rootSet]
      refine ⟨(minpoly.monic huQ).ne_zero, ?_⟩
      have := (mem_roots hmonic.ne_zero).mp hz
      rwa [hP, IsRoot.def, eval_map_algebraMap] at this
    have : Algebra.IsAlgebraic ℚ Alg := algebraicClosure.isAlgebraic ℚ ℂ
    rw [← Algebra.IsAlgebraic.range_eval_eq_rootSet_minpoly ℂ u] at hz'
    obtain ⟨σ, rfl⟩ := hz'
    exact hU σ
  have humem : (u : ℂ) ∈ P.roots := by
    rw [mem_roots hmonic.ne_zero, IsRoot.def, hP, eval_map_algebraMap]
    have := congrArg (algebraMap Alg ℂ) (minpoly.aeval ℚ u)
    rw [map_zero, ← aeval_algebraMap_apply] at this
    exact this
  obtain ⟨R, hR⟩ := Multiset.exists_cons_of_mem humem
  have hRprod : ‖R.prod‖ ≤ U ^ (Multiset.card R) := by
    have hR' : ∀ z ∈ R, ‖z‖ ≤ U := fun z hz => hroots z (by rw [hR]; exact Multiset.mem_cons_of_mem hz)
    clear hR
    induction R using Multiset.induction with
    | empty => simp
    | cons a R ih =>
      rw [Multiset.prod_cons, norm_mul, Multiset.card_cons, pow_succ, mul_comm]
      exact mul_le_mul (ih fun z hz => hR' z (Multiset.mem_cons_of_mem hz)) (hR' a (Multiset.mem_cons_self a R))
        (norm_nonneg _) (by positivity)
  have hcardR : Multiset.card R ≤ D := by
    have h1 := card_roots' P
    rw [hR, Multiset.card_cons, hP, natDegree_map] at h1
    omega
  have hint : ∃ n : ℤ, (minpoly ℚ u).coeff 0 = (n : ℚ) := by
    rw [minpoly.isIntegrallyClosed_eq_field_fractions' ℚ hu, coeff_map]
    exact ⟨_, rfl⟩
  obtain ⟨n, hn⟩ := hint
  have hn0 : n ≠ 0 := by
    rintro rfl
    exact minpoly.coeff_zero_ne_zero huQ h0 (by simpa using hn)
  have hnorm : (1 : ℝ) ≤ ‖P.coeff 0‖ := by
    rw [hP, coeff_map, hn, map_intCast, Complex.norm_intCast]
    exact_mod_cast Int.one_le_abs hn0
  rw [hcoeff, hR, norm_mul, norm_pow, norm_neg, norm_one, one_pow, one_mul, Multiset.prod_cons, norm_mul] at hnorm
  refine hnorm.trans ?_
  gcongr
  exact hRprod.trans (pow_le_pow_right₀ hU1 hcardR)

theorem Bounded.cos {M : Nat} {ζ : Alg} (hζ : (ζ : ℂ) = Complex.exp (2 * Real.pi * Complex.I / M)) (h1 : ζ ^ M = 1)
    (hM : 0 < M) {r : ℚ} (hr : r.den ∣ M) :
    Nonempty (Bounded ℚ⟮ζ⟯ (Real.cos (2 * Real.pi * (r : ℝ))) 2 1 0) := by
  obtain ⟨l, hl⟩ := hr
  have hζ0 : ζ ≠ 0 := by rintro rfl; rw [zero_pow hM.ne'] at h1; exact zero_ne_one h1
  set k : ℤ := r.num * l with hk
  have hrk : (r : ℝ) = (k : ℝ) / (M : ℝ) := by
    have hl0 : (l : ℝ) ≠ 0 := by rintro h; have : l = 0 := by exact_mod_cast h
                                 subst this; omega
    have hd0 : (r.den : ℝ) ≠ 0 := by exact_mod_cast r.pos.ne'
    rw [hk, hl, show (r : ℝ) = (r.num : ℝ) / (r.den : ℝ) by exact_mod_cast (Rat.num_div_den r).symm]
    push_cast
    field_simp
  have hpow : ∀ j : ℤ, (ζ ^ j) ^ M = 1 := fun j => by
    rw [← zpow_natCast, ← zpow_mul, mul_comm, zpow_mul, zpow_natCast, h1, one_zpow]
  have hint : ∀ j : ℤ, IsIntegral ℤ (ζ ^ j) := fun j => IsIntegral.of_pow hM (by rw [hpow]; exact isIntegral_one)
  have hnorm : ∀ (σ : Alg →ₐ[ℚ] ℂ) (j : ℤ), ‖σ (ζ ^ j)‖ = 1 := fun σ j => by
    have : ‖σ (ζ ^ j)‖ ^ M = 1 := by rw [← norm_pow, ← map_pow, hpow, map_one, norm_one]
    exact (pow_eq_one_iff_of_nonneg (norm_nonneg _) hM.ne').mp this
  have hmem : ∀ j : ℤ, ζ ^ j ∈ ℚ⟮ζ⟯ := fun j => zpow_mem (mem_adjoin_simple_self ℚ ζ) j
  refine Bounded.ofBase (x := (ζ ^ k + ζ ^ (-k)) / 2) ?_ ?_ (fun σ => ?_) ?_
  · exact div_mem (add_mem (hmem _) (hmem _)) (ofNat_mem _ 2)
  · have hang : ∀ j : ℤ, ((ζ ^ j : Alg) : ℂ) = Complex.exp (j * (2 * Real.pi * Complex.I / M)) := fun j => by
      rw [Complex.exp_int_mul, ← hζ]; rfl
    have hz : (((ζ ^ k + ζ ^ (-k)) / 2 : Alg) : ℂ) = (((ζ ^ k : Alg) : ℂ) + ((ζ ^ (-k) : Alg) : ℂ)) / 2 := rfl
    rw [hz, hang, hang, hrk, Complex.ofReal_cos, Complex.cos]
    push_cast
    congr 2
    · congr 1; ring
    · congr 1; ring
  · rw [map_div₀, map_add, map_ofNat, norm_div, Complex.norm_ofNat, Nat.cast_one, div_le_one (by norm_num)]
    refine (norm_add_le _ _).trans ?_
    rw [hnorm, hnorm]; norm_num
  · have : ((2 : Nat) : Alg) * ((ζ ^ k + ζ ^ (-k)) / 2) = ζ ^ k + ζ ^ (-k) := by push_cast; field_simp
    rw [this]
    exact (hint _).add (hint _)

/-- Every value is bounded, over the field of the roots of unity its cosines need, by what its expression says. -/
theorem bounded {M : Nat} {ζ : Alg} (hζ : (ζ : ℂ) = Complex.exp (2 * Real.pi * Complex.I / M)) (h1 : ζ ^ M = 1)
    (hM : 0 < M) (a : Value) (ha : cycOrder a ∣ M) :
    Nonempty (Bounded ℚ⟮ζ⟯ a.val₀ (denom a) (conjBound a) (rootCount a)) := by
  induction a with
  | rat q => exact Bounded.rat _ q
  | cosT r => exact Bounded.cos hζ h1 hM ha
  | param k => simpa [denom, conjBound, rootCount] using Bounded.rat ℚ⟮ζ⟯ 0
  | plus a b iha ihb =>
    obtain ⟨B⟩ := iha ((Nat.dvd_lcm_left _ _).trans ha)
    obtain ⟨C⟩ := ihb ((Nat.dvd_lcm_right _ _).trans ha)
    exact B.add C
  | minus a b iha ihb =>
    obtain ⟨B⟩ := iha ((Nat.dvd_lcm_left _ _).trans ha)
    obtain ⟨C⟩ := ihb ((Nat.dvd_lcm_right _ _).trans ha)
    obtain ⟨C'⟩ := C.neg
    rw [val₀, valIn_minus, sub_eq_add_neg]
    exact B.add C'
  | times a b iha ihb =>
    obtain ⟨B⟩ := iha ((Nat.dvd_lcm_left _ _).trans ha)
    obtain ⟨C⟩ := ihb ((Nat.dvd_lcm_right _ _).trans ha)
    exact B.mul C
  | root a ih =>
    obtain ⟨B⟩ := ih ha
    exact B.sqrt

theorem denom_pos (a : Value) : 0 < denom a := by
  induction a with
  | rat q => exact q.pos
  | cosT r => exact Nat.zero_lt_two
  | param k => exact Nat.one_pos
  | plus a b iha ihb => exact Nat.lcm_pos iha ihb
  | minus a b iha ihb => exact Nat.lcm_pos iha ihb
  | times a b iha ihb => exact Nat.mul_pos iha ihb
  | root a ih => exact ih

theorem cycOrder_pos (a : Value) : 0 < cycOrder a := by
  induction a with
  | rat q => exact Nat.one_pos
  | cosT r => exact r.pos
  | param k => exact Nat.one_pos
  | plus a b iha ihb => exact Nat.lcm_pos iha ihb
  | minus a b iha ihb => exact Nat.lcm_pos iha ihb
  | times a b iha ihb => exact Nat.lcm_pos iha ihb
  | root a ih => exact ih

/-- A value other than zero is at least `2^-(sepBits a)` in absolute value. -/
theorem one_le_abs_val_mul (a : Value) (h : a.val₀ ≠ 0) : 1 ≤ |a.val₀| * 2 ^ sepBits a := by
  obtain ⟨ζ, hζ, h1⟩ := exists_zeta (cycOrder_pos a)
  obtain ⟨B⟩ := bounded hζ h1 (cycOrder_pos a) a dvd_rfl
  obtain ⟨f1, g1⟩ := finrank_adjoin_root_le (cycOrder_pos a) h1
  have f2 := B.finite
  have hd := denom_pos a
  set u : Alg := (denom a : Alg) * B.x with hu
  have hux : (u : ℂ) = ((denom a * a.val₀ : ℝ) : ℂ) := by rw [hu]; push_cast; rw [B.coe_eq]
  have hu0 : u ≠ 0 := by
    intro h0
    rw [h0] at hux
    have : (denom a * a.val₀ : ℝ) = 0 := by exact Complex.ofReal_eq_zero.mp hux.symm
    rcases mul_eq_zero.mp this with h' | h'
    · have : denom a = 0 := by exact_mod_cast h'
      omega
    · exact h h'
  have hmem : u ∈ B.F := mul_mem (IntermediateField.natCast_mem B.F (denom a)) B.mem
  have hdeg : (minpoly ℚ u).natDegree ≤ cycOrder a * 2 ^ rootCount a :=
    (natDegree_minpoly_le ℚ⟮ζ⟯ B.F hmem).trans (Nat.mul_le_mul g1 B.degree)
  have hU : ∀ σ : Alg →ₐ[ℚ] ℂ, ‖σ u‖ ≤ 2 ^ ((denom a * conjBound a).log2 + 1) := fun σ => by
    rw [hu, map_mul, map_natCast, norm_mul, Complex.norm_natCast]
    refine (mul_le_mul_of_nonneg_left (B.conj_le σ) (Nat.cast_nonneg _)).trans ?_
    have : denom a * conjBound a < 2 ^ ((denom a * conjBound a).log2 + 1) := Nat.lt_log2_self
    exact_mod_cast this.le
  have key := one_le_norm_mul_pow B.integral hu0 hdeg (one_le_pow₀ (by norm_num)) hU
  rw [← hu, hux, Complex.norm_real, Real.norm_eq_abs, abs_mul, Nat.abs_cast, ← pow_mul] at key
  have hlog : (denom a : ℝ) ≤ 2 ^ ((denom a).log2 + 1) := by
    have : denom a < 2 ^ ((denom a).log2 + 1) := Nat.lt_log2_self
    exact_mod_cast this.le
  refine key.trans ?_
  rw [sepBits, show ∀ x y : Nat, x + y + 1 = (y + 1) + x from fun x y => by omega, pow_add,
    mul_comm (cycOrder a * 2 ^ rootCount a), mul_comm (denom a : ℝ), mul_assoc]
  gcongr

end Sys2Proof.Value
end

