-- ==== Sys2Proof/Laws/Order.lean ====
section
/-! SUPPORT. The order of the exact number system, which the machine decides by approximation, is the order of the real
numbers. -/

namespace Sys2Proof.Value

theorem val_pos_of_approx {a : Value} {p : Nat} (h : 1 < approx a p) : 0 < a.val₀ := by
  have h1 := (abs_le.mp (approx_spec a p)).1
  have h2 : (1 : ℝ) < (approx a p : ℝ) := by exact_mod_cast h
  have : 0 < 2 ^ p * a.val₀ := by linarith
  exact pos_of_mul_pos_right this (by positivity)

theorem val_neg_of_approx {a : Value} {p : Nat} (h : approx a p < -1) : a.val₀ < 0 := by
  have h1 := (abs_le.mp (approx_spec a p)).2
  have h2 : (approx a p : ℝ) < -1 := by exact_mod_cast h
  have : 2 ^ p * a.val₀ < 0 := by linarith
  exact neg_of_mul_neg_right this (by positivity)

theorem one_lt_approx_of_pos {a : Value} (h : 0 < a.val₀) : 1 < approx a (sepBits a + 2) := by
  have h1 := (abs_le.mp (approx_spec a (sepBits a + 2))).2
  have h2 := one_le_abs_val_mul a h.ne'
  rw [abs_of_pos h] at h2
  rw [pow_add] at h1
  have : (1 : ℝ) < (approx a (sepBits a + 2) : ℝ) := by linarith
  exact_mod_cast this

/-- `isPos` decides the sign. -/
theorem isPos_iff (a : Value) : isPos a = true ↔ 0 < a.val₀ := by
  unfold isPos
  dsimp only
  split_ifs with h1 h2 h3 h4
  · simpa using val_pos_of_approx h1
  · simpa using (val_neg_of_approx h2).le
  · simpa using val_pos_of_approx h3
  · simpa using (val_neg_of_approx h4).le
  · rw [decide_eq_true_iff]
    exact ⟨val_pos_of_approx, one_lt_approx_of_pos⟩

/-- `gtAlgebraic` is the order of the real numbers when every named real parameter is zero. -/
theorem gtAlgebraic_iff : IsOrderOf (fun _ => 0) gtAlgebraic := fun a b => by
  unfold gtAlgebraic
  split_ifs with h
  · simp [h]
  · rw [isPos_iff, val₀, valIn_minus, sub_pos]

end Sys2Proof.Value
end

