-- ==== Sys2Proof/Machine/FreeReal.lean ====
section
/-! DEFINITION. The real parameters of a configuration that no expression writes (spec/00_scope.md R6, log 17): their
numbers and order are free, the real number a value denotes, and the order of the exact reals. -/

namespace Sys2Proof

/-- With every named real parameter zero the order is decided: there is such an order. -/
def RealOrder.algebraic : RealOrder := ⟨Value.gtAlgebraic, fun _ => 0, Value.gtAlgebraic_iff⟩

/-- Free value: the order of the real numbers under some choice of the named real parameters. Nothing is known of it but
that it is one; every choice of real numbers has such an order (`exists_isOrderOf`). -/
opaque Config.freeOrder [Inhabited RealOrder] : RealOrder

/-- The order of the exact reals on values that hold a named real parameter. -/
def Config.realOrder : RealOrder := @Config.freeOrder ⟨RealOrder.algebraic⟩

/-- Free values: the real numbers that the named real parameters `Value.param k` stand for (R6). -/
noncomputable def Config.realParam : Nat → ℝ := Classical.choose Config.realOrder.2

namespace Value

/-- The real number a value denotes. -/
noncomputable def val (a : Value) : ℝ := a.valIn Config.realParam

/-- The order of the exact reals (`gt` of R8): decided on values without a named real parameter. -/
def gt : Value → Value → Bool
  | .rat p, .rat q => decide (q < p)
  | a, b =>
    if a = b then false
    else if a.closed && b.closed then isPos (.minus a b)
    else Config.realOrder.1 a b

end Value

end Sys2Proof
end

