-- ==== Sys2Proof/Machine/Store.lean ====
section
/-! DEFINITION. The index-addressed storage spaces (spec/20_memory.md R60): a list of (index, element) pairs in one
canonical form, indices strictly rising and no entry equal to what an unlisted index reads as (log 12). -/

namespace Sys2Proof

/-- A storage space holding elements of type `α`. -/
abbrev Store (α : Type) := List (Nat × α)

/-- `MemRead(space, i)` (spec/00_scope.md R12): the whole element at `i`; `z` is what an unlisted index reads as. -/
def Store.read {α : Type} (z : α) : Store α → Nat → α
  | [], _ => z
  | (j, v) :: m, i => if i = j then v else Store.read z m i

/-- The space with nothing listed at `i`. -/
def Store.erase {α : Type} (m : Store α) (i : Nat) : Store α := m.filter fun e => decide (e.1 ≠ i)

/-- The space with `v` listed at `i`, in its place among the rising indices. -/
def Store.insert {α : Type} : Store α → Nat → α → Store α
  | [], i, v => [(i, v)]
  | (j, w) :: m, i, v =>
    if i < j then (i, v) :: (j, w) :: m
    else if i = j then (i, v) :: m
    else (j, w) :: Store.insert m i v

/-- `MemWrite(space, i, v)` (R12): replaces the whole element at `i`, keeping the canonical form. -/
def Store.write {α : Type} [DecidableEq α] (z : α) (m : Store α) (i : Nat) (v : α) : Store α :=
  if v = z then m.erase i else m.insert i v

/-- The space of `n` elements whose element `i` is `f i`. -/
def Store.ofFn {α : Type} [DecidableEq α] (z : α) (n : Nat) (f : Nat → α) : Store α :=
  (List.range n).filterMap fun i => let v := f i; if v = z then none else some (i, v)

/-- The canonical form: every index below `n`, no listed element equal to `z`, indices strictly rising. -/
def Store.wf {α : Type} [DecidableEq α] (z : α) (n : Nat) : Store α → Bool
  | [] => true
  | (j, v) :: m => decide (j < n) && decide (v ≠ z) && m.all (fun e => decide (j < e.1)) && Store.wf z n m

end Sys2Proof
end

