-- ==== Sys2Proof/Machine/Num.lean ====
section
/-! DEFINITION. The number system of the analyzer (spec/00_scope.md R8, R11): exact real arithmetic on `Value` and the
operations of the parameter NUM. The exact operations fold rational operands, so that every result that
is built from rationals by `+ - × /` is one rational number. -/

namespace Sys2Proof

namespace Value

/-- A natural number as a value (`ofRaw` of R8). -/
def ofNat (n : Nat) : Value := .rat (n : Rat)

/-- Exact addition. -/
def add : Value → Value → Value
  | .rat p, .rat q => .rat (p + q)
  | .rat p, b => if p = 0 then b else .plus (.rat p) b
  | a, .rat q => if q = 0 then a else .plus a (.rat q)
  | a, b => .plus a b

/-- Exact subtraction. -/
def sub : Value → Value → Value
  | .rat p, .rat q => .rat (p - q)
  | a, .rat q => if q = 0 then a else .minus a (.rat q)
  | a, b => .minus a b

/-- Exact multiplication. -/
def mul : Value → Value → Value
  | .rat p, .rat q => .rat (p * q)
  | .rat p, b => if p = 0 then .rat 0 else if p = 1 then b else .times (.rat p) b
  | a, .rat q => if q = 0 then .rat 0 else if q = 1 then a else .times a (.rat q)
  | a, b => .times a b

/-- Exact division by a natural number; the rules divide by `ADC_MAX` and by `N` only (R120, R141). -/
def divNat (a : Value) (n : Nat) : Value := mul a (.rat (1 / (n : Rat)))

/-- Exact square root; 0 for a negative operand, which no rule produces (log 4). -/
def sqrt : Value → Value
  | .rat q =>
    if q ≤ 0 then .rat 0
    else
      let a := isqrt q.num.natAbs
      let b := isqrt q.den
      if a * a = q.num.natAbs ∧ b * b = q.den then .rat ((a : Rat) / (b : Rat)) else .root (.rat q)
  | a => .root a

/-- The angle of `r` turns brought to `0 .. 1/2` turn by the period and the evenness of the cosine. -/
def foldTurn (r : Rat) : Rat :=
  let f := r - (r.floor : Rat)
  if 1 / 2 < f then 1 - f else f

/-- `cos(2π·r)` exactly; the angles whose cosine is rational give that rational. -/
def cos (r : Rat) : Value :=
  let t := foldTurn r
  if t = 0 then .rat 1
  else if t = 1 / 6 then .rat (1 / 2)
  else if t = 1 / 4 then .rat 0
  else if t = 1 / 3 then .rat (-1 / 2)
  else if t = 1 / 2 then .rat (-1)
  else .cosT t

/-- `sin(2π·r) = cos(2π·(r - 1/4))` exactly. -/
def sin (r : Rat) : Value := cos (r - 1 / 4)

end Value

/-! ### The operations of NUM -/

namespace NumSys

/-- `ofRaw` (R8). -/
def ofNat : NumSys → Nat → Value
  | .exact, n => Value.ofNat n
  | .finite id, n => Config.finOfNat id n

/-- `add` (R8). -/
def add : NumSys → Value → Value → Value
  | .exact, a, b => Value.add a b
  | .finite id, a, b => Config.finAdd id a b

/-- `sub` (R8). -/
def sub : NumSys → Value → Value → Value
  | .exact, a, b => Value.sub a b
  | .finite id, a, b => Config.finSub id a b

/-- `mul` (R8). -/
def mul : NumSys → Value → Value → Value
  | .exact, a, b => Value.mul a b
  | .finite id, a, b => Config.finMul id a b

/-- `div` (R8), by a natural number. -/
def divNat : NumSys → Value → Nat → Value
  | .exact, a, n => Value.divNat a n
  | .finite id, a, n => Config.finDiv id a (Config.finOfNat id n)

/-- `sqrt` (R8). -/
def sqrt : NumSys → Value → Value
  | .exact, a => Value.sqrt a
  | .finite id, a => Config.finSqrt id a

/-- `cos` (R8) of `2π·r`. -/
def cos : NumSys → Rat → Value
  | .exact, r => Value.cos r
  | .finite id, r => Config.finCos id r

/-- The sine of `2π·r`, which R143 uses beside the cosine. -/
def sin : NumSys → Rat → Value
  | .exact, r => Value.sin r
  | .finite id, r => Config.finSin id r

/-- `gt` (R8). -/
def gt : NumSys → Value → Value → Bool
  | .exact, a, b => Value.gt a b
  | .finite id, a, b => Config.finGt id a b

/-- `Σ_{i=lo}^{hi-1} f i`: ascending from zero (R11). -/
def sum (ns : NumSys) (lo hi : Nat) (f : Nat → Value) : Value :=
  (List.range' lo (hi - lo)).foldl (fun acc i => ns.add acc (f i)) Value.zero

end NumSys

end Sys2Proof
end

