-- ==== Sys2Proof/Machine/RefCfg.lean ====
section
/-! DEFINITION. The reference configuration REFCFG (spec/00_scope.md R6, spec/30_encoding.md R104, R105). -/

namespace Sys2Proof

/-- The reference window coefficient `0.54 - 0.46·cos(2πi/(N-1))` (spec/41_analyzer.md R142). -/
def hammingCoef (n i : Nat) : Value :=
  Value.sub (.rat (27 / 50)) (Value.mul (.rat (23 / 50)) (Value.cos ((i : Rat) / ((n : Rat) - 1))))

/-- The reference window of `n` coefficients. -/
def hammingWindow (n : Nat) : List Value := (List.range n).map (hammingCoef n)

/-- The reference NOTE_TABLE (R104). -/
def refNoteTable : List NoteRow :=
  [⟨0, 1050, 1060⟩, ⟨1, 1167, 1177⟩, ⟨2, 1323, 1333⟩, ⟨3, 1401, 1411⟩, ⟨4, 1558, 1568⟩, ⟨5, 1753, 1763⟩]

/-- A melody step that is a note symbol. -/
def MelodyStep.note (sym : Nat) : MelodyStep := ⟨false, sym⟩

/-- The REST sentinel (R94). -/
def MelodyStep.restStep : MelodyStep := ⟨true, 0⟩

/-- The reference MELODY (R105). -/
def refMelody : List MelodyStep :=
  [.note 0, .note 0, .note 4, .note 4, .note 5, .note 5, .note 4, .restStep,
   .note 3, .note 3, .note 2, .note 2, .note 1, .note 1, .note 0, .restStep]

/-- REFCFG (R6). -/
def refCfg : Config where
  n := 256
  fs := 5000
  adcW := 12
  adcMax := 4095
  calScale := .rat (18 / 5)
  calOffset := .rat (283 / 2500)
  num := .exact
  hamming := hammingWindow 256
  noteTable := refNoteTable
  melody := refMelody
  stepDuration := 1000
  speedFwd0 := 100
  speedFwd1 := 78
  speedNeutral := 90
  symW := 4
  freqW := 16
  timeW := 32
  cmdW := 8
  fsW := 16

end Sys2Proof
end

