-- ==== Sys2Proof/Machine/State.lean ====
section
/-! DEFINITION. The state of the block (spec/10_state.md), its reasons to stop, and the state after reset. -/

namespace Sys2Proof.Machine

/-- Reasons a meaning faults. The block itself raises no exception (spec/60_exceptions.md R240); both arise only in
states no run reaches (log 11). -/
inductive Fault where
  /-- SAMPLE or BANKFLIP with `pos` not below `N`: the element does not exist (spec/20_memory.md R60, R67). Safe. -/
  | bankIndex
  /-- SEQ_WAIT with `step_idx` not below `L`: the word does not exist (R60, R67). Safe. -/
  | melodyIndex
deriving DecidableEq, Repr

/-- Reasons a step is refused. -/
inductive Refusal where
  /-- An operation the model gives no meaning: raised by no arm of `exec`. Safe. -/
  | notModelled (mnemonic : String)
  /-- `ph = 15`: raised by `step` (spec/30_encoding.md R100, spec/93_implementation_defined.md U6; log 20). Safe. -/
  | reservedPhase
  /-- A tick arrives while one is pending: raised by `step` (spec/60_exceptions.md R244, U4; log 6). Safe. -/
  | tickOverrun
  /-- A select word with `tick = 0`, which selects nothing: `step` never meets one (R98; log 20). Safe. -/
  | nothingSelected
deriving DecidableEq, Repr

/-- Everything the spec gives the block (R20 to R42), and the model's own fields `cfg` (log 1), `port`, `inputs` and
`envCount` (log 5). Widths are bounds of `State.Inv` (log 13). -/
structure State where
  /-- CFG, the same at every step (R5, R78) -/
  cfg : Config
  /-- bank 0 of the sample store (R22) -/
  bank0 : Store Smp
  /-- bank 1 of the sample store (R22) -/
  bank1 : Store Smp
  /-- the bank being filled (R23) -/
  fill : Fin 2
  /-- the next free position in the filling bank (R24) -/
  pos : Nat
  /-- a block has been completed since the last COPY (R25) -/
  ready : Bool
  /-- the phase register (R30) -/
  ph : PhaseWord
  /-- the stable bank latched by the most recent COPY (R31) -/
  sb : Fin 2
  /-- real part of the working buffer; after MAG its first `N/2` elements are the Spectrum (R32) -/
  workRe : Store Value
  /-- imaginary part of the working buffer (R32) -/
  workIm : Store Value
  /-- the dominant bin (R33) -/
  peakBin : Nat
  /-- its magnitude (R33) -/
  peakMag : Value
  /-- `peak_bin × FS` (R34) -/
  domFreqNum : Nat
  /-- the classifier's result (R35) -/
  cls : Cls
  /-- the current melody step (R36) -/
  stepIdx : Nat
  /-- 0 is WaitingForNote, 1 is Playing (R37) -/
  playing : Bool
  /-- the step-start timestamp (R38) -/
  startTime : Nat
  /-- the last command sent to drive unit 0 (R40) -/
  cmd0 : Nat
  /-- the last command sent to drive unit 1 (R40) -/
  cmd1 : Nat
  /-- the output events, oldest first (R41) -/
  outHist : List Event
  /-- a tick has been requested and not yet served (R42) -/
  tickPending : Bool
  /-- what the input ports present during the current step (spec/60_exceptions.md R255) -/
  port : EnvInput
  /-- what the environment will present at the coming steps, the next first -/
  inputs : List EnvInput
  /-- how many steps have drawn on the environment -/
  envCount : Nat
deriving DecidableEq, Repr

/-- The state after reset under a configuration (R47). The registers R47 leaves unspecified hold zero (log 7). -/
def State.resetOf (c : Config) : State where
  cfg := c
  bank0 := []
  bank1 := []
  fill := 0
  pos := 0
  ready := false
  ph := 0
  sb := 0
  workRe := []
  workIm := []
  peakBin := 0
  peakMag := .zero
  domFreqNum := 0
  cls := ⟨false, 0⟩
  stepIdx := 0
  playing := false
  startTime := 0
  cmd0 := c.speedNeutral
  cmd1 := c.speedNeutral
  outHist := []
  tickPending := false
  port := ⟨false, false, 0, 0⟩
  inputs := []
  envCount := 0

/-- The machine right after reset, under REFCFG (R6, R47). -/
def State.reset : State := State.resetOf refCfg

end Sys2Proof.Machine
end

