-- ==== Sys2Proof/Machine/Ops.lean ====
section
/-! DEFINITION. The named operations over the storage spaces, the registers, the environment and the output history,
and serving the block's one interrupt, the sample tick. -/

namespace Sys2Proof.Machine

/-- The answer of a meaning or a step. -/
abbrev Answer := Host.Outcome State Fault Refusal

namespace State

/-! ### Storage spaces (spec/20_memory.md R60) -/

/-- The store of bank `b`. -/
def bank (s : State) (b : Fin 2) : Store Smp := if b = 0 then s.bank0 else s.bank1

/-- `MemRead(BANK, (b, i))` (R61). -/
def readBank (s : State) (b : Fin 2) (i : Nat) : Smp := Store.read Smp.zero (s.bank b) i

/-- `MemWrite(BANK, (b, i), v)` (R61). -/
def writeBank (s : State) (b : Fin 2) (i : Nat) (v : Smp) : State :=
  if b = 0 then { s with bank0 := Store.write Smp.zero s.bank0 i v }
  else { s with bank1 := Store.write Smp.zero s.bank1 i v }

/-- `work_re[i]` (R62). -/
def readRe (s : State) (i : Nat) : Value := Store.read Value.zero s.workRe i

/-- `work_im[i]` (R62). -/
def readIm (s : State) (i : Nat) : Value := Store.read Value.zero s.workIm i

/-- `work_re[i] <- f i` for every `i` in `0 .. N-1`. -/
def fillRe (s : State) (f : Nat → Value) : State := { s with workRe := Store.ofFn Value.zero s.cfg.n f }

/-- `work_im[i] <- f i` for every `i` in `0 .. N-1`. -/
def fillIm (s : State) (f : Nat → Value) : State := { s with workIm := Store.ofFn Value.zero s.cfg.n f }

/-- The Spectrum: `work_re[0 .. N/2-1]` (spec/10_state.md R32, R44). -/
def spectrum (s : State) : List Value := (List.range (s.cfg.n / 2)).map s.readRe

/-- `MemRead(MEL, step_idx)` (R64); none when there is no such word. -/
def melodyStep (s : State) : Option MelodyStep := s.cfg.melody[s.stepIdx]?

/-! ### Registers -/

/-- `ph <- p`: the analogue of writing the program counter (spec/00_scope.md R12). -/
def goto (s : State) (p : PhaseWord) : State := { s with ph := p }

/-- `sb <- b` (spec/10_state.md R31). -/
def latchBank (s : State) (b : Fin 2) : State := { s with sb := b }

/-- `peak_bin <- b ; peak_mag <- m` (R33). -/
def recordPeak (s : State) (b : Nat) (m : Value) : State := { s with peakBin := b, peakMag := m }

/-- `dom_freq_num <- f` (R34). -/
def recordFreq (s : State) (f : Nat) : State := { s with domFreqNum := f }

/-- `cls <- c` (R35). -/
def recordCls (s : State) (c : Cls) : State := { s with cls := c }

/-- `cmd[u]` (spec/10_state.md R40). -/
def cmd (s : State) (u : Fin 2) : Nat := if u = 0 then s.cmd0 else s.cmd1

/-! ### Environment and output (spec/00_scope.md R13) -/

/-- `draw_adc()`: the reading at the `ADC_W`-bit port `adc_raw`. -/
def drawAdc (s : State) : Nat := s.port.raw % 2 ^ s.cfg.adcW

/-- `read_now()`: the count at the `TIME_W`-bit port `now_ms`. -/
def readNow (s : State) : Nat := s.port.now % 2 ^ s.cfg.timeW

/-- `emit e`: appends to the output history. -/
def emit (s : State) (e : Event) : State := { s with outHist := s.outHist ++ [e] }

/-- `cmd[u] <- v ; emit CmdWrite(u, v)` (spec/44_actuator.md R200, R201). -/
def writeCmd (s : State) (u : Fin 2) (v : Nat) : State :=
  (if u = 0 then { s with cmd0 := v } else { s with cmd1 := v }).emit (.cmdWrite u v)

/-- The environment moves on by one step: the next entry of `inputs`, or a free one when there is none, is at the
ports (log 5). -/
def present (s : State) : State :=
  { s with
    port := match s.inputs with | e :: _ => e | [] => Config.freeInput s.envCount
    inputs := s.inputs.tail
    envCount := s.envCount + 1 }

/-- `rst`: every piece of state takes its reset value, whatever it held; the configuration and the environment stay
(spec/70_reset_and_hazards.md R270). -/
def applyReset (s : State) : State :=
  { State.resetOf s.cfg with port := s.port, inputs := s.inputs, envCount := s.envCount }

/-! ### The sample interrupt (spec/60_exceptions.md R242 to R247)

The block has no exception to take (R240). Its one interrupt saves nothing, changes no mode and has no vector and no
return operation (R246, R247): a tick sets `tick_pending`, and the start of the SAMPLE that serves it clears it. -/

/-- A tick is requested: sets the pending bit (R244). -/
def requestTick (s : State) : State := { s with tickPending := true }

/-- The start of SAMPLE clears the pending bit (R244). -/
def serveTick (s : State) : State := { s with tickPending := false }

/-- `last` of the select word: `pos = N-1` (spec/30_encoding.md R98). -/
def lastPos (s : State) : Bool := decide (s.pos = s.cfg.n - 1)

/-- The select word `{tick, last}` of the Sampler (R98). -/
def tselWord (s : State) : TselWord := BitVec.ofNat 2 (2 * s.tickPending.toNat + s.lastPos.toNat)

end State

end Sys2Proof.Machine
end

