-- ==== Sys2Proof/Machine/Flags.lean ====
section
/-! DEFINITION. The one-bit status values and what sets and clears each (spec/10_state.md R45). No arithmetic operation
sets a carry, overflow, zero or sign flag: there are none. -/

namespace Sys2Proof.Machine.State

/-- `ready <- 1`, whatever it was: set, not inverted (R25, spec/90_conflicts.md C1). Only BANKFLIP does this. -/
def setReady (s : State) : State := { s with ready := true }

/-- `ready <- 0`. Only COPY and reset do this (R25). -/
def clearReady (s : State) : State := { s with ready := false }

/-- `fill <- 1 - fill` (R23). Only BANKFLIP does this. -/
def flipFill (s : State) : State := { s with fill := 1 - s.fill }

/-- `playing <- 1` (R37). Only SEQ_WAIT on a hit does this. -/
def setPlaying (s : State) : State := { s with playing := true }

/-- `playing <- 0` (R37). Only STOP and reset do this. -/
def clearPlaying (s : State) : State := { s with playing := false }

end Sys2Proof.Machine.State
end

