-- ==== Sys2Proof/Machine/Operands.lean ====
section
/-! DEFINITION. How operands are assembled (spec/30_encoding.md R99) and how the words of registers and tables are
written as numbers (R90 to R96). -/

namespace Sys2Proof

/-! ### Word formats -/

/-- The CLS word `{nomatch, sym}` (R93). -/
def Cls.toWord (symW : Nat) (c : Cls) : Nat := c.noMatch.toNat * 2 ^ symW + c.sym

/-- Reading a CLS word (R93). -/
def Cls.ofWord (symW w : Nat) : Cls := ⟨decide (w / 2 ^ symW % 2 = 1), w % 2 ^ symW⟩

/-- The MST word `{rest, sym}` (R94). -/
def MelodyStep.toWord (symW : Nat) (m : MelodyStep) : Nat := m.rest.toNat * 2 ^ symW + m.sym

/-- Reading an MST word (R94). -/
def MelodyStep.ofWord (symW w : Nat) : MelodyStep := ⟨decide (w / 2 ^ symW % 2 = 1), w % 2 ^ symW⟩

/-- The NRG word `{sym, fmin, fmax}` (R95). -/
def NoteRow.toWord (freqW : Nat) (r : NoteRow) : Nat := (r.sym * 2 ^ freqW + r.fmin) * 2 ^ freqW + r.fmax

/-- Reading an NRG word (R95). -/
def NoteRow.ofWord (symW freqW w : Nat) : NoteRow :=
  ⟨w / 2 ^ (2 * freqW) % 2 ^ symW, w / 2 ^ freqW % 2 ^ freqW, w % 2 ^ freqW⟩

/-! ### Operand assembly (R99) -/

/-- (a) The calibration `((r / ADC_MAX) × CAL_SCALE) + CAL_OFFSET`, left to right, not clamped
(spec/40_sampler.md R120, R122). -/
def Config.calibrate (c : Config) (r : Nat) : Value :=
  c.num.add (c.num.mul (c.num.divNat (c.num.ofNat r) c.adcMax) c.calScale) c.calOffset

/-- (b) The numerator of the dominant frequency, `peak_bin × FS`, exact (spec/42_classifier.md R161). -/
def Config.freqNum (c : Config) (peakBin : Nat) : Nat := peakBin * c.fs

/-- (c) The range test `fmin × N <= f` and `f <= fmax × N` (R162). -/
def Config.inRange (c : Config) (f : Nat) (r : NoteRow) : Bool :=
  decide (r.fmin * c.n ≤ f) && decide (f ≤ r.fmax * c.n)

/-- The classification of a dominant frequency: the first row, in table order, whose range contains it; otherwise
NoMatch with symbol 0 (R162, spec/30_encoding.md R93). -/
def Config.classify (c : Config) (f : Nat) : Cls :=
  match c.noteTable.find? (c.inRange f) with
  | some r => ⟨false, r.sym⟩
  | none => ⟨true, 0⟩

/-- (d) `(now - start_time) mod 2^TIME_W` (spec/43_sequencer.md R183, R184). -/
def Config.elapsed (c : Config) (now start : Nat) : Nat := (now + (2 ^ c.timeW - start % 2 ^ c.timeW)) % 2 ^ c.timeW

/-- (e) `(step_idx + 1) mod L` by compare and reset (R180). -/
def Config.nextStep (c : Config) (i : Nat) : Nat := if i < c.l - 1 then i + 1 else 0

/-- (f) `pos + 1` if `pos < N - 1`, else 0 (R120). -/
def Config.nextPos (c : Config) (p : Nat) : Nat := if p < c.n - 1 then p + 1 else 0

/-- Coefficient `h_i` of the window (spec/41_analyzer.md R142). -/
def Config.window (c : Config) (i : Nat) : Value := c.hamming.getD i Value.zero

/-- Does a classifier result match a melody step (spec/43_sequencer.md R180, R181)? -/
def MelodyStep.hit (m : MelodyStep) (c : Cls) : Bool := m.rest || (!c.noMatch && decide (c.sym = m.sym))

end Sys2Proof
end

