-- ==== Sys2Proof/Machine/Actuator.lean ====
section
/-! DEFINITION. The ActuatorController: DRIVE and STOP (spec/44_actuator.md). -/

namespace Sys2Proof.Machine

/-- DRIVE (R200): the forward command to unit 0, then to unit 1. -/
def execDrive (s : State) : Answer :=
  .next (((s.writeCmd 0 s.cfg.speedFwd0).writeCmd 1 s.cfg.speedFwd1).goto 13)

/-- STOP (R201): the neutral command to unit 0, then to unit 1, and the return to WaitingForNote, in one step. -/
def execStop (s : State) : Answer :=
  .next ((((s.writeCmd 0 s.cfg.speedNeutral).writeCmd 1 s.cfg.speedNeutral).clearPlaying).goto 0)

end Sys2Proof.Machine
end

