-- ==== Sys2Proof/Machine/Analyzer.lean ====
section
/-! DEFINITION. The SpectrumAnalyzer: COPY, DCREM, WINDOW, FFT, MAG (spec/41_analyzer.md). -/

namespace Sys2Proof.Machine

/-- COPY (R140): clears `ready`, latches `sb <- 1 - fill` and copies that bank, in one indivisible step. -/
def execCopy (s : State) : Answer :=
  .next ((((s.clearReady.latchBank (1 - s.fill)).fillRe fun i => (s.readBank (1 - s.fill) i).re).fillIm
    fun i => (s.readBank (1 - s.fill) i).im).goto 3)

/-- The mean DCREM subtracts: the sum over `1 .. N-1`, divided by `N` (R141, spec/90_conflicts.md C2). -/
def State.dcMean (s : State) : Value := s.cfg.num.divNat (s.cfg.num.sum 1 s.cfg.n s.readRe) s.cfg.n

/-- DCREM (R141): subtracts the mean from elements `1 .. N-1`; element 0 stays. -/
def execDcrem (s : State) : Answer :=
  .next ((s.fillRe fun i => if i = 0 then s.readRe 0 else s.cfg.num.sub (s.readRe i) s.dcMean).goto 4)

/-- WINDOW (R142): multiplies the real component by the window. -/
def execWindow (s : State) : Answer :=
  .next ((s.fillRe fun i => s.cfg.num.mul (s.readRe i) (s.cfg.window i)).goto 5)

/-- The angle `kn/N` in turns. -/
def State.twiddleTurn (s : State) (k n : Nat) : Rat := ((k * n : Nat) : Rat) / (s.cfg.n : Rat)

/-- `Re X_k`: the sum of `re·cos + im·sin` (R143). -/
def State.dftRe (s : State) (k : Nat) : Value :=
  s.cfg.num.sum 0 s.cfg.n fun n =>
    s.cfg.num.add (s.cfg.num.mul (s.readRe n) (s.cfg.num.cos (s.twiddleTurn k n)))
      (s.cfg.num.mul (s.readIm n) (s.cfg.num.sin (s.twiddleTurn k n)))

/-- `Im X_k`: the sum of `im·cos - re·sin` (R143). -/
def State.dftIm (s : State) (k : Nat) : Value :=
  s.cfg.num.sum 0 s.cfg.n fun n =>
    s.cfg.num.sub (s.cfg.num.mul (s.readIm n) (s.cfg.num.cos (s.twiddleTurn k n)))
      (s.cfg.num.mul (s.readRe n) (s.cfg.num.sin (s.twiddleTurn k n)))

/-- FFT (R143): the forward transform, unscaled; both components are computed from the values before it. -/
def execFft (s : State) : Answer := .next (((s.fillRe s.dftRe).fillIm s.dftIm).goto 6)

/-- The magnitude of element `k` (R144). -/
def State.magnitude (s : State) (k : Nat) : Value :=
  s.cfg.num.sqrt (s.cfg.num.add (s.cfg.num.mul (s.readRe k) (s.readRe k)) (s.cfg.num.mul (s.readIm k) (s.readIm k)))

/-- MAG (R144): all `N` magnitudes in place; `work_im` stays. -/
def execMag (s : State) : Answer := .next ((s.fillRe s.magnitude).goto 7)

end Sys2Proof.Machine
end

