-- ==== Sys2Proof/Machine/Classifier.lean ====
section
/-! DEFINITION. The NoteClassifier: PEAK, FREQ, LOOKUP (spec/42_classifier.md). -/

namespace Sys2Proof.Machine

/-- The candidate `(b, m)` of the peak search after looking at bin `i`: strictly greater replaces it (R160). -/
def State.peakStep (s : State) (c : Nat × Value) (i : Nat) : Nat × Value :=
  if s.cfg.num.gt (s.readRe i) c.2 then (i, s.readRe i) else c

/-- The peak search: from bin 1 over bins `2 .. N/2-1` in ascending order (R160). -/
def State.peakSearch (s : State) : Nat × Value :=
  (List.range' 2 (s.cfg.n / 2 - 2)).foldl s.peakStep (1, s.readRe 1)

/-- PEAK (R160). -/
def execPeak (s : State) : Answer :=
  .next ((s.recordPeak s.peakSearch.1 s.peakSearch.2).goto 8)

/-- FREQ (R161). -/
def execFreq (s : State) : Answer := .next ((s.recordFreq (s.cfg.freqNum s.peakBin)).goto 9)

/-- LOOKUP (R162). -/
def execLookup (s : State) : Answer := .next ((s.recordCls (s.cfg.classify s.domFreqNum)).goto 10)

end Sys2Proof.Machine
end

