-- ==== Sys2Proof/Machine/Loop.lean ====
section
/-! DEFINITION. The loop controller: DISPATCH, ACQUIRE, EMIT (spec/45_mainloop.md). -/

namespace Sys2Proof.Machine

/-- DISPATCH (R215): the playing path or the detection path. -/
def execDispatch (s : State) : Answer := .next (s.goto (if s.playing then 12 else 1))

/-- ACQUIRE (R216): goes on when a block is ready, otherwise repeats itself; it does not clear the flag. -/
def execAcquire (s : State) : Answer := .next (s.goto (if s.ready then 2 else 1))

/-- EMIT (R222): one side-output event for the pass. -/
def execEmit (s : State) : Answer :=
  .next ((s.emit (.diag s.spectrum s.peakMag s.peakBin s.domFreqNum)).goto 11)

end Sys2Proof.Machine
end

