-- ==== Sys2Proof/Machine/Sampler.lean ====
section
/-! DEFINITION. The Sampler: SAMPLE and BANKFLIP (spec/40_sampler.md). -/

namespace Sys2Proof.Machine

/-- The head of SAMPLE: the tick is served, one reading is drawn, calibrated and stored with a zero imaginary part at
`(fill, pos)` (R120). -/
def State.captureSample (s : State) : State :=
  (s.serveTick).writeBank s.fill s.pos ⟨s.cfg.calibrate s.drawAdc, Value.zero⟩

/-- The tail of the SAMPLE that fills the bank: `pos <- 0 ; fill <- 1 - fill ; ready <- 1` (R121). -/
def State.flipBanks (s : State) : State := ({ s with pos := 0 } : State).flipFill.setReady

/-- The tail of every other SAMPLE: `pos <- pos + 1` (R120). -/
def State.advancePos (s : State) : State := { s with pos := s.cfg.nextPos s.pos }

/-- SAMPLE (R120): store one sample; if it fills the bank, BANKFLIP in the same step. -/
def execSample (s : State) : Answer :=
  if s.pos < s.cfg.n then
    .next (if s.lastPos then s.captureSample.flipBanks else s.captureSample.advancePos)
  else .fault .bankIndex

/-- BANKFLIP (R121), select word `11`: SAMPLE and BANKFLIP as one indivisible operation (spec/30_encoding.md R98;
log 9). -/
def execBankflip (s : State) : Answer :=
  if s.pos < s.cfg.n then .next s.captureSample.flipBanks else .fault .bankIndex

end Sys2Proof.Machine
end

