-- ==== Sys2Proof/Machine/Sequencer.lean ====
section
/-! DEFINITION. The SequencePlayer: SEQ_WAIT and PLAY_CHECK (spec/43_sequencer.md). -/

namespace Sys2Proof.Machine

/-- Entering Playing: records the time, advances the step, sets `playing` (R180). -/
def State.enterPlaying (s : State) : State :=
  ({ s with startTime := s.readNow, stepIdx := s.cfg.nextStep s.stepIdx } : State).setPlaying

/-- SEQ_WAIT (R180): the evaluation in WaitingForNote. The time is read on a hit only. -/
def execSeqWait (s : State) : Answer :=
  match s.melodyStep with
  | some m => .next ((if m.hit s.cls then s.enterPlaying else s).goto 0)
  | none => .fault .melodyIndex

/-- Has the step lasted long enough (R183)? -/
def State.stepOver (s : State) : Bool := decide (s.cfg.stepDuration ≤ s.cfg.elapsed s.readNow s.startTime)

/-- PLAY_CHECK (R183): the evaluation in Playing. -/
def execPlayCheck (s : State) : Answer := .next (s.goto (if s.stepOver then 14 else 0))

end Sys2Proof.Machine
end

