-- ==== Sys2Proof/Machine/Dispatch.lean ====
section
/-! DEFINITION. One arm per operation. -/

namespace Sys2Proof.Machine

def exec (i : Instr) (s : State) : Host.Outcome State Fault Refusal :=
  match i with
  | .sample => Sys2Proof.Machine.execSample s
  | .bankflip => Sys2Proof.Machine.execBankflip s
  | .dispatch => Sys2Proof.Machine.execDispatch s
  | .acquire => Sys2Proof.Machine.execAcquire s
  | .copy => Sys2Proof.Machine.execCopy s
  | .dcrem => Sys2Proof.Machine.execDcrem s
  | .window => Sys2Proof.Machine.execWindow s
  | .fft => Sys2Proof.Machine.execFft s
  | .mag => Sys2Proof.Machine.execMag s
  | .peak => Sys2Proof.Machine.execPeak s
  | .freq => Sys2Proof.Machine.execFreq s
  | .lookup => Sys2Proof.Machine.execLookup s
  | .emit => Sys2Proof.Machine.execEmit s
  | .seqWait => Sys2Proof.Machine.execSeqWait s
  | .drive => Sys2Proof.Machine.execDrive s
  | .playCheck => Sys2Proof.Machine.execPlayCheck s
  | .stop => Sys2Proof.Machine.execStop s

end Sys2Proof.Machine
end

