-- ==== Sys2Proof/Machine/Fetch.lean ====
section
/-! DEFINITION. What the next step performs: the Sampler's operation when a tick is served, otherwise the operation the
phase register names (spec/30_encoding.md R97, R98; spec/45_mainloop.md R227, R228). -/

namespace Sys2Proof.Machine

/-- Why a word that selects no operation refuses the step. -/
def refuseWord : DecodeReject → Refusal
  | .noTick => .nothingSelected
  | .reservedPhase => .reservedPhase
  | .tooWide => .reservedPhase

/-- Performs the operation a decoded word selects. -/
def perform (d : Except DecodeReject Instr) (s : State) : Answer :=
  match d with
  | .ok i => exec i s
  | .error r => .refused (refuseWord r)

/-- The Sampler's step: the operation selected by `{tick, last}` (R98). -/
def samplerStep (s : State) : Answer := perform (decodeTsel s.tselWord) s

/-- The loop controller's step: the operation whose code is `ph` (R30, R97). -/
def loopStep (s : State) : Answer := perform (decodePh s.ph) s

/-- One step once the environment's entry is at the ports: reset has priority, whatever the state holds
(spec/70_reset_and_hazards.md R270); a state with `ph = 15` is refused, tick or not (R100,
spec/93_implementation_defined.md U6; log 20); a second tick while one is pending is outside the spec (spec/60_exceptions.md
R244, U4); a tick, or one pending, is served before the loop controller's next operation (R228); otherwise the loop
controller moves. -/
def portStep (s : State) : Answer :=
  if s.port.rst then .next s.applyReset
  else if s.ph = 15 then .refused .reservedPhase
  else if s.port.tick then (if s.tickPending then .refused .tickOverrun else samplerStep s.requestTick)
  else if s.tickPending then samplerStep s
  else loopStep s

/-- The environment entry under which the next step serves a tick, or does not, and is no reset. -/
def forcedInput (tick : Bool) (e : EnvInput) : EnvInput := { e with rst := false, tick := tick }

/-- The entry the next step would see, if `inputs` holds one. -/
def State.headInput (s : State) : EnvInput := s.inputs.headD ⟨false, false, 0, 0⟩

/-- The state whose very next step performs the operation that word `w` of a format selects: the entry at the head of
`inputs` serves a tick or not, and `pos` or `ph` is what selects the operation; a tick is served in any phase but the
reserved one (log 10, 15). -/
def State.select (s : State) (f : Format) (w : Nat) : State :=
  match f with
  | .tsel =>
    { s with
      inputs := forcedInput (decide (w / 2 % 2 = 1)) s.headInput :: s.inputs.tail
      tickPending := false
      ph := if s.ph = 15 then 0 else s.ph
      pos := if w % 2 = 1 then s.cfg.n - 1 else if s.pos = s.cfg.n - 1 then 0 else s.pos }
  | .ph =>
    { s with
      inputs := forcedInput false s.headInput :: s.inputs.tail
      tickPending := false
      ph := BitVec.ofNat 4 w }

end Sys2Proof.Machine
end

