-- ==== Sys2Proof/Machine/Step.lean ====
section
/-! DEFINITION. One step of the machine: the environment presents its next entry, and one indivisible operation of one
agent takes place (spec/20_memory.md R72, spec/45_mainloop.md R227). -/

namespace Sys2Proof.Machine

/-- One step. -/
def step (s : State) : Host.Outcome State Fault Refusal := portStep s.present

/-- `s` with the table word `w` selected, so that the very next step performs it (log 10, 15). -/
def State.withFetchWord (s : State) (nbits w : Nat) : State := s.select (tableFormat nbits) w

end Sys2Proof.Machine
end

