-- ==== Sys2Proof/Machine/Boot.lean ====
section
/-! DEFINITION. Instantiating the block: a configuration that breaks a constraint of spec/70_reset_and_hazards.md R276 is
refused by name. -/

namespace Sys2Proof.Machine

/-- The check a configuration fails (R276; spec/93_implementation_defined.md U2, U3). -/
inductive ConfigReject where
  | blockSize
  | rates
  | hamming
  | melody
  | noteTable
  | widths
  | speeds
deriving DecidableEq, Repr, Inhabited

/-- The block under a configuration, right after reset; refused when the configuration breaks a constraint (R276). -/
def boot (c : Config) : Except ConfigReject State :=
  if !c.blockSizeOk then .error .blockSize
  else if !c.ratesOk then .error .rates
  else if !c.hammingOk then .error .hamming
  else if !c.melodyOk then .error .melody
  else if !c.noteTableOk then .error .noteTable
  else if !c.widthsOk then .error .widths
  else if !c.speedsOk then .error .speeds
  else .ok (State.resetOf c)

end Sys2Proof.Machine
end

