-- ==== Sys2Proof/Machine/Pseudo.lean ====
section
/-! DEFINITION. The source's names for groups of operations and their expansion (spec/30_encoding.md R107), and running
a sequence of operations. -/

namespace Sys2Proof.Machine

/-- Goes on with `k` after a next state; a stop stays a stop. -/
def Answer.andThen (a : Answer) (k : State → Answer) : Answer :=
  match a with
  | .next s => k s
  | .fault f => .fault f
  | .refused r => .refused r

/-- Performs the operations of a list one after the other. -/
def execAll : List Instr → State → Answer
  | [], s => .next s
  | i :: is, s => Answer.andThen (exec i s) (execAll is)

/-- `analyze(stableBank) -> Spectrum` (R107). -/
def analyzeOps : List Instr := [.copy, .dcrem, .window, .fft, .mag]

/-- `classify(spectrum) -> symbol | NoMatch` (R107). -/
def classifyOps : List Instr := [.peak, .freq, .lookup]

/-- A detection pass from its successful ACQUIRE on (R107). -/
def detectionPassOps : List Instr := .acquire :: (analyzeOps ++ classifyOps ++ [.emit, .seqWait])

/-- A loop iteration in WaitingForNote whose ACQUIRE succeeds at once (R107, spec/45_mainloop.md R225). -/
def waitingIterationOps : List Instr := .dispatch :: detectionPassOps

/-- A loop iteration in Playing; `last` when the duration has elapsed (R107, R225). -/
def playingIterationOps (last : Bool) : List Instr :=
  [.dispatch, .drive, .playCheck] ++ if last then [.stop] else []

/-- The two states of the SequencePlayer (R108, spec/43_sequencer.md R182). -/
inductive SeqMode where
  | waitingForNote
  | playing
deriving DecidableEq, Repr, Inhabited

/-- The name of the sequencer's state (R108). -/
def State.mode (s : State) : SeqMode := if s.playing then .playing else .waitingForNote

end Sys2Proof.Machine
end

