-- ==== Sys2Proof/Safety.lean ====
section
/-! DEFINITION. The terms claims are stated in: the invariant of the block, what an operation leaves unchanged, runs
under given environment entries, and the registers that are live at a phase. -/

namespace Sys2Proof

/-- The entry serves a tick and is no reset. -/
def EnvInput.IsTick (e : EnvInput) : Prop := e.rst = false ∧ e.tick = true

/-- The entry is neither a tick nor a reset. -/
def EnvInput.IsQuiet (e : EnvInput) : Prop := e.rst = false ∧ e.tick = false
end Sys2Proof

namespace Sys2Proof.Machine

/-- The next step serves a tick, arriving or pending (spec/45_mainloop.md R228, log 6). -/
def State.servesTick (s : State) : Prop := s.present.port.tick = true ∨ s.tickPending = true

/-- What holds after reset and after every step (spec/10_state.md R22 to R40, spec/44_actuator.md R206,
spec/20_memory.md R73). -/
structure State.Inv (s : State) : Prop where
  cfgWf : s.cfg.wf = true
  posLt : s.pos < s.cfg.n
  bank0Wf : Store.wf Smp.zero s.cfg.n s.bank0 = true
  bank1Wf : Store.wf Smp.zero s.cfg.n s.bank1 = true
  bankImZero : ∀ b i, (s.readBank b i).im = Value.zero
  workReWf : Store.wf Value.zero s.cfg.n s.workRe = true
  workImWf : Store.wf Value.zero s.cfg.n s.workIm = true
  workImZero : s.ph = 3 ∨ s.ph = 4 ∨ s.ph = 5 → ∀ i, s.readIm i = Value.zero
  stepLt : s.stepIdx < s.cfg.l
  noPending : s.tickPending = false
  phaseLegal : s.ph ≠ 15
  playingPhase : s.playing = true → s.ph = 0 ∨ s.ph = 12 ∨ s.ph = 13 ∨ s.ph = 14
  waitingPhase : s.playing = false → s.ph ≠ 12 ∧ s.ph ≠ 13 ∧ s.ph ≠ 14
  neutral : s.playing = false → s.cmd0 = s.cfg.speedNeutral ∧ s.cmd1 = s.cfg.speedNeutral
  copyReady : s.ph = 2 → s.ready = true
  startLt : s.startTime < 2 ^ s.cfg.timeW
  peakLt : s.peakBin < s.cfg.n / 2
  domLt : s.domFreqNum < 2 ^ (s.cfg.logn - 1 + s.cfg.fsW)
  clsLt : s.cls.sym < 2 ^ s.cfg.symW
  clsNoMatch : s.cls.noMatch = true → s.cls.sym = 0
  cmdLt : s.cmd0 < 2 ^ s.cfg.cmdW ∧ s.cmd1 < 2 ^ s.cfg.cmdW

/-! ### What an operation leaves unchanged -/

/-- The shared sample store is unchanged: both banks, `fill`, `pos`, `ready`. -/
def SameStore (s t : State) : Prop :=
  t.bank0 = s.bank0 ∧ t.bank1 = s.bank1 ∧ t.fill = s.fill ∧ t.pos = s.pos ∧ t.ready = s.ready

/-- The working buffer is unchanged. -/
def SameWork (s t : State) : Prop := t.workRe = s.workRe ∧ t.workIm = s.workIm

/-- The classifier's registers are unchanged. -/
def SameResult (s t : State) : Prop :=
  t.peakBin = s.peakBin ∧ t.peakMag = s.peakMag ∧ t.domFreqNum = s.domFreqNum ∧ t.cls = s.cls

/-- The sequencer's state is unchanged. -/
def SameSeq (s t : State) : Prop :=
  t.stepIdx = s.stepIdx ∧ t.playing = s.playing ∧ t.startTime = s.startTime

/-- The command registers and the output history are unchanged. -/
def SameOutput (s t : State) : Prop := t.cmd0 = s.cmd0 ∧ t.cmd1 = s.cmd1 ∧ t.outHist = s.outHist

/-- The configuration, the pending tick and the environment are unchanged. -/
def SameEnv (s t : State) : Prop :=
  t.cfg = s.cfg ∧ t.tickPending = s.tickPending ∧ t.port = s.port ∧ t.inputs = s.inputs ∧ t.envCount = s.envCount

/-- Everything the loop controller owns is unchanged (spec/10_state.md R21). -/
def SameLoop (s t : State) : Prop :=
  t.ph = s.ph ∧ t.sb = s.sb ∧ SameWork s t ∧ SameResult s t ∧ SameSeq s t ∧ SameOutput s t

/-! ### Runs -/

/-- `s` with the given entries waiting at the input ports. -/
def State.withInputs (s : State) (es : List EnvInput) : State := { s with inputs := es }

/-- One step for each of the given environment entries. -/
def runInputs (es : List EnvInput) (s : State) : Answer :=
  Sys2Proof.core.run es.length (s.withInputs es)

/-- The value of the last CmdWrite to unit `u` in a history; `d` when there is none. -/
def lastCmd (u : Fin 2) (d : Nat) : List Event → Nat
  | [] => d
  | .cmdWrite w v :: es => lastCmd u (if w = u then v else d) es
  | .diag _ _ _ _ :: es => lastCmd u d es

/-! ### Live registers -/

/-- Two states that agree on everything but the registers no later operation reads before writing them, at this phase
(spec/10_state.md R31 to R35, R38). -/
structure LiveEqual (s t : State) : Prop where
  env : SameEnv s t
  store : SameStore s t
  output : SameOutput s t
  ph : t.ph = s.ph
  stepIdx : t.stepIdx = s.stepIdx
  playing : t.playing = s.playing
  startTime : s.playing = true → t.startTime = s.startTime
  workRe : 3 ≤ s.ph.toNat → s.ph.toNat ≤ 10 → t.workRe = s.workRe
  workIm : 3 ≤ s.ph.toNat → s.ph.toNat ≤ 6 → t.workIm = s.workIm
  peak : 8 ≤ s.ph.toNat → s.ph.toNat ≤ 10 → t.peakBin = s.peakBin ∧ t.peakMag = s.peakMag
  domFreqNum : 9 ≤ s.ph.toNat → s.ph.toNat ≤ 10 → t.domFreqNum = s.domFreqNum
  cls : 10 ≤ s.ph.toNat → s.ph.toNat ≤ 11 → t.cls = s.cls

end Sys2Proof.Machine
end

