-- ==== Sys2Proof/Certificates/Slice0/Obligations.lean ====
section
/-! DEFINITION. The statements about the block, from the numbered rules of spec/. -/

open Sys2Proof Sys2Proof.Machine

/-! ### Encoding -/

/-- R97: each of the seventeen operations has the code the table gives it; R100: code 15 names none. -/
def Obligations.CodesSelectTheirOperations : Prop :=
  decodePh 0b0000#4 = .ok .dispatch ∧ decodePh 0b0001#4 = .ok .acquire ∧ decodePh 0b0010#4 = .ok .copy ∧
  decodePh 0b0011#4 = .ok .dcrem ∧ decodePh 0b0100#4 = .ok .window ∧ decodePh 0b0101#4 = .ok .fft ∧
  decodePh 0b0110#4 = .ok .mag ∧ decodePh 0b0111#4 = .ok .peak ∧ decodePh 0b1000#4 = .ok .freq ∧
  decodePh 0b1001#4 = .ok .lookup ∧ decodePh 0b1010#4 = .ok .emit ∧ decodePh 0b1011#4 = .ok .seqWait ∧
  decodePh 0b1100#4 = .ok .drive ∧ decodePh 0b1101#4 = .ok .playCheck ∧ decodePh 0b1110#4 = .ok .stop ∧
  decodePh 0b1111#4 = .error .reservedPhase ∧
  decodeTsel 0b10#2 = .ok .sample ∧ decodeTsel 0b11#2 = .ok .bankflip

/-- R98: bit 1 of the select word is `tick`, bit 0 is `last`, which is `pos = N-1`; without a tick it selects nothing,
with one it selects SAMPLE, or SAMPLE with BANKFLIP when `last` is set. -/
def Obligations.SelectWordIsTickAndLast : Prop :=
  (∀ s : State, (s.tselWord.getLsbD 1 = s.tickPending) ∧
    (s.tselWord.getLsbD 0 = decide (s.pos = s.cfg.n - 1))) ∧
  (∀ w : TselWord, decodeTsel w =
    if w.getLsbD 1 = false then .error .noTick
    else if w.getLsbD 0 = false then .ok .sample else .ok .bankflip)

/-- The encoder's word of an operation decodes to the operation, and fits its format. -/
def Obligations.EncodedOperationsDecodeBack : Prop :=
  ∀ i : Instr, i.wf = true → decode (encode i).1 (encode i).2 = .ok i ∧ (encode i).1.fits (encode i).2 = true

/-- The formats CLS, MST and NRG of R93, R94, R95, at every width: a value whose fields fit has a word of the format's
width with the fields where the format puts them, reading the word gives the value back, and writing what was read from
a word gives the word back. -/
def Obligations.WordFormatsRoundTrip : Prop :=
  (∀ (w : Nat) (c : Cls), c.sym < 2 ^ w →
    c.toWord w < 2 ^ (1 + w) ∧ c.toWord w / 2 ^ w = c.noMatch.toNat ∧ c.toWord w % 2 ^ w = c.sym ∧
    Cls.ofWord w (c.toWord w) = c) ∧
  (∀ w x : Nat, x < 2 ^ (1 + w) → (Cls.ofWord w x).toWord w = x) ∧
  (∀ (w : Nat) (m : MelodyStep), m.sym < 2 ^ w →
    m.toWord w < 2 ^ (1 + w) ∧ m.toWord w / 2 ^ w = m.rest.toNat ∧ m.toWord w % 2 ^ w = m.sym ∧
    MelodyStep.ofWord w (m.toWord w) = m) ∧
  (∀ w x : Nat, x < 2 ^ (1 + w) → (MelodyStep.ofWord w x).toWord w = x) ∧
  (∀ (sw fw : Nat) (r : NoteRow), r.sym < 2 ^ sw → r.fmin < 2 ^ fw → r.fmax < 2 ^ fw →
    r.toWord fw < 2 ^ (sw + 2 * fw) ∧ r.toWord fw / 2 ^ (2 * fw) = r.sym ∧
    r.toWord fw / 2 ^ fw % 2 ^ fw = r.fmin ∧ r.toWord fw % 2 ^ fw = r.fmax ∧
    NoteRow.ofWord sw fw (r.toWord fw) = r) ∧
  (∀ sw fw x : Nat, x < 2 ^ (sw + 2 * fw) → (NoteRow.ofWord sw fw x).toWord fw = x)

/-! ### The step -/

/-- A step without reset and without a tick is the operation whose code is in `ph`, on the state with the environment's
entry at the ports. -/
def Obligations.StepRunsThePhaseOperation : Prop :=
  ∀ (s : State) (i : Instr), s.present.port.rst = false → s.present.port.tick = false → s.tickPending = false →
    decodePh s.ph = .ok i → step s = exec i s.present

/-- A step in which a tick arrives, or one is pending, is the operation the select word names, and the loop controller's
operation is not performed; a state with `ph = 15` is refused instead (R100). -/
def Obligations.StepServesATick : Prop :=
  ∀ s : State, s.present.port.rst = false → (s.present.port.tick = !s.tickPending) →
    step s = if s.ph = 15 then .refused .reservedPhase
      else exec (if s.pos = s.cfg.n - 1 then .bankflip else .sample) s.present.requestTick

/-- The environment's entry changes nothing of the block: the entry at the head of `inputs` is at the ports. -/
def Obligations.PresentedInputChangesOnlyThePorts : Prop :=
  ∀ s : State, s.present.cfg = s.cfg ∧ SameStore s s.present ∧ SameLoop s s.present ∧
    s.present.tickPending = s.tickPending ∧ s.present.inputs = s.inputs.tail ∧
    s.present.envCount = s.envCount + 1 ∧ (∀ e es, s.inputs = e :: es → s.present.port = e)

/-- The state in which a word of the table is selected runs the operation of that word, and decoding the table word
gives the operation (PH words in 4 or 8 bits, TSEL words in 2 bits; log 10). -/
def Obligations.SelectedTableWordRunsItsOperation : Prop :=
  ∀ (s : State) (i : Instr), 2 ≤ s.cfg.n →
    (i.format = .ph → (decodeTableWord 4 i.code = some i ∧ decodeTableWord 8 i.code = some i) ∧
      step (s.withFetchWord 4 i.code) = exec i (s.withFetchWord 4 i.code).present ∧
      step (s.withFetchWord 8 i.code) = exec i (s.withFetchWord 8 i.code).present) ∧
    (i.format = .tsel → decodeTableWord 2 i.code = some i ∧
      step (s.withFetchWord 2 i.code) = exec i (s.withFetchWord 2 i.code).present.requestTick)

/-- R100: no operation writes code 15 and reset writes 0; every step of a state that holds it, tick or not, is refused
unless it is a reset. -/
def Obligations.ReservedPhaseIsNeverWrittenAndRefused : Prop :=
  (∀ (i : Instr) (s t : State), s.ph ≠ 15 → exec i s = .next t → t.ph ≠ 15) ∧
  (∀ c : Config, (State.resetOf c).ph = 0) ∧
  (∀ s : State, s.ph = 15 → s.present.port.rst = false → step s = .refused .reservedPhase)

/-- A tick that arrives while one is pending is outside the spec (R244, U4): the step is refused (log 6), under the name
of the reserved phase code where the state holds it (R100, log 20). -/
def Obligations.SecondPendingTickIsRefused : Prop :=
  ∀ s : State, s.tickPending = true → s.present.port.rst = false → s.present.port.tick = true →
    step s = .refused (if s.ph = 15 then .reservedPhase else .tickOverrun)

/-! ### Reset and configuration -/

/-- R270, R47: when reset is applied every piece of state takes its reset value, whatever it held; the next operation
is DISPATCH, no tick is pending, and no event is emitted. Only the environment and the configuration stay. -/
def Obligations.ResetInputReinitialisesEverything : Prop :=
  ∀ s : State, s.present.port.rst = true → ∃ t, step s = .next t ∧
    (∀ b i, t.readBank b i = Smp.zero) ∧ t.fill = 0 ∧ t.pos = 0 ∧ t.ready = false ∧ t.ph = 0 ∧
    decodePh t.ph = .ok .dispatch ∧ t.stepIdx = 0 ∧ t.playing = false ∧
    t.cmd 0 = s.cfg.speedNeutral ∧ t.cmd 1 = s.cfg.speedNeutral ∧ t.outHist = [] ∧ t.tickPending = false ∧
    t.cfg = s.cfg ∧ t.port = s.present.port ∧ t.inputs = s.inputs.tail

/-- The state after reset, for every configuration: the values R47 lists. That `State.reset` is the one under the
reference configuration is the model's choice (log 1), since R6 gives REFCFG no other standing. -/
def Obligations.ResetStateHoldsTheListedValues : Prop :=
  (∀ c : Config, (∀ b i, (State.resetOf c).readBank b i = ⟨.rat 0, .rat 0⟩) ∧ (State.resetOf c).fill = 0 ∧
    (State.resetOf c).pos = 0 ∧ (State.resetOf c).ready = false ∧ (State.resetOf c).ph = 0 ∧
    (State.resetOf c).stepIdx = 0 ∧ (State.resetOf c).mode = .waitingForNote ∧
    (State.resetOf c).cmd 0 = c.speedNeutral ∧ (State.resetOf c).cmd 1 = c.speedNeutral ∧
    (State.resetOf c).outHist = [] ∧ (State.resetOf c).tickPending = false ∧ (State.resetOf c).cfg = c) ∧
  State.reset = State.resetOf refCfg

/-- The block is instantiated under a configuration exactly when it meets every constraint of R276 and those of R6 on the
widths and on the length of the window, and then starts in the reset state. That a melody word with `rest = 1` and `sym`
not 0 is accepted is the model's choice (R101 gives it a meaning, U10 lets a model refuse it; log 14). -/
def Obligations.BootAcceptsExactlyLegalConfigurations : Prop :=
  ∀ c : Config, (boot c = .ok (State.resetOf c) ↔
    (∃ k, c.n = 2 ^ k) ∧ 4 ≤ c.n ∧ 0 < c.fs ∧ c.fs < 2 ^ c.fsW ∧ 1 ≤ c.adcMax ∧ 1 ≤ c.adcW ∧
    c.hamming.length = c.n ∧ 1 ≤ c.melody.length ∧ (∀ m ∈ c.melody, m.sym < 2 ^ c.symW) ∧
    (∀ r ∈ c.noteTable, r.sym < 2 ^ c.symW ∧ r.fmin < 2 ^ c.freqW ∧ r.fmax < 2 ^ c.freqW) ∧
    c.stepDuration < 2 ^ c.timeW ∧ 1 ≤ c.symW ∧ 1 ≤ c.freqW ∧ 1 ≤ c.timeW ∧ 1 ≤ c.cmdW ∧
    c.speedFwd0 < 2 ^ c.cmdW ∧ c.speedFwd1 < 2 ^ c.cmdW ∧ c.speedNeutral < 2 ^ c.cmdW ∧
    c.speedFwd0 ≠ c.speedNeutral ∧ c.speedFwd1 ≠ c.speedNeutral ∧ c.speedFwd0 ≠ c.speedFwd1) ∧
  (∀ s, boot c = .ok s → s = State.resetOf c)

/-- R78: the configuration is the same at every step, reset included. -/
def Obligations.ConfigurationNeverChanges : Prop :=
  ∀ s t : State, step s = .next t → t.cfg = s.cfg

/-! ### The Sampler -/

/-- R122: the calibration divides by `ADC_MAX`, multiplies by `CAL_SCALE` and adds `CAL_OFFSET`, in that order and
without a clamp, in every number system; in exact arithmetic it is `r × CAL_SCALE / ADC_MAX + CAL_OFFSET`, strictly
increasing when the scale is positive. -/
def Obligations.CalibrationIsTheLinearFormula : Prop :=
  (∀ (c : Config) (r : Nat), c.calibrate r =
    c.num.add (c.num.mul (c.num.divNat (c.num.ofNat r) c.adcMax) c.calScale) c.calOffset) ∧
  ∀ c : Config, c.num = .exact → 1 ≤ c.adcMax →
    (∀ r : Nat, (c.calibrate r).val = (r : ℝ) / (c.adcMax : ℝ) * c.calScale.val + c.calOffset.val) ∧
    (0 < c.calScale.val → ∀ r r' : Nat, r < r' → (c.calibrate r).val < (c.calibrate r').val)

/-- R120: SAMPLE completes wherever `pos` is below `N`. It draws one reading, stores the calibrated value with a zero
imaginary part at `(fill, pos)` and leaves every other element as it was; the sample that fills the bank sets `pos` to
0, inverts `fill` and sets `ready`, every other one adds 1 to `pos`. Nothing of the loop controller changes. -/
def Obligations.SampleStoresOneCalibratedReading : Prop :=
  ∀ s : State, s.pos < s.cfg.n → ∃ t, exec .sample s = .next t ∧
    t.readBank s.fill s.pos =
      ⟨s.cfg.num.add (s.cfg.num.mul (s.cfg.num.divNat (s.cfg.num.ofNat (s.port.raw % 2 ^ s.cfg.adcW)) s.cfg.adcMax)
        s.cfg.calScale) s.cfg.calOffset, .rat 0⟩ ∧
    (∀ b i, ¬(b = s.fill ∧ i = s.pos) → t.readBank b i = s.readBank b i) ∧
    (s.pos = s.cfg.n - 1 → t.pos = 0 ∧ t.fill = 1 - s.fill ∧ t.ready = true) ∧
    (s.pos ≠ s.cfg.n - 1 → t.pos = s.pos + 1 ∧ t.fill = s.fill ∧ t.ready = s.ready) ∧
    SameLoop s t ∧ t.cfg = s.cfg ∧ t.tickPending = false ∧ t.port = s.port ∧ t.inputs = s.inputs ∧
    t.envCount = s.envCount

/-- R121: BANKFLIP, performed with the SAMPLE it is the tail of, sets `pos` to 0, inverts `fill` and sets `ready`
whatever it was, after that SAMPLE's one store; at `pos = N-1` it is what SAMPLE does. Nothing of the loop controller
changes. That the operation of word `11` includes SAMPLE's store is the model's reading of R98 (log 9). -/
def Obligations.BankflipHandsTheBlockOver : Prop :=
  ∀ s : State, s.pos < s.cfg.n → ∃ t, exec .bankflip s = .next t ∧
    t.pos = 0 ∧ t.fill = 1 - s.fill ∧ t.ready = true ∧
    t.readBank s.fill s.pos = ⟨s.cfg.calibrate (s.port.raw % 2 ^ s.cfg.adcW), .rat 0⟩ ∧
    (∀ b i, ¬(b = s.fill ∧ i = s.pos) → t.readBank b i = s.readBank b i) ∧
    (s.pos = s.cfg.n - 1 → exec .sample s = .next t) ∧
    SameLoop s t ∧ t.cfg = s.cfg ∧ t.tickPending = false ∧ t.port = s.port ∧ t.inputs = s.inputs ∧
    t.envCount = s.envCount

/-- The model's own stop (log 11): with `pos` not below `N` the element does not exist, and SAMPLE and BANKFLIP fault;
no other state stops them. -/
def Obligations.SamplerFaultsOnlyOutsideTheBank : Prop :=
  ∀ s : State, (exec .sample s = .fault .bankIndex ↔ s.cfg.n ≤ s.pos) ∧
    (exec .bankflip s = .fault .bankIndex ↔ s.cfg.n ≤ s.pos)

/-- R124, in every interleaving (R72, R227): where `pos = n mod N` and `fill = (n div N) mod 2`, a step that serves a
tick is SAMPLE number `n`: it writes bank `(n div N) mod 2` at position `n mod N` and nothing else, the positions after
it are those of `n + 1`, and it hands the bank over exactly when `n mod N = N - 1`; any other step that is no reset keeps
`pos`, `fill` and both banks. Reset starts at number 0. -/
def Obligations.SamplesFollowOneAnotherThroughTheBanks : Prop :=
  (∀ (s : State) (n : Nat), s.Inv → s.pos = n % s.cfg.n → (s.fill : Nat) = n / s.cfg.n % 2 →
    s.present.port.rst = false → ∃ t, step s = .next t ∧
      (s.servesTick → t.pos = (n + 1) % s.cfg.n ∧ (t.fill : Nat) = (n + 1) / s.cfg.n % 2 ∧
        t.ready = (if n % s.cfg.n = s.cfg.n - 1 then true else s.ready) ∧
        ∀ b i, t.readBank b i =
          if (b : Nat) = n / s.cfg.n % 2 ∧ i = n % s.cfg.n
          then ⟨s.cfg.calibrate (s.present.port.raw % 2 ^ s.cfg.adcW), .rat 0⟩ else s.readBank b i) ∧
      (¬ s.servesTick → t.pos = s.pos ∧ t.fill = s.fill ∧ ∀ b i, t.readBank b i = s.readBank b i)) ∧
  (∀ c : Config, (State.resetOf c).pos = 0 % c.n ∧ ((State.resetOf c).fill : Nat) = 0 / c.n % 2)

/-- R26 (I3), R73: `N` ticks from an empty filling bank, with any operations of the loop controller between them and
after them, make it the stable bank, holding exactly the calibrated readings in order of capture; `ready` is set when
the last entry is the last tick; a COPY then takes that block. -/
def Obligations.CompletedBlockIsCopiedInCaptureOrder : Prop :=
  ∀ (s : State) (es : List EnvInput), s.Inv → s.pos = 0 → (∀ x ∈ es, x.rst = false) →
    (es.filter (·.tick)).length = s.cfg.n →
    ∃ t u, runInputs es s = .next t ∧ t.fill = 1 - s.fill ∧ t.pos = 0 ∧
      (∀ e, es.getLast? = some e → e.tick = true → t.ready = true) ∧
      exec .copy t = .next u ∧ u.sb = s.fill ∧ u.ready = false ∧
      (∀ i e, (es.filter (·.tick))[i]? = some e →
        u.readRe i = s.cfg.calibrate (e.raw % 2 ^ s.cfg.adcW) ∧ u.readIm i = .rat 0)

/-- R80: the operations that touch no state of the Sampler commute with SAMPLE and BANKFLIP. -/
def Obligations.SamplerCommutesWithPrivateOperations : Prop :=
  ∀ (i j : Instr) (s : State), i.format = .ph → i ≠ .acquire → i ≠ .copy → j.format = .tsel → s.pos < s.cfg.n →
    Answer.andThen (exec i s) (exec j) = Answer.andThen (exec j s) (exec i)

/-! ### The analyzer -/

/-- R140: COPY clears `ready`, latches the stable bank and copies its `N` elements; it changes nothing else but `ph`. -/
def Obligations.CopyTakesTheStableBank : Prop :=
  ∀ s : State, ∃ t, exec .copy s = .next t ∧ t.ready = false ∧ t.sb = 1 - s.fill ∧ t.ph = 3 ∧
    (∀ i, i < s.cfg.n → t.readRe i = (s.readBank (1 - s.fill) i).re ∧ t.readIm i = (s.readBank (1 - s.fill) i).im) ∧
    t.bank0 = s.bank0 ∧ t.bank1 = s.bank1 ∧ t.fill = s.fill ∧ t.pos = s.pos ∧
    SameResult s t ∧ SameSeq s t ∧ SameOutput s t ∧ SameEnv s t

/-- R141: DCREM sums elements `1 .. N-1` in ascending order, divides by `N` and subtracts the mean from those elements;
element 0 and `work_im` stay. In exact arithmetic these are the real sum, quotient and differences. -/
def Obligations.DcRemovalSubtractsTheMean : Prop :=
  ∀ s : State, s.cfg.wf = true → ∃ t, exec .dcrem s = .next t ∧ t.ph = 4 ∧ t.readRe 0 = s.readRe 0 ∧
    (∀ i, 1 ≤ i → i < s.cfg.n → t.readRe i = s.cfg.num.sub (s.readRe i)
      (s.cfg.num.divNat ((List.range' 1 (s.cfg.n - 1)).foldl (fun a j => s.cfg.num.add a (s.readRe j)) (.rat 0))
        s.cfg.n)) ∧
    (s.cfg.num = .exact → ∀ i, 1 ≤ i → i < s.cfg.n → (t.readRe i).val =
      (s.readRe i).val - (∑ j ∈ Finset.Ico 1 s.cfg.n, (s.readRe j).val) / (s.cfg.n : ℝ)) ∧
    t.workIm = s.workIm ∧ t.sb = s.sb ∧ SameStore s t ∧ SameResult s t ∧ SameSeq s t ∧ SameOutput s t ∧ SameEnv s t

/-- R141, corner case (a): a block of equal values `c` becomes `c, c/N, …, c/N`, not zero. -/
def Obligations.ConstantBlockLeavesAResidue : Prop :=
  ∀ (s t : State) (c : ℝ), s.cfg.wf = true → s.cfg.num = .exact → (∀ i, i < s.cfg.n → (s.readRe i).val = c) →
    exec .dcrem s = .next t →
    (t.readRe 0).val = c ∧ ∀ i, 1 ≤ i → i < s.cfg.n → (t.readRe i).val = c / (s.cfg.n : ℝ)

/-- R142: WINDOW multiplies each element of the real component by its coefficient; with the reference window, whose
formula the spec marks as general knowledge (spec/93_implementation_defined.md G1), the coefficient is
`0.54 - 0.46·cos(2πi/(N-1))`. `work_im` stays. -/
def Obligations.WindowScalesTheRealComponent : Prop :=
  ∀ s : State, s.cfg.wf = true → ∃ t, exec .window s = .next t ∧ t.ph = 5 ∧
    (∀ i (h : i < s.cfg.hamming.length), t.readRe i = s.cfg.num.mul (s.readRe i) s.cfg.hamming[i]) ∧
    (s.cfg.num = .exact → s.cfg.hamming = hammingWindow s.cfg.n → ∀ i, i < s.cfg.n →
      (t.readRe i).val = (s.readRe i).val *
        (0.54 - 0.46 * Real.cos (2 * Real.pi * (i : ℝ) / ((s.cfg.n : ℝ) - 1)))) ∧
    t.workIm = s.workIm ∧ t.sb = s.sb ∧ SameStore s t ∧ SameResult s t ∧ SameSeq s t ∧ SameOutput s t ∧ SameEnv s t

/-- R143: FFT replaces the buffer by its forward discrete Fourier transform, negative exponent, no scaling. -/
def Obligations.FftIsTheForwardTransform : Prop :=
  ∀ s : State, ∃ t, exec .fft s = .next t ∧ t.ph = 6 ∧
    (s.cfg.num = .exact → ∀ k, k < s.cfg.n →
      (((t.readRe k).val : ℂ) + ((t.readIm k).val : ℂ) * Complex.I) =
        ∑ n ∈ Finset.range s.cfg.n, (((s.readRe n).val : ℂ) + ((s.readIm n).val : ℂ) * Complex.I) *
          Complex.exp (-(2 * (Real.pi : ℂ) * Complex.I * (k : ℂ) * (n : ℂ) / (s.cfg.n : ℂ)))) ∧
    t.sb = s.sb ∧ SameStore s t ∧ SameResult s t ∧ SameSeq s t ∧ SameOutput s t ∧ SameEnv s t

/-- R144: MAG replaces every `work_re[k]` by the magnitude of the complex pair; `work_im` stays. -/
def Obligations.MagIsTheComplexMagnitude : Prop :=
  ∀ s : State, ∃ t, exec .mag s = .next t ∧ t.ph = 7 ∧
    (∀ k, k < s.cfg.n → t.readRe k = s.cfg.num.sqrt (s.cfg.num.add (s.cfg.num.mul (s.readRe k) (s.readRe k))
      (s.cfg.num.mul (s.readIm k) (s.readIm k)))) ∧
    (s.cfg.num = .exact → ∀ k, k < s.cfg.n →
      (t.readRe k).val = Real.sqrt ((s.readRe k).val ^ 2 + (s.readIm k).val ^ 2)) ∧
    t.workIm = s.workIm ∧ t.sb = s.sb ∧ SameStore s t ∧ SameResult s t ∧ SameSeq s t ∧ SameOutput s t ∧ SameEnv s t

/-- R145: COPY, DCREM, WINDOW, FFT and MAG in order leave in `work_re[0 .. N/2-1]` the Spectrum of the copied block:
`S_k = |Σ h_n·y_n·e^(-2πjkn/N)|`, where `y_0 = x_0` and `y_i = x_i - m`. -/
def Obligations.AnalyzerComputesTheSpectrum : Prop :=
  ∀ (s : State) (x : Nat → ℝ) (m : ℝ), s.Inv → s.cfg.num = .exact →
    (∀ i, x i = ((s.readBank (1 - s.fill) i).re).val) →
    m = (∑ i ∈ Finset.Ico 1 s.cfg.n, x i) / (s.cfg.n : ℝ) →
    ∃ t, execAll analyzeOps s = .next t ∧ t.ph = 7 ∧ ∀ k, k < s.cfg.n / 2 →
      (t.readRe k).val = ‖∑ n ∈ Finset.range s.cfg.n,
        ((((s.cfg.hamming.getD n (.rat 0)).val * (if n = 0 then x 0 else x n - m) : ℝ)) : ℂ) *
          Complex.exp (-(2 * (Real.pi : ℂ) * Complex.I * (k : ℂ) * (n : ℂ) / (s.cfg.n : ℂ)))‖

/-! ### The classifier -/

/-- R160: PEAK scans bins `2 .. N/2-1` in ascending order from bin 1, a strictly greater magnitude replacing the
candidate; in exact arithmetic it finds the least bin of `1 .. N/2-1` whose magnitude no other bin of that range
exceeds. -/
def Obligations.PeakIsTheLowestBinOfGreatestMagnitude : Prop :=
  ∀ s : State, s.cfg.wf = true → ∃ t, exec .peak s = .next t ∧ t.ph = 8 ∧
    1 ≤ t.peakBin ∧ t.peakBin ≤ s.cfg.n / 2 - 1 ∧ t.peakMag = s.readRe t.peakBin ∧
    (t.peakBin, t.peakMag) = (List.range' 2 (s.cfg.n / 2 - 2)).foldl
      (fun c i => if s.cfg.num.gt (s.readRe i) c.2 = true then (i, s.readRe i) else c) (1, s.readRe 1) ∧
    (s.cfg.num = .exact →
      (∀ i, 1 ≤ i → i ≤ s.cfg.n / 2 - 1 → (s.readRe i).val ≤ (s.readRe t.peakBin).val) ∧
      (∀ i, 1 ≤ i → i < t.peakBin → (s.readRe i).val < (s.readRe t.peakBin).val)) ∧
    t.domFreqNum = s.domFreqNum ∧ t.cls = s.cls ∧ t.sb = s.sb ∧
    SameStore s t ∧ SameWork s t ∧ SameSeq s t ∧ SameOutput s t ∧ SameEnv s t

/-- R161: FREQ writes the exact product `peak_bin × FS`, which fits `LOGN - 1 + FS_W` bits for every bin PEAK gives. -/
def Obligations.FreqIsTheExactProduct : Prop :=
  ∀ s : State, ∃ t, exec .freq s = .next t ∧ t.ph = 9 ∧ t.domFreqNum = s.peakBin * s.cfg.fs ∧
    (s.cfg.wf = true → s.peakBin ≤ s.cfg.n / 2 - 1 → t.domFreqNum < 2 ^ (s.cfg.logn - 1 + s.cfg.fsW)) ∧
    t.peakBin = s.peakBin ∧ t.peakMag = s.peakMag ∧ t.cls = s.cls ∧ t.sb = s.sb ∧
    SameStore s t ∧ SameWork s t ∧ SameSeq s t ∧ SameOutput s t ∧ SameEnv s t

/-- R162: LOOKUP gives the symbol of the first row in table order whose inclusive range contains the dominant
frequency, or NoMatch with symbol 0 when no row does. -/
def Obligations.LookupTakesTheFirstMatchingRow : Prop :=
  ∀ s : State, ∃ t, exec .lookup s = .next t ∧ t.ph = 10 ∧
    (∀ (k : Nat) (r : NoteRow), s.cfg.noteTable[k]? = some r →
      r.fmin * s.cfg.n ≤ s.domFreqNum → s.domFreqNum ≤ r.fmax * s.cfg.n →
      (∀ (j : Nat) (q : NoteRow), j < k → s.cfg.noteTable[j]? = some q →
        ¬(q.fmin * s.cfg.n ≤ s.domFreqNum ∧ s.domFreqNum ≤ q.fmax * s.cfg.n)) →
      t.cls = ⟨false, r.sym⟩) ∧
    ((∀ r ∈ s.cfg.noteTable, ¬(r.fmin * s.cfg.n ≤ s.domFreqNum ∧ s.domFreqNum ≤ r.fmax * s.cfg.n)) →
      t.cls = ⟨true, 0⟩) ∧
    t.peakBin = s.peakBin ∧ t.peakMag = s.peakMag ∧ t.domFreqNum = s.domFreqNum ∧ t.sb = s.sb ∧
    SameStore s t ∧ SameWork s t ∧ SameSeq s t ∧ SameOutput s t ∧ SameEnv s t

/-- R222: EMIT appends one Diag event with the Spectrum, the peak and the dominant frequency, and writes `ph`. -/
def Obligations.EmitAppendsOneDiagnosticEvent : Prop :=
  ∀ s : State, ∃ t, exec .emit s = .next t ∧ t.ph = 11 ∧
    t.outHist = s.outHist ++ [.diag ((List.range (s.cfg.n / 2)).map fun i => s.readRe i)
      s.peakMag s.peakBin s.domFreqNum] ∧
    t.cmd0 = s.cmd0 ∧ t.cmd1 = s.cmd1 ∧ t.sb = s.sb ∧
    SameStore s t ∧ SameWork s t ∧ SameResult s t ∧ SameSeq s t ∧ SameEnv s t

/-! ### The sequencer -/

/-- R180, R181: SEQ_WAIT completes at every step index of the melody. A REST step, or a note step whose symbol the
classifier returned, records the time, advances the step modulo `L` and enters Playing; otherwise only `ph` is
written. -/
def Obligations.SeqWaitEntersPlayingOnAHit : Prop :=
  ∀ (s : State) (m : MelodyStep), s.cfg.melody[s.stepIdx]? = some m → ∃ t, exec .seqWait s = .next t ∧ t.ph = 0 ∧
    ((m.rest = true ∨ (s.cls.noMatch = false ∧ s.cls.sym = m.sym)) →
      t.playing = true ∧ t.startTime = s.port.now % 2 ^ s.cfg.timeW ∧
      t.stepIdx = (s.stepIdx + 1) % s.cfg.melody.length) ∧
    (¬(m.rest = true ∨ (s.cls.noMatch = false ∧ s.cls.sym = m.sym)) → SameSeq s t) ∧
    t.sb = s.sb ∧ SameStore s t ∧ SameWork s t ∧ SameResult s t ∧ SameOutput s t ∧ SameEnv s t

/-- The model's own stop (log 11): with `step_idx` not below `L` the melody word does not exist, and SEQ_WAIT faults;
no other state stops it. -/
def Obligations.SeqWaitFaultsOnlyOutsideTheMelody : Prop :=
  ∀ s : State, exec .seqWait s = .fault .melodyIndex ↔ s.cfg.melody.length ≤ s.stepIdx

/-- R183: PLAY_CHECK goes to STOP when `(t - start_time) mod 2^TIME_W >= STEP_DURATION`, else to DISPATCH, and writes
nothing but `ph`. -/
def Obligations.PlayCheckTestsTheElapsedTime : Prop :=
  ∀ s : State, ∃ t, exec .playCheck s = .next t ∧
    t.ph = (if (s.cfg.stepDuration : ℤ) ≤
        (((s.port.now % 2 ^ s.cfg.timeW : Nat) : ℤ) - (s.startTime : ℤ)) % (2 : ℤ) ^ s.cfg.timeW then 14 else 0) ∧
    t.sb = s.sb ∧ SameStore s t ∧ SameWork s t ∧ SameResult s t ∧ SameSeq s t ∧ SameOutput s t ∧ SameEnv s t

/-- R184: whatever wraps the time counter has taken, the elapsed time is the true one modulo `2^TIME_W`, and the true
one as long as less than `2^TIME_W` ms pass. -/
def Obligations.ElapsedTimeSurvivesTheWrap : Prop :=
  ∀ (c : Config) (start passed : Nat),
    c.elapsed ((start + passed) % 2 ^ c.timeW) (start % 2 ^ c.timeW) = passed % 2 ^ c.timeW ∧
    (passed < 2 ^ c.timeW → c.elapsed ((start + passed) % 2 ^ c.timeW) (start % 2 ^ c.timeW) = passed)

/-- R188: one step advances the melody by at most one step, and only a SEQ_WAIT in WaitingForNote does it. -/
def Obligations.MelodyAdvancesByOnePerHit : Prop :=
  ∀ s t : State, s.Inv → s.present.port.rst = false → step s = .next t →
    t.stepIdx = s.stepIdx ∨
      (¬ s.servesTick ∧ s.ph = 11 ∧ s.playing = false ∧ t.playing = true ∧
        t.stepIdx = (s.stepIdx + 1) % s.cfg.l)

/-! ### The actuator stage and the loop controller -/

/-- R200: DRIVE sends the forward command to unit 0, then to unit 1. -/
def Obligations.DriveCommandsBothUnitsForward : Prop :=
  ∀ s : State, ∃ t, exec .drive s = .next t ∧ t.ph = 13 ∧
    t.cmd 0 = s.cfg.speedFwd0 ∧ t.cmd 1 = s.cfg.speedFwd1 ∧
    t.outHist = s.outHist ++ [.cmdWrite 0 s.cfg.speedFwd0, .cmdWrite 1 s.cfg.speedFwd1] ∧
    t.sb = s.sb ∧ SameStore s t ∧ SameWork s t ∧ SameResult s t ∧ SameSeq s t ∧ SameEnv s t

/-- R201: STOP sends the neutral command to both units and returns to WaitingForNote in the same step; the melody step
is not changed. -/
def Obligations.StopNeutralisesAndReturnsToWaiting : Prop :=
  ∀ s : State, ∃ t, exec .stop s = .next t ∧ t.ph = 0 ∧ t.playing = false ∧
    t.cmd 0 = s.cfg.speedNeutral ∧ t.cmd 1 = s.cfg.speedNeutral ∧
    t.outHist = s.outHist ++ [.cmdWrite 0 s.cfg.speedNeutral, .cmdWrite 1 s.cfg.speedNeutral] ∧
    t.stepIdx = s.stepIdx ∧ t.startTime = s.startTime ∧ t.sb = s.sb ∧
    SameStore s t ∧ SameWork s t ∧ SameResult s t ∧ SameEnv s t

/-- R215: DISPATCH chooses the playing path or the detection path and writes nothing but `ph`. -/
def Obligations.DispatchChoosesThePath : Prop :=
  ∀ s : State, ∃ t, exec .dispatch s = .next t ∧ t.ph = (if s.playing = true then 12 else 1) ∧
    t.sb = s.sb ∧ SameStore s t ∧ SameWork s t ∧ SameResult s t ∧ SameSeq s t ∧ SameOutput s t ∧ SameEnv s t

/-- R216: ACQUIRE goes to COPY when a block is ready and otherwise repeats itself, changing no state; it does not clear
`ready`. -/
def Obligations.AcquireWaitsForABlock : Prop :=
  ∀ s : State, ∃ t, exec .acquire s = .next t ∧
    (s.ready = true → t.ph = 2) ∧ (s.ready = false → t.ph = 1 ∧ (s.ph = 1 → t = s)) ∧
    t.sb = s.sb ∧ SameStore s t ∧ SameWork s t ∧ SameResult s t ∧ SameSeq s t ∧ SameOutput s t ∧ SameEnv s t

/-- R224: the successor table, and that a step of the Sampler does not write `ph`. -/
def Obligations.PhaseFollowsTheSuccessorTable : Prop :=
  ∀ s t : State, s.present.port.rst = false → step s = .next t →
    (s.servesTick → t.ph = s.ph) ∧
    (¬ s.servesTick →
      (s.ph = 0 ∧ t.ph = if s.playing = true then 12 else 1) ∨
      (s.ph = 1 ∧ t.ph = if s.ready = true then 2 else 1) ∨
      (2 ≤ s.ph.toNat ∧ s.ph.toNat ≤ 10 ∧ t.ph = s.ph + 1) ∨
      (s.ph = 11 ∧ t.ph = 0) ∨ (s.ph = 12 ∧ t.ph = 13) ∨
      (s.ph = 13 ∧ t.ph = if s.cfg.stepDuration ≤ s.cfg.elapsed s.present.readNow s.startTime then 14 else 0) ∨
      (s.ph = 14 ∧ t.ph = 0))

/-- R25: `ready` is set by BANKFLIP and by nothing else, whatever it was, and cleared by COPY and by nothing else but
reset. -/
def Obligations.ReadyIsSetByBankflipAndClearedByCopy : Prop :=
  ∀ s t : State, s.present.port.rst = false → step s = .next t →
    (t.ready = true → s.ready = false → s.servesTick ∧ s.pos = s.cfg.n - 1) ∧
    (t.ready = false → s.ready = true → ¬ s.servesTick ∧ s.ph = 2) ∧
    (s.servesTick → s.pos = s.cfg.n - 1 → t.ready = true) ∧
    (¬ s.servesTick → s.ph = 2 → t.ready = false)

/-- R41, R204: a step appends to the output history nothing, one Diag event, the two forward commands or the two
neutral commands, unit 0 first; nothing is ever removed but by reset. -/
def Obligations.OutputHistoryGrowsByTheFourKindsOfEvents : Prop :=
  ∀ s t : State, s.present.port.rst = false → step s = .next t →
    ∃ new, t.outHist = s.outHist ++ new ∧
      (new = [] ∨ (∃ sp m b f, new = [.diag sp m b f]) ∨
        new = [.cmdWrite 0 s.cfg.speedFwd0, .cmdWrite 1 s.cfg.speedFwd1] ∨
        new = [.cmdWrite 0 s.cfg.speedNeutral, .cmdWrite 1 s.cfg.speedNeutral])

/-! ### Whole-machine rules -/

/-- The invariant holds after reset under every legal configuration, whatever the environment will present. Its clause
`clsNoMatch` holds there by the model's choice of `cls`, which R47 leaves unspecified (log 7); its clauses on storage and
widths speak of the model's form of them (log 12, 13), and `State.reset` is the state under the reference configuration
by choice (log 1). -/
def Obligations.ResetStateMeetsTheInvariant : Prop :=
  (∀ (c : Config) (es : List EnvInput), c.wf = true → ((State.resetOf c).withInputs es).Inv) ∧ State.reset.Inv

/-- From every state that meets the invariant, and for every environment entry, a step completes: no fault, no refusal;
and the next state meets the invariant again (R240). -/
def Obligations.EveryStepCompletesAndKeepsTheInvariant : Prop :=
  ∀ s : State, s.Inv → ∃ t, step s = .next t ∧ t.Inv

/-- R206: in every run from reset, whenever the sequencer is in WaitingForNote both drive commands are neutral. -/
def Obligations.VehicleIsNeutralWhileWaiting : Prop :=
  ∀ (c : Config) (es : List EnvInput), c.wf = true → ∃ t, runInputs es (State.resetOf c) = .next t ∧
    (t.playing = false → t.cmd 0 = c.speedNeutral ∧ t.cmd 1 = c.speedNeutral)

/-- R202: in every run from reset without a further reset, a unit's standing command is the value of the last CmdWrite
to it, and neutral before the first. -/
def Obligations.StandingCommandIsTheLastOneSent : Prop :=
  ∀ (c : Config) (es : List EnvInput), c.wf = true → (∀ e ∈ es, e.rst = false) →
    ∃ t, runInputs es (State.resetOf c) = .next t ∧ ∀ u, t.cmd u = lastCmd u c.speedNeutral t.outHist

/-- R186: while Playing the loop controller's next operation is DISPATCH, DRIVE, PLAY_CHECK or STOP; a step taken while
Playing, of either agent, leaves the working buffer and the classifier's registers as they were and emits no Diag
event. -/
def Obligations.NothingIsDetectedWhilePlaying : Prop :=
  ∀ s t : State, s.Inv → s.playing = true → s.present.port.rst = false → step s = .next t →
    (decodePh s.ph = .ok .dispatch ∨ decodePh s.ph = .ok .drive ∨ decodePh s.ph = .ok .playCheck ∨
      decodePh s.ph = .ok .stop) ∧
    SameWork s t ∧ SameResult s t ∧ ∃ new, t.outHist = s.outHist ++ new ∧ ∀ sp m b f, Event.diag sp m b f ∉ new

/-- R190: from a Playing state, as long as every time presented is less than `STEP_DURATION` after the recorded start,
the block stays in Playing and sends no command to neutral, whatever ticks and readings come. -/
def Obligations.NoNeutralCommandBeforeTheStepIsOver : Prop :=
  ∀ (s : State) (es : List EnvInput), s.Inv → s.playing = true → s.ph ≠ 14 →
    (∀ e ∈ es, e.rst = false ∧ s.cfg.elapsed (e.now % 2 ^ s.cfg.timeW) s.startTime < s.cfg.stepDuration) →
    ∃ t new, runInputs es s = .next t ∧ t.playing = true ∧ t.startTime = s.startTime ∧
      t.outHist = s.outHist ++ new ∧ ∀ u, Event.cmdWrite u s.cfg.speedNeutral ∉ new

/-- R284: a Playing period ends without any tick, once the time is over: from DISPATCH in Playing, four steps of the
loop controller at times not before the end of the step send neutral to both units and return to WaitingForNote. -/
def Obligations.PlayingEndsWithoutTicksOnceTheTimeIsOver : Prop :=
  ∀ (s : State) (e1 e2 e3 e4 : EnvInput), s.Inv → s.playing = true → s.ph = 0 →
    e1.IsQuiet → e2.IsQuiet → e3.IsQuiet → e4.IsQuiet →
    s.cfg.stepDuration ≤ s.cfg.elapsed (e3.now % 2 ^ s.cfg.timeW) s.startTime →
    ∃ t, runInputs [e1, e2, e3, e4] s = .next t ∧ t.playing = false ∧ t.ph = 0 ∧
      t.outHist = s.outHist ++ [.cmdWrite 0 s.cfg.speedFwd0, .cmdWrite 1 s.cfg.speedFwd1,
        .cmdWrite 0 s.cfg.speedNeutral, .cmdWrite 1 s.cfg.speedNeutral] ∧
      t.cmd 0 = s.cfg.speedNeutral ∧ t.cmd 1 = s.cfg.speedNeutral

/-- R284, R259: without ticks a loop controller that waits in ACQUIRE with `ready = 0` changes no state of the block,
however long it waits. -/
def Obligations.WaitingWithoutTicksChangesNothing : Prop :=
  ∀ (s : State) (es : List EnvInput), s.tickPending = false → s.ph = 1 → s.ready = false → (∀ e ∈ es, e.IsQuiet) →
    ∃ t, runInputs es s = .next t ∧ SameStore s t ∧ SameLoop s t ∧ t.cfg = s.cfg ∧ t.tickPending = false

/-- R21, R126: a step that serves a tick changes nothing the loop controller owns, and leaves the stable bank alone. -/
def Obligations.SamplerTouchesOnlyTheFillingBank : Prop :=
  ∀ s t : State, s.present.port.rst = false → s.servesTick → step s = .next t →
    SameLoop s t ∧ (∀ i, t.readBank (1 - s.fill) i = s.readBank (1 - s.fill) i) ∧
    (∀ i, i ≠ s.pos → t.readBank s.fill i = s.readBank s.fill i)

/-- R21: a step of the loop controller writes no bank, neither `fill` nor `pos`, and depends on no bank but the stable
one: with the filling bank holding anything else, the step does the same. -/
def Obligations.LoopControllerNeverSeesTheFillingBank : Prop :=
  ∀ (s t : State) (m : Store Smp), s.present.port.rst = false → ¬ s.servesTick → step s = .next t →
    t.bank0 = s.bank0 ∧ t.bank1 = s.bank1 ∧ t.fill = s.fill ∧ t.pos = s.pos ∧
    step (if s.fill = 0 then { s with bank0 := m } else { s with bank1 := m }) =
      .next (if s.fill = 0 then { t with bank0 := m } else { t with bank1 := m })

/-- R47, U11: what the registers hold that reset leaves unspecified is never seen: two states that agree on everything
live at their phase take steps to states that agree again (so on every event and command). -/
def Obligations.UnspecifiedRegistersAreNeverSeen : Prop :=
  (∀ s t s' : State, s.Inv → LiveEqual s t → step s = .next s' → ∃ t', step t = .next t' ∧ LiveEqual s' t') ∧
  (∀ (c : Config) (es : List EnvInput) (sb : Fin 2) (re im : Store Value) (pb : Nat) (pm : Value) (df : Nat) (k : Cls)
    (st : Nat), c.wf = true →
    ∃ t u, runInputs es (State.resetOf c) = .next t ∧
      runInputs es { State.resetOf c with
        sb := sb, workRe := re, workIm := im, peakBin := pb, peakMag := pm, domFreqNum := df, cls := k,
        startTime := st } = .next u ∧
      u.outHist = t.outHist ∧ u.cmd0 = t.cmd0 ∧ u.cmd1 = t.cmd1 ∧ u.stepIdx = t.stepIdx ∧ u.playing = t.playing)

/-- R124, R26 (I4): in every run from reset without a further reset, whatever the loop controller does between the
ticks, `pos` and `fill` are those of the number of ticks, and `ready` is set only when a whole bank has been filled; with
ticks alone it is set exactly then. -/
def Obligations.SampleNumberIsTheCountOfTicks : Prop :=
  ∀ (c : Config) (es : List EnvInput), c.wf = true → (∀ e ∈ es, e.rst = false) →
    ∃ t, runInputs es (State.resetOf c) = .next t ∧ t.pos = es.countP (·.tick) % c.n ∧
      (t.fill : Nat) = es.countP (·.tick) / c.n % 2 ∧ (t.ready = true → c.n ≤ es.countP (·.tick)) ∧
      ((∀ e ∈ es, e.tick = true) → t.ready = decide (c.n ≤ es.length))

/-- R202: every step, reset included, keeps that each unit's standing command is the value of the last CmdWrite to it in
the output history, and neutral where there is none. -/
def Obligations.EveryStepKeepsTheStandingCommand : Prop :=
  ∀ s t : State, (∀ u, s.cmd u = lastCmd u s.cfg.speedNeutral s.outHist) → step s = .next t →
    ∀ u, t.cmd u = lastCmd u t.cfg.speedNeutral t.outHist
end

