-- ==== Sys2Proof/Laws/Number.lean ====
section
/-! SUPPORT. The exact operations are the operations of the real numbers: one lemma for each. -/

namespace Sys2Proof

namespace Value

@[simp] theorem val_rat (q : Rat) : (Value.rat q).val = (q : ℝ) := rfl
@[simp] theorem val_cosT (r : Rat) : (Value.cosT r).val = Real.cos (2 * Real.pi * (r : ℝ)) := rfl
@[simp] theorem val_param (k : Nat) : (Value.param k).val = Config.realParam k := rfl
@[simp] theorem val_plus (a b : Value) : (Value.plus a b).val = a.val + b.val := rfl
@[simp] theorem val_minus (a b : Value) : (Value.minus a b).val = a.val - b.val := rfl
@[simp] theorem val_times (a b : Value) : (Value.times a b).val = a.val * b.val := rfl
@[simp] theorem val_root (a : Value) : (Value.root a).val = √a.val := rfl
@[simp] theorem val_zero : Value.zero.val = 0 := by simp [Value.zero]

@[simp] theorem val_ofNat (n : Nat) : (Value.ofNat n).val = (n : ℝ) := by simp [Value.ofNat]

@[simp] theorem val_add (a b : Value) : (add a b).val = a.val + b.val := by
  unfold add
  split
  · simp
  · split_ifs with h <;> simp [h]
  · split_ifs with h <;> simp [h]
  · simp

@[simp] theorem val_sub (a b : Value) : (sub a b).val = a.val - b.val := by
  unfold sub
  split
  · simp
  · split_ifs with h <;> simp [h]
  · simp

@[simp] theorem val_mul (a b : Value) : (mul a b).val = a.val * b.val := by
  unfold mul
  split
  · simp
  · split_ifs with h h' <;> simp [*]
  · split_ifs with h h' <;> simp [*]
  · simp

@[simp] theorem val_divNat (a : Value) (n : Nat) : (divNat a n).val = a.val / (n : ℝ) := by
  simp [divNat, div_eq_mul_inv]

@[simp] theorem val_sqrt (a : Value) : (sqrt a).val = √a.val := by
  unfold sqrt
  split
  · rename_i q
    split_ifs with h0
    · simp [Real.sqrt_eq_zero_of_nonpos (show (q : ℝ) ≤ 0 by exact_mod_cast h0)]
    · dsimp only
      split_ifs with h
      · obtain ⟨h1, h2⟩ := h
        have hq : (q : ℝ) = ((isqrt q.num.natAbs : ℝ) / (isqrt q.den : ℝ)) ^ 2 := by
          have hn : ((q.num.natAbs : Nat) : ℝ) = (q.num : ℝ) := by
            have : (q.num.natAbs : Int) = q.num := Int.natAbs_of_nonneg (Rat.num_nonneg.mpr (le_of_lt (not_le.mp h0)))
            rw [← Int.cast_natCast, this]
          rw [div_pow, sq, sq, ← Nat.cast_mul, ← Nat.cast_mul, h1, h2, hn]
          exact_mod_cast (Rat.num_div_den q).symm
        simp only [val_rat, Rat.cast_div, Rat.cast_natCast]
        rw [hq, Real.sqrt_sq (by positivity)]
      · rfl
  · rfl

/-- The angle brought to half a turn has the same cosine. -/
theorem cos_foldTurn (r : Rat) : Real.cos (2 * Real.pi * (foldTurn r : ℝ)) = Real.cos (2 * Real.pi * (r : ℝ)) := by
  have hf : Real.cos (2 * Real.pi * ((r - (r.floor : Rat) : Rat) : ℝ)) = Real.cos (2 * Real.pi * (r : ℝ)) := by
    push_cast
    rw [show 2 * Real.pi * ((r : ℝ) - (r.floor : ℝ)) = 2 * Real.pi * (r : ℝ) - (r.floor : ℝ) * (2 * Real.pi) by ring]
    exact Real.cos_sub_int_mul_two_pi _ _
  unfold foldTurn
  dsimp only
  split_ifs
  · rw [← hf]
    push_cast
    rw [show 2 * Real.pi * (1 - ((r : ℝ) - (r.floor : ℝ))) = 2 * Real.pi - 2 * Real.pi * ((r : ℝ) - (r.floor : ℝ)) by
      ring, Real.cos_two_pi_sub]
  · exact hf

/-- `cos` is the cosine of the angle given in turns. -/
@[simp] theorem val_cos (r : Rat) : (cos r).val = Real.cos (2 * Real.pi * (r : ℝ)) := by
  rw [← cos_foldTurn]
  unfold cos
  dsimp only
  generalize foldTurn r = t
  split_ifs with h0 h6 h4 h3 h2
  · simp [h0]
  · subst h6
    rw [val_rat, show 2 * Real.pi * ((1 / 6 : Rat) : ℝ) = Real.pi / 3 by push_cast; ring, Real.cos_pi_div_three]
    norm_num
  · subst h4
    rw [val_rat, show 2 * Real.pi * ((1 / 4 : Rat) : ℝ) = Real.pi / 2 by push_cast; ring, Real.cos_pi_div_two]
    norm_num
  · subst h3
    rw [val_rat, show 2 * Real.pi * ((1 / 3 : Rat) : ℝ) = Real.pi - Real.pi / 3 by push_cast; ring,
      Real.cos_pi_sub, Real.cos_pi_div_three]
    norm_num
  · subst h2
    rw [val_rat, show 2 * Real.pi * ((1 / 2 : Rat) : ℝ) = Real.pi by push_cast; ring, Real.cos_pi]
    norm_num
  · rfl

/-- `sin` is the sine of the angle given in turns. -/
@[simp] theorem val_sin (r : Rat) : (sin r).val = Real.sin (2 * Real.pi * (r : ℝ)) := by
  rw [sin, val_cos, ← Real.cos_sub_pi_div_two]
  congr 1
  push_cast
  ring

/-- `gt` is the order of the real numbers, whatever numbers the named real parameters are. -/
theorem gt_iff (a b : Value) : gt a b = true ↔ b.val < a.val := by
  unfold gt
  split
  · simp
  · split_ifs with h hc
    · simp [h]
    · rw [Bool.and_eq_true] at hc
      rw [isPos_iff, val₀, valIn_minus, sub_pos, val, val, valIn_closed hc.1 Config.realParam fun _ => 0,
        valIn_closed hc.2 Config.realParam fun _ => 0]
    · exact Classical.choose_spec Config.realOrder.2 _ _

end Value

/-- Every choice of real numbers for the named parameters has its order, so the free order leaves none out. -/
theorem exists_isOrderOf (ρ : Nat → ℝ) : ∃ f : RealOrder, IsOrderOf ρ f.1 := by
  classical
  have h : IsOrderOf ρ fun a b => decide (b.valIn ρ < a.valIn ρ) := fun a b => by simp
  exact ⟨⟨_, ρ, h⟩, h⟩

namespace NumSys

/-- The order of the exact number system is the order of the real numbers. -/
@[simp] theorem exact_gt (a b : Value) : NumSys.exact.gt a b = true ↔ b.val < a.val := Value.gt_iff a b

@[simp] theorem exact_ofNat (n : Nat) : (NumSys.exact.ofNat n).val = (n : ℝ) := Value.val_ofNat n
@[simp] theorem exact_add (a b : Value) : (NumSys.exact.add a b).val = a.val + b.val := Value.val_add a b
@[simp] theorem exact_sub (a b : Value) : (NumSys.exact.sub a b).val = a.val - b.val := Value.val_sub a b
@[simp] theorem exact_mul (a b : Value) : (NumSys.exact.mul a b).val = a.val * b.val := Value.val_mul a b
@[simp] theorem exact_divNat (a : Value) (n : Nat) : (NumSys.exact.divNat a n).val = a.val / (n : ℝ) :=
  Value.val_divNat a n
@[simp] theorem exact_sqrt (a : Value) : (NumSys.exact.sqrt a).val = √a.val := Value.val_sqrt a
@[simp] theorem exact_cos (r : Rat) : (NumSys.exact.cos r).val = Real.cos (2 * Real.pi * (r : ℝ)) := Value.val_cos r
@[simp] theorem exact_sin (r : Rat) : (NumSys.exact.sin r).val = Real.sin (2 * Real.pi * (r : ℝ)) := Value.val_sin r

/-- A sum in exact arithmetic is the sum of the real numbers. -/
theorem exact_sum (lo hi : Nat) (f : Nat → Value) :
    (NumSys.exact.sum lo hi f).val = ∑ i ∈ Finset.Ico lo hi, (f i).val := by
  have key : ∀ (k a : Nat) (x : Value),
      ((List.range' a k).foldl (fun acc i => NumSys.exact.add acc (f i)) x).val =
        x.val + ∑ i ∈ Finset.Ico a (a + k), (f i).val := by
    intro k
    induction k with
    | zero => intro a x; simp
    | succ k ih =>
      intro a x
      rw [List.range'_succ, List.foldl_cons, ih, exact_add, Finset.sum_eq_sum_Ico_succ_bot (by omega : a < a + (k + 1))]
      rw [show a + 1 + k = a + (k + 1) by omega]
      ring
  rw [sum, key, Value.val_zero, zero_add]
  rcases Nat.le_total lo hi with h | h
  · rw [Nat.add_sub_cancel' h]
  · rw [Nat.sub_eq_zero_of_le h, Nat.add_zero, Finset.Ico_self, Finset.Ico_eq_empty (by omega)]

end NumSys

/-- A reference window coefficient is `0.54 - 0.46·cos(2πi/(N-1))` (spec/41_analyzer.md R142). -/
theorem hammingCoef_val (n i : Nat) :
    (hammingCoef n i).val = 0.54 - 0.46 * Real.cos (2 * Real.pi * (i : ℝ) / ((n : ℝ) - 1)) := by
  simp only [hammingCoef, Value.val_sub, Value.val_mul, Value.val_rat, Value.val_cos]
  push_cast
  rw [mul_div_assoc]
  norm_num

@[simp] theorem hammingWindow_length (n : Nat) : (hammingWindow n).length = n := by simp [hammingWindow]

end Sys2Proof
end

