-- ==== Sys2Proof/Laws/State.lean ====
section
/-! SUPPORT. What each update of the state leaves in each field. -/

namespace Sys2Proof.Machine

section
variable (s : State) (p : PhaseWord)

@[simp] theorem goto_cfg : (s.goto p).cfg = s.cfg := rfl
@[simp] theorem goto_bank0 : (s.goto p).bank0 = s.bank0 := rfl
@[simp] theorem goto_bank1 : (s.goto p).bank1 = s.bank1 := rfl
@[simp] theorem goto_fill : (s.goto p).fill = s.fill := rfl
@[simp] theorem goto_pos : (s.goto p).pos = s.pos := rfl
@[simp] theorem goto_ready : (s.goto p).ready = s.ready := rfl
@[simp] theorem goto_ph : (s.goto p).ph = p := rfl
@[simp] theorem goto_sb : (s.goto p).sb = s.sb := rfl
@[simp] theorem goto_workRe : (s.goto p).workRe = s.workRe := rfl
@[simp] theorem goto_workIm : (s.goto p).workIm = s.workIm := rfl
@[simp] theorem goto_peakBin : (s.goto p).peakBin = s.peakBin := rfl
@[simp] theorem goto_peakMag : (s.goto p).peakMag = s.peakMag := rfl
@[simp] theorem goto_domFreqNum : (s.goto p).domFreqNum = s.domFreqNum := rfl
@[simp] theorem goto_cls : (s.goto p).cls = s.cls := rfl
@[simp] theorem goto_stepIdx : (s.goto p).stepIdx = s.stepIdx := rfl
@[simp] theorem goto_playing : (s.goto p).playing = s.playing := rfl
@[simp] theorem goto_startTime : (s.goto p).startTime = s.startTime := rfl
@[simp] theorem goto_cmd0 : (s.goto p).cmd0 = s.cmd0 := rfl
@[simp] theorem goto_cmd1 : (s.goto p).cmd1 = s.cmd1 := rfl
@[simp] theorem goto_outHist : (s.goto p).outHist = s.outHist := rfl
@[simp] theorem goto_tickPending : (s.goto p).tickPending = s.tickPending := rfl
@[simp] theorem goto_port : (s.goto p).port = s.port := rfl
@[simp] theorem goto_inputs : (s.goto p).inputs = s.inputs := rfl
@[simp] theorem goto_envCount : (s.goto p).envCount = s.envCount := rfl

end

section
variable (s : State) (e : Event)

@[simp] theorem emit_cfg : (s.emit e).cfg = s.cfg := rfl
@[simp] theorem emit_bank0 : (s.emit e).bank0 = s.bank0 := rfl
@[simp] theorem emit_bank1 : (s.emit e).bank1 = s.bank1 := rfl
@[simp] theorem emit_fill : (s.emit e).fill = s.fill := rfl
@[simp] theorem emit_pos : (s.emit e).pos = s.pos := rfl
@[simp] theorem emit_ready : (s.emit e).ready = s.ready := rfl
@[simp] theorem emit_ph : (s.emit e).ph = s.ph := rfl
@[simp] theorem emit_sb : (s.emit e).sb = s.sb := rfl
@[simp] theorem emit_workRe : (s.emit e).workRe = s.workRe := rfl
@[simp] theorem emit_workIm : (s.emit e).workIm = s.workIm := rfl
@[simp] theorem emit_peakBin : (s.emit e).peakBin = s.peakBin := rfl
@[simp] theorem emit_peakMag : (s.emit e).peakMag = s.peakMag := rfl
@[simp] theorem emit_domFreqNum : (s.emit e).domFreqNum = s.domFreqNum := rfl
@[simp] theorem emit_cls : (s.emit e).cls = s.cls := rfl
@[simp] theorem emit_stepIdx : (s.emit e).stepIdx = s.stepIdx := rfl
@[simp] theorem emit_playing : (s.emit e).playing = s.playing := rfl
@[simp] theorem emit_startTime : (s.emit e).startTime = s.startTime := rfl
@[simp] theorem emit_cmd0 : (s.emit e).cmd0 = s.cmd0 := rfl
@[simp] theorem emit_cmd1 : (s.emit e).cmd1 = s.cmd1 := rfl
@[simp] theorem emit_outHist : (s.emit e).outHist = s.outHist ++ [e] := rfl
@[simp] theorem emit_tickPending : (s.emit e).tickPending = s.tickPending := rfl
@[simp] theorem emit_port : (s.emit e).port = s.port := rfl
@[simp] theorem emit_inputs : (s.emit e).inputs = s.inputs := rfl
@[simp] theorem emit_envCount : (s.emit e).envCount = s.envCount := rfl

end

section
variable (s : State)

@[simp] theorem setReady_cfg : (s.setReady).cfg = s.cfg := rfl
@[simp] theorem setReady_bank0 : (s.setReady).bank0 = s.bank0 := rfl
@[simp] theorem setReady_bank1 : (s.setReady).bank1 = s.bank1 := rfl
@[simp] theorem setReady_fill : (s.setReady).fill = s.fill := rfl
@[simp] theorem setReady_pos : (s.setReady).pos = s.pos := rfl
@[simp] theorem setReady_ready : (s.setReady).ready = true := rfl
@[simp] theorem setReady_ph : (s.setReady).ph = s.ph := rfl
@[simp] theorem setReady_sb : (s.setReady).sb = s.sb := rfl
@[simp] theorem setReady_workRe : (s.setReady).workRe = s.workRe := rfl
@[simp] theorem setReady_workIm : (s.setReady).workIm = s.workIm := rfl
@[simp] theorem setReady_peakBin : (s.setReady).peakBin = s.peakBin := rfl
@[simp] theorem setReady_peakMag : (s.setReady).peakMag = s.peakMag := rfl
@[simp] theorem setReady_domFreqNum : (s.setReady).domFreqNum = s.domFreqNum := rfl
@[simp] theorem setReady_cls : (s.setReady).cls = s.cls := rfl
@[simp] theorem setReady_stepIdx : (s.setReady).stepIdx = s.stepIdx := rfl
@[simp] theorem setReady_playing : (s.setReady).playing = s.playing := rfl
@[simp] theorem setReady_startTime : (s.setReady).startTime = s.startTime := rfl
@[simp] theorem setReady_cmd0 : (s.setReady).cmd0 = s.cmd0 := rfl
@[simp] theorem setReady_cmd1 : (s.setReady).cmd1 = s.cmd1 := rfl
@[simp] theorem setReady_outHist : (s.setReady).outHist = s.outHist := rfl
@[simp] theorem setReady_tickPending : (s.setReady).tickPending = s.tickPending := rfl
@[simp] theorem setReady_port : (s.setReady).port = s.port := rfl
@[simp] theorem setReady_inputs : (s.setReady).inputs = s.inputs := rfl
@[simp] theorem setReady_envCount : (s.setReady).envCount = s.envCount := rfl

end

section
variable (s : State)

@[simp] theorem clearReady_cfg : (s.clearReady).cfg = s.cfg := rfl
@[simp] theorem clearReady_bank0 : (s.clearReady).bank0 = s.bank0 := rfl
@[simp] theorem clearReady_bank1 : (s.clearReady).bank1 = s.bank1 := rfl
@[simp] theorem clearReady_fill : (s.clearReady).fill = s.fill := rfl
@[simp] theorem clearReady_pos : (s.clearReady).pos = s.pos := rfl
@[simp] theorem clearReady_ready : (s.clearReady).ready = false := rfl
@[simp] theorem clearReady_ph : (s.clearReady).ph = s.ph := rfl
@[simp] theorem clearReady_sb : (s.clearReady).sb = s.sb := rfl
@[simp] theorem clearReady_workRe : (s.clearReady).workRe = s.workRe := rfl
@[simp] theorem clearReady_workIm : (s.clearReady).workIm = s.workIm := rfl
@[simp] theorem clearReady_peakBin : (s.clearReady).peakBin = s.peakBin := rfl
@[simp] theorem clearReady_peakMag : (s.clearReady).peakMag = s.peakMag := rfl
@[simp] theorem clearReady_domFreqNum : (s.clearReady).domFreqNum = s.domFreqNum := rfl
@[simp] theorem clearReady_cls : (s.clearReady).cls = s.cls := rfl
@[simp] theorem clearReady_stepIdx : (s.clearReady).stepIdx = s.stepIdx := rfl
@[simp] theorem clearReady_playing : (s.clearReady).playing = s.playing := rfl
@[simp] theorem clearReady_startTime : (s.clearReady).startTime = s.startTime := rfl
@[simp] theorem clearReady_cmd0 : (s.clearReady).cmd0 = s.cmd0 := rfl
@[simp] theorem clearReady_cmd1 : (s.clearReady).cmd1 = s.cmd1 := rfl
@[simp] theorem clearReady_outHist : (s.clearReady).outHist = s.outHist := rfl
@[simp] theorem clearReady_tickPending : (s.clearReady).tickPending = s.tickPending := rfl
@[simp] theorem clearReady_port : (s.clearReady).port = s.port := rfl
@[simp] theorem clearReady_inputs : (s.clearReady).inputs = s.inputs := rfl
@[simp] theorem clearReady_envCount : (s.clearReady).envCount = s.envCount := rfl

end

section
variable (s : State)

@[simp] theorem flipFill_cfg : (s.flipFill).cfg = s.cfg := rfl
@[simp] theorem flipFill_bank0 : (s.flipFill).bank0 = s.bank0 := rfl
@[simp] theorem flipFill_bank1 : (s.flipFill).bank1 = s.bank1 := rfl
@[simp] theorem flipFill_fill : (s.flipFill).fill = 1 - s.fill := rfl
@[simp] theorem flipFill_pos : (s.flipFill).pos = s.pos := rfl
@[simp] theorem flipFill_ready : (s.flipFill).ready = s.ready := rfl
@[simp] theorem flipFill_ph : (s.flipFill).ph = s.ph := rfl
@[simp] theorem flipFill_sb : (s.flipFill).sb = s.sb := rfl
@[simp] theorem flipFill_workRe : (s.flipFill).workRe = s.workRe := rfl
@[simp] theorem flipFill_workIm : (s.flipFill).workIm = s.workIm := rfl
@[simp] theorem flipFill_peakBin : (s.flipFill).peakBin = s.peakBin := rfl
@[simp] theorem flipFill_peakMag : (s.flipFill).peakMag = s.peakMag := rfl
@[simp] theorem flipFill_domFreqNum : (s.flipFill).domFreqNum = s.domFreqNum := rfl
@[simp] theorem flipFill_cls : (s.flipFill).cls = s.cls := rfl
@[simp] theorem flipFill_stepIdx : (s.flipFill).stepIdx = s.stepIdx := rfl
@[simp] theorem flipFill_playing : (s.flipFill).playing = s.playing := rfl
@[simp] theorem flipFill_startTime : (s.flipFill).startTime = s.startTime := rfl
@[simp] theorem flipFill_cmd0 : (s.flipFill).cmd0 = s.cmd0 := rfl
@[simp] theorem flipFill_cmd1 : (s.flipFill).cmd1 = s.cmd1 := rfl
@[simp] theorem flipFill_outHist : (s.flipFill).outHist = s.outHist := rfl
@[simp] theorem flipFill_tickPending : (s.flipFill).tickPending = s.tickPending := rfl
@[simp] theorem flipFill_port : (s.flipFill).port = s.port := rfl
@[simp] theorem flipFill_inputs : (s.flipFill).inputs = s.inputs := rfl
@[simp] theorem flipFill_envCount : (s.flipFill).envCount = s.envCount := rfl

end

section
variable (s : State)

@[simp] theorem setPlaying_cfg : (s.setPlaying).cfg = s.cfg := rfl
@[simp] theorem setPlaying_bank0 : (s.setPlaying).bank0 = s.bank0 := rfl
@[simp] theorem setPlaying_bank1 : (s.setPlaying).bank1 = s.bank1 := rfl
@[simp] theorem setPlaying_fill : (s.setPlaying).fill = s.fill := rfl
@[simp] theorem setPlaying_pos : (s.setPlaying).pos = s.pos := rfl
@[simp] theorem setPlaying_ready : (s.setPlaying).ready = s.ready := rfl
@[simp] theorem setPlaying_ph : (s.setPlaying).ph = s.ph := rfl
@[simp] theorem setPlaying_sb : (s.setPlaying).sb = s.sb := rfl
@[simp] theorem setPlaying_workRe : (s.setPlaying).workRe = s.workRe := rfl
@[simp] theorem setPlaying_workIm : (s.setPlaying).workIm = s.workIm := rfl
@[simp] theorem setPlaying_peakBin : (s.setPlaying).peakBin = s.peakBin := rfl
@[simp] theorem setPlaying_peakMag : (s.setPlaying).peakMag = s.peakMag := rfl
@[simp] theorem setPlaying_domFreqNum : (s.setPlaying).domFreqNum = s.domFreqNum := rfl
@[simp] theorem setPlaying_cls : (s.setPlaying).cls = s.cls := rfl
@[simp] theorem setPlaying_stepIdx : (s.setPlaying).stepIdx = s.stepIdx := rfl
@[simp] theorem setPlaying_playing : (s.setPlaying).playing = true := rfl
@[simp] theorem setPlaying_startTime : (s.setPlaying).startTime = s.startTime := rfl
@[simp] theorem setPlaying_cmd0 : (s.setPlaying).cmd0 = s.cmd0 := rfl
@[simp] theorem setPlaying_cmd1 : (s.setPlaying).cmd1 = s.cmd1 := rfl
@[simp] theorem setPlaying_outHist : (s.setPlaying).outHist = s.outHist := rfl
@[simp] theorem setPlaying_tickPending : (s.setPlaying).tickPending = s.tickPending := rfl
@[simp] theorem setPlaying_port : (s.setPlaying).port = s.port := rfl
@[simp] theorem setPlaying_inputs : (s.setPlaying).inputs = s.inputs := rfl
@[simp] theorem setPlaying_envCount : (s.setPlaying).envCount = s.envCount := rfl

end

section
variable (s : State)

@[simp] theorem clearPlaying_cfg : (s.clearPlaying).cfg = s.cfg := rfl
@[simp] theorem clearPlaying_bank0 : (s.clearPlaying).bank0 = s.bank0 := rfl
@[simp] theorem clearPlaying_bank1 : (s.clearPlaying).bank1 = s.bank1 := rfl
@[simp] theorem clearPlaying_fill : (s.clearPlaying).fill = s.fill := rfl
@[simp] theorem clearPlaying_pos : (s.clearPlaying).pos = s.pos := rfl
@[simp] theorem clearPlaying_ready : (s.clearPlaying).ready = s.ready := rfl
@[simp] theorem clearPlaying_ph : (s.clearPlaying).ph = s.ph := rfl
@[simp] theorem clearPlaying_sb : (s.clearPlaying).sb = s.sb := rfl
@[simp] theorem clearPlaying_workRe : (s.clearPlaying).workRe = s.workRe := rfl
@[simp] theorem clearPlaying_workIm : (s.clearPlaying).workIm = s.workIm := rfl
@[simp] theorem clearPlaying_peakBin : (s.clearPlaying).peakBin = s.peakBin := rfl
@[simp] theorem clearPlaying_peakMag : (s.clearPlaying).peakMag = s.peakMag := rfl
@[simp] theorem clearPlaying_domFreqNum : (s.clearPlaying).domFreqNum = s.domFreqNum := rfl
@[simp] theorem clearPlaying_cls : (s.clearPlaying).cls = s.cls := rfl
@[simp] theorem clearPlaying_stepIdx : (s.clearPlaying).stepIdx = s.stepIdx := rfl
@[simp] theorem clearPlaying_playing : (s.clearPlaying).playing = false := rfl
@[simp] theorem clearPlaying_startTime : (s.clearPlaying).startTime = s.startTime := rfl
@[simp] theorem clearPlaying_cmd0 : (s.clearPlaying).cmd0 = s.cmd0 := rfl
@[simp] theorem clearPlaying_cmd1 : (s.clearPlaying).cmd1 = s.cmd1 := rfl
@[simp] theorem clearPlaying_outHist : (s.clearPlaying).outHist = s.outHist := rfl
@[simp] theorem clearPlaying_tickPending : (s.clearPlaying).tickPending = s.tickPending := rfl
@[simp] theorem clearPlaying_port : (s.clearPlaying).port = s.port := rfl
@[simp] theorem clearPlaying_inputs : (s.clearPlaying).inputs = s.inputs := rfl
@[simp] theorem clearPlaying_envCount : (s.clearPlaying).envCount = s.envCount := rfl

end

section
variable (s : State)

@[simp] theorem requestTick_cfg : (s.requestTick).cfg = s.cfg := rfl
@[simp] theorem requestTick_bank0 : (s.requestTick).bank0 = s.bank0 := rfl
@[simp] theorem requestTick_bank1 : (s.requestTick).bank1 = s.bank1 := rfl
@[simp] theorem requestTick_fill : (s.requestTick).fill = s.fill := rfl
@[simp] theorem requestTick_pos : (s.requestTick).pos = s.pos := rfl
@[simp] theorem requestTick_ready : (s.requestTick).ready = s.ready := rfl
@[simp] theorem requestTick_ph : (s.requestTick).ph = s.ph := rfl
@[simp] theorem requestTick_sb : (s.requestTick).sb = s.sb := rfl
@[simp] theorem requestTick_workRe : (s.requestTick).workRe = s.workRe := rfl
@[simp] theorem requestTick_workIm : (s.requestTick).workIm = s.workIm := rfl
@[simp] theorem requestTick_peakBin : (s.requestTick).peakBin = s.peakBin := rfl
@[simp] theorem requestTick_peakMag : (s.requestTick).peakMag = s.peakMag := rfl
@[simp] theorem requestTick_domFreqNum : (s.requestTick).domFreqNum = s.domFreqNum := rfl
@[simp] theorem requestTick_cls : (s.requestTick).cls = s.cls := rfl
@[simp] theorem requestTick_stepIdx : (s.requestTick).stepIdx = s.stepIdx := rfl
@[simp] theorem requestTick_playing : (s.requestTick).playing = s.playing := rfl
@[simp] theorem requestTick_startTime : (s.requestTick).startTime = s.startTime := rfl
@[simp] theorem requestTick_cmd0 : (s.requestTick).cmd0 = s.cmd0 := rfl
@[simp] theorem requestTick_cmd1 : (s.requestTick).cmd1 = s.cmd1 := rfl
@[simp] theorem requestTick_outHist : (s.requestTick).outHist = s.outHist := rfl
@[simp] theorem requestTick_tickPending : (s.requestTick).tickPending = true := rfl
@[simp] theorem requestTick_port : (s.requestTick).port = s.port := rfl
@[simp] theorem requestTick_inputs : (s.requestTick).inputs = s.inputs := rfl
@[simp] theorem requestTick_envCount : (s.requestTick).envCount = s.envCount := rfl

end

section
variable (s : State)

@[simp] theorem serveTick_cfg : (s.serveTick).cfg = s.cfg := rfl
@[simp] theorem serveTick_bank0 : (s.serveTick).bank0 = s.bank0 := rfl
@[simp] theorem serveTick_bank1 : (s.serveTick).bank1 = s.bank1 := rfl
@[simp] theorem serveTick_fill : (s.serveTick).fill = s.fill := rfl
@[simp] theorem serveTick_pos : (s.serveTick).pos = s.pos := rfl
@[simp] theorem serveTick_ready : (s.serveTick).ready = s.ready := rfl
@[simp] theorem serveTick_ph : (s.serveTick).ph = s.ph := rfl
@[simp] theorem serveTick_sb : (s.serveTick).sb = s.sb := rfl
@[simp] theorem serveTick_workRe : (s.serveTick).workRe = s.workRe := rfl
@[simp] theorem serveTick_workIm : (s.serveTick).workIm = s.workIm := rfl
@[simp] theorem serveTick_peakBin : (s.serveTick).peakBin = s.peakBin := rfl
@[simp] theorem serveTick_peakMag : (s.serveTick).peakMag = s.peakMag := rfl
@[simp] theorem serveTick_domFreqNum : (s.serveTick).domFreqNum = s.domFreqNum := rfl
@[simp] theorem serveTick_cls : (s.serveTick).cls = s.cls := rfl
@[simp] theorem serveTick_stepIdx : (s.serveTick).stepIdx = s.stepIdx := rfl
@[simp] theorem serveTick_playing : (s.serveTick).playing = s.playing := rfl
@[simp] theorem serveTick_startTime : (s.serveTick).startTime = s.startTime := rfl
@[simp] theorem serveTick_cmd0 : (s.serveTick).cmd0 = s.cmd0 := rfl
@[simp] theorem serveTick_cmd1 : (s.serveTick).cmd1 = s.cmd1 := rfl
@[simp] theorem serveTick_outHist : (s.serveTick).outHist = s.outHist := rfl
@[simp] theorem serveTick_tickPending : (s.serveTick).tickPending = false := rfl
@[simp] theorem serveTick_port : (s.serveTick).port = s.port := rfl
@[simp] theorem serveTick_inputs : (s.serveTick).inputs = s.inputs := rfl
@[simp] theorem serveTick_envCount : (s.serveTick).envCount = s.envCount := rfl

end

section
variable (s : State) (f : Nat → Value)

@[simp] theorem fillRe_cfg : (s.fillRe f).cfg = s.cfg := rfl
@[simp] theorem fillRe_bank0 : (s.fillRe f).bank0 = s.bank0 := rfl
@[simp] theorem fillRe_bank1 : (s.fillRe f).bank1 = s.bank1 := rfl
@[simp] theorem fillRe_fill : (s.fillRe f).fill = s.fill := rfl
@[simp] theorem fillRe_pos : (s.fillRe f).pos = s.pos := rfl
@[simp] theorem fillRe_ready : (s.fillRe f).ready = s.ready := rfl
@[simp] theorem fillRe_ph : (s.fillRe f).ph = s.ph := rfl
@[simp] theorem fillRe_sb : (s.fillRe f).sb = s.sb := rfl
@[simp] theorem fillRe_workRe : (s.fillRe f).workRe = Store.ofFn Value.zero s.cfg.n f := rfl
@[simp] theorem fillRe_workIm : (s.fillRe f).workIm = s.workIm := rfl
@[simp] theorem fillRe_peakBin : (s.fillRe f).peakBin = s.peakBin := rfl
@[simp] theorem fillRe_peakMag : (s.fillRe f).peakMag = s.peakMag := rfl
@[simp] theorem fillRe_domFreqNum : (s.fillRe f).domFreqNum = s.domFreqNum := rfl
@[simp] theorem fillRe_cls : (s.fillRe f).cls = s.cls := rfl
@[simp] theorem fillRe_stepIdx : (s.fillRe f).stepIdx = s.stepIdx := rfl
@[simp] theorem fillRe_playing : (s.fillRe f).playing = s.playing := rfl
@[simp] theorem fillRe_startTime : (s.fillRe f).startTime = s.startTime := rfl
@[simp] theorem fillRe_cmd0 : (s.fillRe f).cmd0 = s.cmd0 := rfl
@[simp] theorem fillRe_cmd1 : (s.fillRe f).cmd1 = s.cmd1 := rfl
@[simp] theorem fillRe_outHist : (s.fillRe f).outHist = s.outHist := rfl
@[simp] theorem fillRe_tickPending : (s.fillRe f).tickPending = s.tickPending := rfl
@[simp] theorem fillRe_port : (s.fillRe f).port = s.port := rfl
@[simp] theorem fillRe_inputs : (s.fillRe f).inputs = s.inputs := rfl
@[simp] theorem fillRe_envCount : (s.fillRe f).envCount = s.envCount := rfl

end

section
variable (s : State) (f : Nat → Value)

@[simp] theorem fillIm_cfg : (s.fillIm f).cfg = s.cfg := rfl
@[simp] theorem fillIm_bank0 : (s.fillIm f).bank0 = s.bank0 := rfl
@[simp] theorem fillIm_bank1 : (s.fillIm f).bank1 = s.bank1 := rfl
@[simp] theorem fillIm_fill : (s.fillIm f).fill = s.fill := rfl
@[simp] theorem fillIm_pos : (s.fillIm f).pos = s.pos := rfl
@[simp] theorem fillIm_ready : (s.fillIm f).ready = s.ready := rfl
@[simp] theorem fillIm_ph : (s.fillIm f).ph = s.ph := rfl
@[simp] theorem fillIm_sb : (s.fillIm f).sb = s.sb := rfl
@[simp] theorem fillIm_workRe : (s.fillIm f).workRe = s.workRe := rfl
@[simp] theorem fillIm_workIm : (s.fillIm f).workIm = Store.ofFn Value.zero s.cfg.n f := rfl
@[simp] theorem fillIm_peakBin : (s.fillIm f).peakBin = s.peakBin := rfl
@[simp] theorem fillIm_peakMag : (s.fillIm f).peakMag = s.peakMag := rfl
@[simp] theorem fillIm_domFreqNum : (s.fillIm f).domFreqNum = s.domFreqNum := rfl
@[simp] theorem fillIm_cls : (s.fillIm f).cls = s.cls := rfl
@[simp] theorem fillIm_stepIdx : (s.fillIm f).stepIdx = s.stepIdx := rfl
@[simp] theorem fillIm_playing : (s.fillIm f).playing = s.playing := rfl
@[simp] theorem fillIm_startTime : (s.fillIm f).startTime = s.startTime := rfl
@[simp] theorem fillIm_cmd0 : (s.fillIm f).cmd0 = s.cmd0 := rfl
@[simp] theorem fillIm_cmd1 : (s.fillIm f).cmd1 = s.cmd1 := rfl
@[simp] theorem fillIm_outHist : (s.fillIm f).outHist = s.outHist := rfl
@[simp] theorem fillIm_tickPending : (s.fillIm f).tickPending = s.tickPending := rfl
@[simp] theorem fillIm_port : (s.fillIm f).port = s.port := rfl
@[simp] theorem fillIm_inputs : (s.fillIm f).inputs = s.inputs := rfl
@[simp] theorem fillIm_envCount : (s.fillIm f).envCount = s.envCount := rfl

end

section
variable (s : State) (b : Fin 2) (i : Nat) (v : Smp)

@[simp] theorem writeBank_cfg : (s.writeBank b i v).cfg = s.cfg := by
  unfold State.writeBank; split <;> rfl
@[simp] theorem writeBank_fill : (s.writeBank b i v).fill = s.fill := by
  unfold State.writeBank; split <;> rfl
@[simp] theorem writeBank_pos : (s.writeBank b i v).pos = s.pos := by
  unfold State.writeBank; split <;> rfl
@[simp] theorem writeBank_ready : (s.writeBank b i v).ready = s.ready := by
  unfold State.writeBank; split <;> rfl
@[simp] theorem writeBank_ph : (s.writeBank b i v).ph = s.ph := by
  unfold State.writeBank; split <;> rfl
@[simp] theorem writeBank_sb : (s.writeBank b i v).sb = s.sb := by
  unfold State.writeBank; split <;> rfl
@[simp] theorem writeBank_workRe : (s.writeBank b i v).workRe = s.workRe := by
  unfold State.writeBank; split <;> rfl
@[simp] theorem writeBank_workIm : (s.writeBank b i v).workIm = s.workIm := by
  unfold State.writeBank; split <;> rfl
@[simp] theorem writeBank_peakBin : (s.writeBank b i v).peakBin = s.peakBin := by
  unfold State.writeBank; split <;> rfl
@[simp] theorem writeBank_peakMag : (s.writeBank b i v).peakMag = s.peakMag := by
  unfold State.writeBank; split <;> rfl
@[simp] theorem writeBank_domFreqNum : (s.writeBank b i v).domFreqNum = s.domFreqNum := by
  unfold State.writeBank; split <;> rfl
@[simp] theorem writeBank_cls : (s.writeBank b i v).cls = s.cls := by
  unfold State.writeBank; split <;> rfl
@[simp] theorem writeBank_stepIdx : (s.writeBank b i v).stepIdx = s.stepIdx := by
  unfold State.writeBank; split <;> rfl
@[simp] theorem writeBank_playing : (s.writeBank b i v).playing = s.playing := by
  unfold State.writeBank; split <;> rfl
@[simp] theorem writeBank_startTime : (s.writeBank b i v).startTime = s.startTime := by
  unfold State.writeBank; split <;> rfl
@[simp] theorem writeBank_cmd0 : (s.writeBank b i v).cmd0 = s.cmd0 := by
  unfold State.writeBank; split <;> rfl
@[simp] theorem writeBank_cmd1 : (s.writeBank b i v).cmd1 = s.cmd1 := by
  unfold State.writeBank; split <;> rfl
@[simp] theorem writeBank_outHist : (s.writeBank b i v).outHist = s.outHist := by
  unfold State.writeBank; split <;> rfl
@[simp] theorem writeBank_tickPending : (s.writeBank b i v).tickPending = s.tickPending := by
  unfold State.writeBank; split <;> rfl
@[simp] theorem writeBank_port : (s.writeBank b i v).port = s.port := by
  unfold State.writeBank; split <;> rfl
@[simp] theorem writeBank_inputs : (s.writeBank b i v).inputs = s.inputs := by
  unfold State.writeBank; split <;> rfl
@[simp] theorem writeBank_envCount : (s.writeBank b i v).envCount = s.envCount := by
  unfold State.writeBank; split <;> rfl

end

section
variable (s : State) (u : Fin 2) (v : Nat)

@[simp] theorem writeCmd_cfg : (s.writeCmd u v).cfg = s.cfg := by
  unfold State.writeCmd; split <;> rfl
@[simp] theorem writeCmd_bank0 : (s.writeCmd u v).bank0 = s.bank0 := by
  unfold State.writeCmd; split <;> rfl
@[simp] theorem writeCmd_bank1 : (s.writeCmd u v).bank1 = s.bank1 := by
  unfold State.writeCmd; split <;> rfl
@[simp] theorem writeCmd_fill : (s.writeCmd u v).fill = s.fill := by
  unfold State.writeCmd; split <;> rfl
@[simp] theorem writeCmd_pos : (s.writeCmd u v).pos = s.pos := by
  unfold State.writeCmd; split <;> rfl
@[simp] theorem writeCmd_ready : (s.writeCmd u v).ready = s.ready := by
  unfold State.writeCmd; split <;> rfl
@[simp] theorem writeCmd_ph : (s.writeCmd u v).ph = s.ph := by
  unfold State.writeCmd; split <;> rfl
@[simp] theorem writeCmd_sb : (s.writeCmd u v).sb = s.sb := by
  unfold State.writeCmd; split <;> rfl
@[simp] theorem writeCmd_workRe : (s.writeCmd u v).workRe = s.workRe := by
  unfold State.writeCmd; split <;> rfl
@[simp] theorem writeCmd_workIm : (s.writeCmd u v).workIm = s.workIm := by
  unfold State.writeCmd; split <;> rfl
@[simp] theorem writeCmd_peakBin : (s.writeCmd u v).peakBin = s.peakBin := by
  unfold State.writeCmd; split <;> rfl
@[simp] theorem writeCmd_peakMag : (s.writeCmd u v).peakMag = s.peakMag := by
  unfold State.writeCmd; split <;> rfl
@[simp] theorem writeCmd_domFreqNum : (s.writeCmd u v).domFreqNum = s.domFreqNum := by
  unfold State.writeCmd; split <;> rfl
@[simp] theorem writeCmd_cls : (s.writeCmd u v).cls = s.cls := by
  unfold State.writeCmd; split <;> rfl
@[simp] theorem writeCmd_stepIdx : (s.writeCmd u v).stepIdx = s.stepIdx := by
  unfold State.writeCmd; split <;> rfl
@[simp] theorem writeCmd_playing : (s.writeCmd u v).playing = s.playing := by
  unfold State.writeCmd; split <;> rfl
@[simp] theorem writeCmd_startTime : (s.writeCmd u v).startTime = s.startTime := by
  unfold State.writeCmd; split <;> rfl
@[simp] theorem writeCmd_outHist : (s.writeCmd u v).outHist = s.outHist ++ [.cmdWrite u v] := by
  unfold State.writeCmd; split <;> rfl
@[simp] theorem writeCmd_tickPending : (s.writeCmd u v).tickPending = s.tickPending := by
  unfold State.writeCmd; split <;> rfl
@[simp] theorem writeCmd_port : (s.writeCmd u v).port = s.port := by
  unfold State.writeCmd; split <;> rfl
@[simp] theorem writeCmd_inputs : (s.writeCmd u v).inputs = s.inputs := by
  unfold State.writeCmd; split <;> rfl
@[simp] theorem writeCmd_envCount : (s.writeCmd u v).envCount = s.envCount := by
  unfold State.writeCmd; split <;> rfl

end

section
variable (s : State) (b : Fin 2)

@[simp] theorem latchBank_cfg : (s.latchBank b).cfg = s.cfg := rfl
@[simp] theorem latchBank_bank0 : (s.latchBank b).bank0 = s.bank0 := rfl
@[simp] theorem latchBank_bank1 : (s.latchBank b).bank1 = s.bank1 := rfl
@[simp] theorem latchBank_fill : (s.latchBank b).fill = s.fill := rfl
@[simp] theorem latchBank_pos : (s.latchBank b).pos = s.pos := rfl
@[simp] theorem latchBank_ready : (s.latchBank b).ready = s.ready := rfl
@[simp] theorem latchBank_ph : (s.latchBank b).ph = s.ph := rfl
@[simp] theorem latchBank_sb : (s.latchBank b).sb = b := rfl
@[simp] theorem latchBank_workRe : (s.latchBank b).workRe = s.workRe := rfl
@[simp] theorem latchBank_workIm : (s.latchBank b).workIm = s.workIm := rfl
@[simp] theorem latchBank_peakBin : (s.latchBank b).peakBin = s.peakBin := rfl
@[simp] theorem latchBank_peakMag : (s.latchBank b).peakMag = s.peakMag := rfl
@[simp] theorem latchBank_domFreqNum : (s.latchBank b).domFreqNum = s.domFreqNum := rfl
@[simp] theorem latchBank_cls : (s.latchBank b).cls = s.cls := rfl
@[simp] theorem latchBank_stepIdx : (s.latchBank b).stepIdx = s.stepIdx := rfl
@[simp] theorem latchBank_playing : (s.latchBank b).playing = s.playing := rfl
@[simp] theorem latchBank_startTime : (s.latchBank b).startTime = s.startTime := rfl
@[simp] theorem latchBank_cmd0 : (s.latchBank b).cmd0 = s.cmd0 := rfl
@[simp] theorem latchBank_cmd1 : (s.latchBank b).cmd1 = s.cmd1 := rfl
@[simp] theorem latchBank_outHist : (s.latchBank b).outHist = s.outHist := rfl
@[simp] theorem latchBank_tickPending : (s.latchBank b).tickPending = s.tickPending := rfl
@[simp] theorem latchBank_port : (s.latchBank b).port = s.port := rfl
@[simp] theorem latchBank_inputs : (s.latchBank b).inputs = s.inputs := rfl
@[simp] theorem latchBank_envCount : (s.latchBank b).envCount = s.envCount := rfl

end

section
variable (s : State) (b : Nat) (m : Value)

@[simp] theorem recordPeak_cfg : (s.recordPeak b m).cfg = s.cfg := rfl
@[simp] theorem recordPeak_bank0 : (s.recordPeak b m).bank0 = s.bank0 := rfl
@[simp] theorem recordPeak_bank1 : (s.recordPeak b m).bank1 = s.bank1 := rfl
@[simp] theorem recordPeak_fill : (s.recordPeak b m).fill = s.fill := rfl
@[simp] theorem recordPeak_pos : (s.recordPeak b m).pos = s.pos := rfl
@[simp] theorem recordPeak_ready : (s.recordPeak b m).ready = s.ready := rfl
@[simp] theorem recordPeak_ph : (s.recordPeak b m).ph = s.ph := rfl
@[simp] theorem recordPeak_sb : (s.recordPeak b m).sb = s.sb := rfl
@[simp] theorem recordPeak_workRe : (s.recordPeak b m).workRe = s.workRe := rfl
@[simp] theorem recordPeak_workIm : (s.recordPeak b m).workIm = s.workIm := rfl
@[simp] theorem recordPeak_peakBin : (s.recordPeak b m).peakBin = b := rfl
@[simp] theorem recordPeak_peakMag : (s.recordPeak b m).peakMag = m := rfl
@[simp] theorem recordPeak_domFreqNum : (s.recordPeak b m).domFreqNum = s.domFreqNum := rfl
@[simp] theorem recordPeak_cls : (s.recordPeak b m).cls = s.cls := rfl
@[simp] theorem recordPeak_stepIdx : (s.recordPeak b m).stepIdx = s.stepIdx := rfl
@[simp] theorem recordPeak_playing : (s.recordPeak b m).playing = s.playing := rfl
@[simp] theorem recordPeak_startTime : (s.recordPeak b m).startTime = s.startTime := rfl
@[simp] theorem recordPeak_cmd0 : (s.recordPeak b m).cmd0 = s.cmd0 := rfl
@[simp] theorem recordPeak_cmd1 : (s.recordPeak b m).cmd1 = s.cmd1 := rfl
@[simp] theorem recordPeak_outHist : (s.recordPeak b m).outHist = s.outHist := rfl
@[simp] theorem recordPeak_tickPending : (s.recordPeak b m).tickPending = s.tickPending := rfl
@[simp] theorem recordPeak_port : (s.recordPeak b m).port = s.port := rfl
@[simp] theorem recordPeak_inputs : (s.recordPeak b m).inputs = s.inputs := rfl
@[simp] theorem recordPeak_envCount : (s.recordPeak b m).envCount = s.envCount := rfl

end

section
variable (s : State) (f : Nat)

@[simp] theorem recordFreq_cfg : (s.recordFreq f).cfg = s.cfg := rfl
@[simp] theorem recordFreq_bank0 : (s.recordFreq f).bank0 = s.bank0 := rfl
@[simp] theorem recordFreq_bank1 : (s.recordFreq f).bank1 = s.bank1 := rfl
@[simp] theorem recordFreq_fill : (s.recordFreq f).fill = s.fill := rfl
@[simp] theorem recordFreq_pos : (s.recordFreq f).pos = s.pos := rfl
@[simp] theorem recordFreq_ready : (s.recordFreq f).ready = s.ready := rfl
@[simp] theorem recordFreq_ph : (s.recordFreq f).ph = s.ph := rfl
@[simp] theorem recordFreq_sb : (s.recordFreq f).sb = s.sb := rfl
@[simp] theorem recordFreq_workRe : (s.recordFreq f).workRe = s.workRe := rfl
@[simp] theorem recordFreq_workIm : (s.recordFreq f).workIm = s.workIm := rfl
@[simp] theorem recordFreq_peakBin : (s.recordFreq f).peakBin = s.peakBin := rfl
@[simp] theorem recordFreq_peakMag : (s.recordFreq f).peakMag = s.peakMag := rfl
@[simp] theorem recordFreq_domFreqNum : (s.recordFreq f).domFreqNum = f := rfl
@[simp] theorem recordFreq_cls : (s.recordFreq f).cls = s.cls := rfl
@[simp] theorem recordFreq_stepIdx : (s.recordFreq f).stepIdx = s.stepIdx := rfl
@[simp] theorem recordFreq_playing : (s.recordFreq f).playing = s.playing := rfl
@[simp] theorem recordFreq_startTime : (s.recordFreq f).startTime = s.startTime := rfl
@[simp] theorem recordFreq_cmd0 : (s.recordFreq f).cmd0 = s.cmd0 := rfl
@[simp] theorem recordFreq_cmd1 : (s.recordFreq f).cmd1 = s.cmd1 := rfl
@[simp] theorem recordFreq_outHist : (s.recordFreq f).outHist = s.outHist := rfl
@[simp] theorem recordFreq_tickPending : (s.recordFreq f).tickPending = s.tickPending := rfl
@[simp] theorem recordFreq_port : (s.recordFreq f).port = s.port := rfl
@[simp] theorem recordFreq_inputs : (s.recordFreq f).inputs = s.inputs := rfl
@[simp] theorem recordFreq_envCount : (s.recordFreq f).envCount = s.envCount := rfl

end

section
variable (s : State) (c : Cls)

@[simp] theorem recordCls_cfg : (s.recordCls c).cfg = s.cfg := rfl
@[simp] theorem recordCls_bank0 : (s.recordCls c).bank0 = s.bank0 := rfl
@[simp] theorem recordCls_bank1 : (s.recordCls c).bank1 = s.bank1 := rfl
@[simp] theorem recordCls_fill : (s.recordCls c).fill = s.fill := rfl
@[simp] theorem recordCls_pos : (s.recordCls c).pos = s.pos := rfl
@[simp] theorem recordCls_ready : (s.recordCls c).ready = s.ready := rfl
@[simp] theorem recordCls_ph : (s.recordCls c).ph = s.ph := rfl
@[simp] theorem recordCls_sb : (s.recordCls c).sb = s.sb := rfl
@[simp] theorem recordCls_workRe : (s.recordCls c).workRe = s.workRe := rfl
@[simp] theorem recordCls_workIm : (s.recordCls c).workIm = s.workIm := rfl
@[simp] theorem recordCls_peakBin : (s.recordCls c).peakBin = s.peakBin := rfl
@[simp] theorem recordCls_peakMag : (s.recordCls c).peakMag = s.peakMag := rfl
@[simp] theorem recordCls_domFreqNum : (s.recordCls c).domFreqNum = s.domFreqNum := rfl
@[simp] theorem recordCls_cls : (s.recordCls c).cls = c := rfl
@[simp] theorem recordCls_stepIdx : (s.recordCls c).stepIdx = s.stepIdx := rfl
@[simp] theorem recordCls_playing : (s.recordCls c).playing = s.playing := rfl
@[simp] theorem recordCls_startTime : (s.recordCls c).startTime = s.startTime := rfl
@[simp] theorem recordCls_cmd0 : (s.recordCls c).cmd0 = s.cmd0 := rfl
@[simp] theorem recordCls_cmd1 : (s.recordCls c).cmd1 = s.cmd1 := rfl
@[simp] theorem recordCls_outHist : (s.recordCls c).outHist = s.outHist := rfl
@[simp] theorem recordCls_tickPending : (s.recordCls c).tickPending = s.tickPending := rfl
@[simp] theorem recordCls_port : (s.recordCls c).port = s.port := rfl
@[simp] theorem recordCls_inputs : (s.recordCls c).inputs = s.inputs := rfl
@[simp] theorem recordCls_envCount : (s.recordCls c).envCount = s.envCount := rfl

end

section
variable (s : State)

@[simp] theorem flipBanks_cfg : (s.flipBanks).cfg = s.cfg := rfl
@[simp] theorem flipBanks_bank0 : (s.flipBanks).bank0 = s.bank0 := rfl
@[simp] theorem flipBanks_bank1 : (s.flipBanks).bank1 = s.bank1 := rfl
@[simp] theorem flipBanks_fill : (s.flipBanks).fill = 1 - s.fill := rfl
@[simp] theorem flipBanks_pos : (s.flipBanks).pos = 0 := rfl
@[simp] theorem flipBanks_ready : (s.flipBanks).ready = true := rfl
@[simp] theorem flipBanks_ph : (s.flipBanks).ph = s.ph := rfl
@[simp] theorem flipBanks_sb : (s.flipBanks).sb = s.sb := rfl
@[simp] theorem flipBanks_workRe : (s.flipBanks).workRe = s.workRe := rfl
@[simp] theorem flipBanks_workIm : (s.flipBanks).workIm = s.workIm := rfl
@[simp] theorem flipBanks_peakBin : (s.flipBanks).peakBin = s.peakBin := rfl
@[simp] theorem flipBanks_peakMag : (s.flipBanks).peakMag = s.peakMag := rfl
@[simp] theorem flipBanks_domFreqNum : (s.flipBanks).domFreqNum = s.domFreqNum := rfl
@[simp] theorem flipBanks_cls : (s.flipBanks).cls = s.cls := rfl
@[simp] theorem flipBanks_stepIdx : (s.flipBanks).stepIdx = s.stepIdx := rfl
@[simp] theorem flipBanks_playing : (s.flipBanks).playing = s.playing := rfl
@[simp] theorem flipBanks_startTime : (s.flipBanks).startTime = s.startTime := rfl
@[simp] theorem flipBanks_cmd0 : (s.flipBanks).cmd0 = s.cmd0 := rfl
@[simp] theorem flipBanks_cmd1 : (s.flipBanks).cmd1 = s.cmd1 := rfl
@[simp] theorem flipBanks_outHist : (s.flipBanks).outHist = s.outHist := rfl
@[simp] theorem flipBanks_tickPending : (s.flipBanks).tickPending = s.tickPending := rfl
@[simp] theorem flipBanks_port : (s.flipBanks).port = s.port := rfl
@[simp] theorem flipBanks_inputs : (s.flipBanks).inputs = s.inputs := rfl
@[simp] theorem flipBanks_envCount : (s.flipBanks).envCount = s.envCount := rfl

end

section
variable (s : State)

@[simp] theorem advancePos_cfg : (s.advancePos).cfg = s.cfg := rfl
@[simp] theorem advancePos_bank0 : (s.advancePos).bank0 = s.bank0 := rfl
@[simp] theorem advancePos_bank1 : (s.advancePos).bank1 = s.bank1 := rfl
@[simp] theorem advancePos_fill : (s.advancePos).fill = s.fill := rfl
@[simp] theorem advancePos_pos : (s.advancePos).pos = s.cfg.nextPos s.pos := rfl
@[simp] theorem advancePos_ready : (s.advancePos).ready = s.ready := rfl
@[simp] theorem advancePos_ph : (s.advancePos).ph = s.ph := rfl
@[simp] theorem advancePos_sb : (s.advancePos).sb = s.sb := rfl
@[simp] theorem advancePos_workRe : (s.advancePos).workRe = s.workRe := rfl
@[simp] theorem advancePos_workIm : (s.advancePos).workIm = s.workIm := rfl
@[simp] theorem advancePos_peakBin : (s.advancePos).peakBin = s.peakBin := rfl
@[simp] theorem advancePos_peakMag : (s.advancePos).peakMag = s.peakMag := rfl
@[simp] theorem advancePos_domFreqNum : (s.advancePos).domFreqNum = s.domFreqNum := rfl
@[simp] theorem advancePos_cls : (s.advancePos).cls = s.cls := rfl
@[simp] theorem advancePos_stepIdx : (s.advancePos).stepIdx = s.stepIdx := rfl
@[simp] theorem advancePos_playing : (s.advancePos).playing = s.playing := rfl
@[simp] theorem advancePos_startTime : (s.advancePos).startTime = s.startTime := rfl
@[simp] theorem advancePos_cmd0 : (s.advancePos).cmd0 = s.cmd0 := rfl
@[simp] theorem advancePos_cmd1 : (s.advancePos).cmd1 = s.cmd1 := rfl
@[simp] theorem advancePos_outHist : (s.advancePos).outHist = s.outHist := rfl
@[simp] theorem advancePos_tickPending : (s.advancePos).tickPending = s.tickPending := rfl
@[simp] theorem advancePos_port : (s.advancePos).port = s.port := rfl
@[simp] theorem advancePos_inputs : (s.advancePos).inputs = s.inputs := rfl
@[simp] theorem advancePos_envCount : (s.advancePos).envCount = s.envCount := rfl

end

section
variable (s : State)

@[simp] theorem enterPlaying_cfg : (s.enterPlaying).cfg = s.cfg := rfl
@[simp] theorem enterPlaying_bank0 : (s.enterPlaying).bank0 = s.bank0 := rfl
@[simp] theorem enterPlaying_bank1 : (s.enterPlaying).bank1 = s.bank1 := rfl
@[simp] theorem enterPlaying_fill : (s.enterPlaying).fill = s.fill := rfl
@[simp] theorem enterPlaying_pos : (s.enterPlaying).pos = s.pos := rfl
@[simp] theorem enterPlaying_ready : (s.enterPlaying).ready = s.ready := rfl
@[simp] theorem enterPlaying_ph : (s.enterPlaying).ph = s.ph := rfl
@[simp] theorem enterPlaying_sb : (s.enterPlaying).sb = s.sb := rfl
@[simp] theorem enterPlaying_workRe : (s.enterPlaying).workRe = s.workRe := rfl
@[simp] theorem enterPlaying_workIm : (s.enterPlaying).workIm = s.workIm := rfl
@[simp] theorem enterPlaying_peakBin : (s.enterPlaying).peakBin = s.peakBin := rfl
@[simp] theorem enterPlaying_peakMag : (s.enterPlaying).peakMag = s.peakMag := rfl
@[simp] theorem enterPlaying_domFreqNum : (s.enterPlaying).domFreqNum = s.domFreqNum := rfl
@[simp] theorem enterPlaying_cls : (s.enterPlaying).cls = s.cls := rfl
@[simp] theorem enterPlaying_stepIdx : (s.enterPlaying).stepIdx = s.cfg.nextStep s.stepIdx := rfl
@[simp] theorem enterPlaying_playing : (s.enterPlaying).playing = true := rfl
@[simp] theorem enterPlaying_startTime : (s.enterPlaying).startTime = s.readNow := rfl
@[simp] theorem enterPlaying_cmd0 : (s.enterPlaying).cmd0 = s.cmd0 := rfl
@[simp] theorem enterPlaying_cmd1 : (s.enterPlaying).cmd1 = s.cmd1 := rfl
@[simp] theorem enterPlaying_outHist : (s.enterPlaying).outHist = s.outHist := rfl
@[simp] theorem enterPlaying_tickPending : (s.enterPlaying).tickPending = s.tickPending := rfl
@[simp] theorem enterPlaying_port : (s.enterPlaying).port = s.port := rfl
@[simp] theorem enterPlaying_inputs : (s.enterPlaying).inputs = s.inputs := rfl
@[simp] theorem enterPlaying_envCount : (s.enterPlaying).envCount = s.envCount := rfl

end

section
variable (s : State) (es : List EnvInput)

@[simp] theorem withInputs_cfg : (s.withInputs es).cfg = s.cfg := rfl
@[simp] theorem withInputs_bank0 : (s.withInputs es).bank0 = s.bank0 := rfl
@[simp] theorem withInputs_bank1 : (s.withInputs es).bank1 = s.bank1 := rfl
@[simp] theorem withInputs_fill : (s.withInputs es).fill = s.fill := rfl
@[simp] theorem withInputs_pos : (s.withInputs es).pos = s.pos := rfl
@[simp] theorem withInputs_ready : (s.withInputs es).ready = s.ready := rfl
@[simp] theorem withInputs_ph : (s.withInputs es).ph = s.ph := rfl
@[simp] theorem withInputs_sb : (s.withInputs es).sb = s.sb := rfl
@[simp] theorem withInputs_workRe : (s.withInputs es).workRe = s.workRe := rfl
@[simp] theorem withInputs_workIm : (s.withInputs es).workIm = s.workIm := rfl
@[simp] theorem withInputs_peakBin : (s.withInputs es).peakBin = s.peakBin := rfl
@[simp] theorem withInputs_peakMag : (s.withInputs es).peakMag = s.peakMag := rfl
@[simp] theorem withInputs_domFreqNum : (s.withInputs es).domFreqNum = s.domFreqNum := rfl
@[simp] theorem withInputs_cls : (s.withInputs es).cls = s.cls := rfl
@[simp] theorem withInputs_stepIdx : (s.withInputs es).stepIdx = s.stepIdx := rfl
@[simp] theorem withInputs_playing : (s.withInputs es).playing = s.playing := rfl
@[simp] theorem withInputs_startTime : (s.withInputs es).startTime = s.startTime := rfl
@[simp] theorem withInputs_cmd0 : (s.withInputs es).cmd0 = s.cmd0 := rfl
@[simp] theorem withInputs_cmd1 : (s.withInputs es).cmd1 = s.cmd1 := rfl
@[simp] theorem withInputs_outHist : (s.withInputs es).outHist = s.outHist := rfl
@[simp] theorem withInputs_tickPending : (s.withInputs es).tickPending = s.tickPending := rfl
@[simp] theorem withInputs_port : (s.withInputs es).port = s.port := rfl
@[simp] theorem withInputs_inputs : (s.withInputs es).inputs = es := rfl
@[simp] theorem withInputs_envCount : (s.withInputs es).envCount = s.envCount := rfl

end

section
variable (s : State)

@[simp] theorem captureSample_cfg : (s.captureSample).cfg = s.cfg := by simp [State.captureSample]
@[simp] theorem captureSample_fill : (s.captureSample).fill = s.fill := by simp [State.captureSample]
@[simp] theorem captureSample_pos : (s.captureSample).pos = s.pos := by simp [State.captureSample]
@[simp] theorem captureSample_ready : (s.captureSample).ready = s.ready := by simp [State.captureSample]
@[simp] theorem captureSample_ph : (s.captureSample).ph = s.ph := by simp [State.captureSample]
@[simp] theorem captureSample_sb : (s.captureSample).sb = s.sb := by simp [State.captureSample]
@[simp] theorem captureSample_workRe : (s.captureSample).workRe = s.workRe := by simp [State.captureSample]
@[simp] theorem captureSample_workIm : (s.captureSample).workIm = s.workIm := by simp [State.captureSample]
@[simp] theorem captureSample_peakBin : (s.captureSample).peakBin = s.peakBin := by simp [State.captureSample]
@[simp] theorem captureSample_peakMag : (s.captureSample).peakMag = s.peakMag := by simp [State.captureSample]
@[simp] theorem captureSample_domFreqNum : (s.captureSample).domFreqNum = s.domFreqNum := by simp [State.captureSample]
@[simp] theorem captureSample_cls : (s.captureSample).cls = s.cls := by simp [State.captureSample]
@[simp] theorem captureSample_stepIdx : (s.captureSample).stepIdx = s.stepIdx := by simp [State.captureSample]
@[simp] theorem captureSample_playing : (s.captureSample).playing = s.playing := by simp [State.captureSample]
@[simp] theorem captureSample_startTime : (s.captureSample).startTime = s.startTime := by simp [State.captureSample]
@[simp] theorem captureSample_cmd0 : (s.captureSample).cmd0 = s.cmd0 := by simp [State.captureSample]
@[simp] theorem captureSample_cmd1 : (s.captureSample).cmd1 = s.cmd1 := by simp [State.captureSample]
@[simp] theorem captureSample_outHist : (s.captureSample).outHist = s.outHist := by simp [State.captureSample]
@[simp] theorem captureSample_tickPending : (s.captureSample).tickPending = false := by simp [State.captureSample]
@[simp] theorem captureSample_port : (s.captureSample).port = s.port := by simp [State.captureSample]
@[simp] theorem captureSample_inputs : (s.captureSample).inputs = s.inputs := by simp [State.captureSample]
@[simp] theorem captureSample_envCount : (s.captureSample).envCount = s.envCount := by simp [State.captureSample]

end

section
variable (s : State)

@[simp] theorem present_cfg : (s.present).cfg = s.cfg := rfl
@[simp] theorem present_bank0 : (s.present).bank0 = s.bank0 := rfl
@[simp] theorem present_bank1 : (s.present).bank1 = s.bank1 := rfl
@[simp] theorem present_fill : (s.present).fill = s.fill := rfl
@[simp] theorem present_pos : (s.present).pos = s.pos := rfl
@[simp] theorem present_ready : (s.present).ready = s.ready := rfl
@[simp] theorem present_ph : (s.present).ph = s.ph := rfl
@[simp] theorem present_sb : (s.present).sb = s.sb := rfl
@[simp] theorem present_workRe : (s.present).workRe = s.workRe := rfl
@[simp] theorem present_workIm : (s.present).workIm = s.workIm := rfl
@[simp] theorem present_peakBin : (s.present).peakBin = s.peakBin := rfl
@[simp] theorem present_peakMag : (s.present).peakMag = s.peakMag := rfl
@[simp] theorem present_domFreqNum : (s.present).domFreqNum = s.domFreqNum := rfl
@[simp] theorem present_cls : (s.present).cls = s.cls := rfl
@[simp] theorem present_stepIdx : (s.present).stepIdx = s.stepIdx := rfl
@[simp] theorem present_playing : (s.present).playing = s.playing := rfl
@[simp] theorem present_startTime : (s.present).startTime = s.startTime := rfl
@[simp] theorem present_cmd0 : (s.present).cmd0 = s.cmd0 := rfl
@[simp] theorem present_cmd1 : (s.present).cmd1 = s.cmd1 := rfl
@[simp] theorem present_outHist : (s.present).outHist = s.outHist := rfl
@[simp] theorem present_tickPending : (s.present).tickPending = s.tickPending := rfl
@[simp] theorem present_inputs : (s.present).inputs = s.inputs.tail := rfl
@[simp] theorem present_envCount : (s.present).envCount = s.envCount + 1 := rfl

end

section
variable (s : State)

@[simp] theorem applyReset_cfg : (s.applyReset).cfg = s.cfg := rfl
@[simp] theorem applyReset_bank0 : (s.applyReset).bank0 = [] := rfl
@[simp] theorem applyReset_bank1 : (s.applyReset).bank1 = [] := rfl
@[simp] theorem applyReset_fill : (s.applyReset).fill = 0 := rfl
@[simp] theorem applyReset_pos : (s.applyReset).pos = 0 := rfl
@[simp] theorem applyReset_ready : (s.applyReset).ready = false := rfl
@[simp] theorem applyReset_ph : (s.applyReset).ph = 0 := rfl
@[simp] theorem applyReset_sb : (s.applyReset).sb = 0 := rfl
@[simp] theorem applyReset_workRe : (s.applyReset).workRe = [] := rfl
@[simp] theorem applyReset_workIm : (s.applyReset).workIm = [] := rfl
@[simp] theorem applyReset_peakBin : (s.applyReset).peakBin = 0 := rfl
@[simp] theorem applyReset_peakMag : (s.applyReset).peakMag = .zero := rfl
@[simp] theorem applyReset_domFreqNum : (s.applyReset).domFreqNum = 0 := rfl
@[simp] theorem applyReset_cls : (s.applyReset).cls = ⟨false, 0⟩ := rfl
@[simp] theorem applyReset_stepIdx : (s.applyReset).stepIdx = 0 := rfl
@[simp] theorem applyReset_playing : (s.applyReset).playing = false := rfl
@[simp] theorem applyReset_startTime : (s.applyReset).startTime = 0 := rfl
@[simp] theorem applyReset_cmd0 : (s.applyReset).cmd0 = s.cfg.speedNeutral := rfl
@[simp] theorem applyReset_cmd1 : (s.applyReset).cmd1 = s.cfg.speedNeutral := rfl
@[simp] theorem applyReset_outHist : (s.applyReset).outHist = [] := rfl
@[simp] theorem applyReset_tickPending : (s.applyReset).tickPending = false := rfl
@[simp] theorem applyReset_port : (s.applyReset).port = s.port := rfl
@[simp] theorem applyReset_inputs : (s.applyReset).inputs = s.inputs := rfl
@[simp] theorem applyReset_envCount : (s.applyReset).envCount = s.envCount := rfl

end

end Sys2Proof.Machine
end

