-- ==== Sys2Proof/Laws/Store.lean ====
section
/-! SUPPORT. Reading after writing, and that every operation on a storage space keeps its canonical form. -/

namespace Sys2Proof.Store

variable {α : Type}

@[simp] theorem read_nil (z : α) (i : Nat) : read z ([] : Store α) i = z := rfl

theorem read_cons (z : α) (j : Nat) (v : α) (m : Store α) (i : Nat) :
    read z ((j, v) :: m) i = if i = j then v else read z m i := rfl

/-- An index that is not listed reads as `z`. -/
theorem read_of_notMem (z : α) {m : Store α} {i : Nat} (h : ∀ e ∈ m, e.1 ≠ i) : read z m i = z := by
  induction m with
  | nil => rfl
  | cons e m ih =>
    obtain ⟨j, v⟩ := e
    rw [read_cons, if_neg (fun hij => h (j, v) (by simp) hij.symm), ih fun e he => h e (by simp [he])]

theorem read_erase_same (z : α) (m : Store α) (i : Nat) : read z (m.erase i) i = z :=
  read_of_notMem z fun e he => by simpa using (List.mem_filter.mp he).2

theorem read_erase_other (z : α) (m : Store α) {i k : Nat} (h : k ≠ i) : read z (m.erase i) k = read z m k := by
  induction m with
  | nil => rfl
  | cons e m ih =>
    obtain ⟨j, v⟩ := e
    by_cases hj : j = i
    · subst hj
      rw [erase, List.filter_cons_of_neg (by simp), read_cons, if_neg h]
      exact ih
    · rw [erase, List.filter_cons_of_pos (by simpa using hj), read_cons, read_cons]
      exact congrArg _ ih

theorem read_insert_same (z : α) (m : Store α) (i : Nat) (v : α) : read z (m.insert i v) i = v := by
  induction m with
  | nil => simp [insert, read_cons]
  | cons e m ih =>
    obtain ⟨j, w⟩ := e
    rw [insert]
    split_ifs with h1 h2
    · simp [read_cons]
    · simp [read_cons]
    · rw [read_cons, if_neg h2, ih]

theorem read_insert_other (z : α) (m : Store α) {i k : Nat} (v : α) (h : k ≠ i) :
    read z (m.insert i v) k = read z m k := by
  induction m with
  | nil => simp [insert, read_cons, h]
  | cons e m ih =>
    obtain ⟨j, w⟩ := e
    rw [insert]
    split_ifs with h1 h2
    · rw [read_cons, if_neg h]
    · subst h2; rw [read_cons, if_neg h, read_cons, if_neg h]
    · rw [read_cons, read_cons, ih]

theorem mem_insert {m : Store α} {i : Nat} {v : α} {e : Nat × α} (he : e ∈ m.insert i v) : e = (i, v) ∨ e ∈ m := by
  induction m with
  | nil => simpa [insert] using he
  | cons x m ih =>
    obtain ⟨j, w⟩ := x
    rw [insert] at he
    split_ifs at he with h1 h2
    · simpa using he
    · rcases List.mem_cons.mp he with h | h
      · exact .inl h
      · exact .inr (by simp [h])
    · rcases List.mem_cons.mp he with h | h
      · exact .inr (by simp [h])
      · rcases ih h with h | h
        · exact .inl h
        · exact .inr (by simp [h])

section Write
variable [DecidableEq α]

/-- A read after a write to the same place gives the value written. -/
@[simp] theorem read_write_same (z : α) (m : Store α) (i : Nat) (v : α) : read z (write z m i v) i = v := by
  rw [write]
  split_ifs with h
  · rw [read_erase_same, h]
  · exact read_insert_same z m i v

/-- A write leaves every other place alone. -/
theorem read_write_other (z : α) (m : Store α) {i k : Nat} (v : α) (h : k ≠ i) :
    read z (write z m i v) k = read z m k := by
  rw [write]
  split_ifs
  · exact read_erase_other z m h
  · exact read_insert_other z m v h

theorem wf_cons (z : α) (n j : Nat) (v : α) (m : Store α) :
    wf z n ((j, v) :: m) = true ↔ j < n ∧ v ≠ z ∧ (∀ e ∈ m, j < e.1) ∧ wf z n m = true := by
  simp [wf, and_assoc]

/-- In a well-formed space every listed index is below `n`. -/
theorem lt_of_mem {z : α} {n : Nat} {m : Store α} (h : wf z n m = true) {e : Nat × α} (he : e ∈ m) : e.1 < n := by
  induction m with
  | nil => simp at he
  | cons x m ih =>
    obtain ⟨j, v⟩ := x
    obtain ⟨hj, -, -, hm⟩ := (wf_cons ..).mp h
    rcases List.mem_cons.mp he with rfl | he
    · exact hj
    · exact ih hm he

theorem wf_erase {z : α} {n : Nat} {m : Store α} (h : wf z n m = true) (i : Nat) : wf z n (m.erase i) = true := by
  induction m with
  | nil => rfl
  | cons x m ih =>
    obtain ⟨j, v⟩ := x
    obtain ⟨hj, hv, hlt, hm⟩ := (wf_cons ..).mp h
    by_cases hji : j = i
    · rw [erase, List.filter_cons_of_neg (by simp [hji])]
      exact ih hm
    · rw [erase, List.filter_cons_of_pos (by simpa using hji)]
      exact (wf_cons ..).mpr ⟨hj, hv, fun e he => hlt e (List.mem_filter.mp he).1, ih hm⟩

theorem wf_insert {z : α} {n : Nat} {m : Store α} (h : wf z n m = true) {i : Nat} {v : α} (hi : i < n) (hv : v ≠ z) :
    wf z n (m.insert i v) = true := by
  induction m with
  | nil => simp [insert, wf, hi, hv]
  | cons x m ih =>
    obtain ⟨j, w⟩ := x
    obtain ⟨hj, hw, hlt, hm⟩ := (wf_cons ..).mp h
    rw [insert]
    split_ifs with h1 h2
    · refine (wf_cons ..).mpr ⟨hi, hv, fun e he => ?_, h⟩
      rcases List.mem_cons.mp he with rfl | he
      · exact h1
      · exact h1.trans (hlt e he)
    · exact (wf_cons ..).mpr ⟨hi, hv, fun e he => h2 ▸ hlt e he, hm⟩
    · refine (wf_cons ..).mpr ⟨hj, hw, fun e he => ?_, ih hm⟩
      rcases mem_insert he with rfl | he
      · show j < i
        omega
      · exact hlt e he

/-- A write keeps the canonical form. -/
theorem wf_write {z : α} {n : Nat} {m : Store α} (h : wf z n m = true) {i : Nat} (v : α) (hi : i < n) :
    wf z n (write z m i v) = true := by
  rw [write]
  split_ifs with hv
  · exact wf_erase h i
  · exact wf_insert h hi hv

/-! ### Spaces given by a function -/

theorem mem_ofFn {z : α} {n : Nat} {f : Nat → α} {e : Nat × α} :
    e ∈ ofFn z n f ↔ e.1 < n ∧ f e.1 ≠ z ∧ e.2 = f e.1 := by
  obtain ⟨i, v⟩ := e
  simp only [ofFn, List.mem_filterMap, List.mem_range]
  constructor
  · rintro ⟨a, ha, h⟩
    split_ifs at h with hz
    obtain ⟨rfl, rfl⟩ : a = i ∧ f a = v := by simpa using h
    exact ⟨ha, hz, rfl⟩
  · rintro ⟨hi, hz, rfl⟩
    exact ⟨i, hi, by simp [hz]⟩

/-- The space as a list of consecutive indices, from `a` on: what `ofFn` unfolds to. -/
theorem wf_filterMap_range' {z : α} {n : Nat} {f : Nat → α} (a k : Nat) (h : a + k ≤ n) :
    wf z n ((List.range' a k).filterMap fun i => if f i = z then none else some (i, f i)) = true := by
  induction k generalizing a with
  | zero => rfl
  | succ k ih =>
    rw [List.range'_succ, List.filterMap_cons]
    split
    · exact ih (a + 1) (by omega)
    · rename_i b hb
      split_ifs at hb with hz
      obtain rfl : (a, f a) = b := by simpa using hb
      refine (wf_cons ..).mpr ⟨by omega, hz, fun e he => ?_, ih (a + 1) (by omega)⟩
      obtain ⟨i, hi, hie⟩ := List.mem_filterMap.mp he
      split_ifs at hie
      obtain rfl : (i, f i) = e := by simpa using hie
      have := (List.mem_range'_1.mp hi).1
      show a < i
      omega

/-- A space given by a function is in canonical form. -/
theorem wf_ofFn (z : α) (n : Nat) (f : Nat → α) : wf z n (ofFn z n f) = true := by
  rw [ofFn, List.range_eq_range']
  exact wf_filterMap_range' 0 n (by omega)

theorem read_filterMap_range' {z : α} {f : Nat → α} (a k i : Nat) :
    read z ((List.range' a k).filterMap fun i => if f i = z then none else some (i, f i)) i =
      if a ≤ i ∧ i < a + k then f i else z := by
  induction k generalizing a with
  | zero => rw [if_neg (by omega)]; rfl
  | succ k ih =>
    rw [List.range'_succ, List.filterMap_cons]
    split
    · rename_i hb
      split_ifs at hb with hz
      rw [ih (a + 1)]
      by_cases hia : i = a
      · subst hia; rw [if_neg (by omega), if_pos (by omega), hz]
      · exact if_congr (by omega) rfl rfl
    · rename_i b hb
      split_ifs at hb with hz
      obtain rfl : (a, f a) = b := by simpa using hb
      rw [read_cons, ih (a + 1)]
      by_cases hia : i = a
      · subst hia; rw [if_pos rfl, if_pos (by omega)]
      · rw [if_neg hia]; exact if_congr (by omega) rfl rfl

/-- Reading a space given by a function. -/
theorem read_ofFn (z : α) (n : Nat) (f : Nat → α) (i : Nat) : read z (ofFn z n f) i = if i < n then f i else z := by
  rw [ofFn, List.range_eq_range']
  exact (read_filterMap_range' 0 n i).trans (if_congr (by omega) rfl rfl)

/-- Reading a space given by a function inside its range. -/
theorem read_ofFn_lt (z : α) {n : Nat} (f : Nat → α) {i : Nat} (h : i < n) : read z (ofFn z n f) i = f i := by
  rw [read_ofFn, if_pos h]

end Write

/-- Outside its range a well-formed space reads as `z`. -/
theorem read_of_ge [DecidableEq α] {z : α} {n : Nat} {m : Store α} (h : wf z n m = true) {i : Nat} (hi : n ≤ i) :
    read z m i = z :=
  read_of_notMem z fun e he => by have := lt_of_mem h he; omega

end Sys2Proof.Store
end

