-- ==== Sys2Proof/Laws/Ops.lean ====
section
/-! SUPPORT. What each shared operation does, one lemma each: later proofs cite these and unfold nothing. -/

namespace Sys2Proof.Machine

variable (s : State)

/-! ### The sample store -/

@[simp] theorem bank_zero : s.bank 0 = s.bank0 := rfl
@[simp] theorem bank_one : s.bank 1 = s.bank1 := rfl

theorem readBank_congr {s t : State} (h0 : t.bank0 = s.bank0) (h1 : t.bank1 = s.bank1) (b : Fin 2) (i : Nat) :
    t.readBank b i = s.readBank b i := by simp [State.readBank, State.bank, h0, h1]

theorem bank_writeBank (b : Fin 2) (i : Nat) (v : Smp) (c : Fin 2) :
    (s.writeBank b i v).bank c = if c = b then Store.write Smp.zero (s.bank b) i v else s.bank c := by
  fin_cases b <;> fin_cases c <;> rfl

/-- A write to the sample store: the element written reads as written, every other one as before. -/
theorem readBank_writeBank (b : Fin 2) (i : Nat) (v : Smp) (c : Fin 2) (j : Nat) :
    (s.writeBank b i v).readBank c j = if c = b ∧ j = i then v else s.readBank c j := by
  rw [State.readBank, bank_writeBank]
  by_cases hc : c = b
  · subst hc
    by_cases hj : j = i
    · subst hj; simp
    · simp [hj, Store.read_write_other, State.readBank]
  · simp [hc, State.readBank]

/-- A write inside the bank keeps both banks in canonical form. -/
theorem wf_writeBank {b : Fin 2} {i n : Nat} {v : Smp} (hi : i < n) (h : ∀ c, Store.wf Smp.zero n (s.bank c) = true)
    (c : Fin 2) : Store.wf Smp.zero n ((s.writeBank b i v).bank c) = true := by
  rw [bank_writeBank]
  split
  · exact Store.wf_write (h b) v hi
  · exact h c

/-- The head of SAMPLE stores the calibrated reading, with a zero imaginary part, at `(fill, pos)` and nothing else. -/
theorem readBank_captureSample (c : Fin 2) (j : Nat) :
    s.captureSample.readBank c j =
      if c = s.fill ∧ j = s.pos then ⟨s.cfg.calibrate s.drawAdc, Value.zero⟩ else s.readBank c j := by
  unfold State.captureSample
  rw [readBank_writeBank]
  rfl

theorem wf_captureSample {n : Nat} (hi : s.pos < n) (h : ∀ c, Store.wf Smp.zero n (s.bank c) = true) (c : Fin 2) :
    Store.wf Smp.zero n (s.captureSample.bank c) = true :=
  wf_writeBank s.serveTick hi h c

@[simp] theorem readBank_flipBanks (c : Fin 2) (j : Nat) : s.flipBanks.readBank c j = s.readBank c j := rfl
@[simp] theorem readBank_advancePos (c : Fin 2) (j : Nat) : s.advancePos.readBank c j = s.readBank c j := rfl
@[simp] theorem bank_flipBanks (c : Fin 2) : s.flipBanks.bank c = s.bank c := rfl
@[simp] theorem bank_advancePos (c : Fin 2) : s.advancePos.bank c = s.bank c := rfl

/-- The position after a SAMPLE that does not fill the bank. -/
theorem nextPos_eq {c : Config} {p : Nat} (h : p < c.n) : c.nextPos p = (p + 1) % c.n := by
  unfold Config.nextPos
  split_ifs with hp
  · exact (Nat.mod_eq_of_lt (by omega)).symm
  · rw [show p + 1 = c.n by omega, Nat.mod_self]

/-- The melody step after a hit. -/
theorem nextStep_eq {c : Config} {i : Nat} (h : i < c.l) : c.nextStep i = (i + 1) % c.l := by
  unfold Config.nextStep
  split_ifs with hp
  · exact (Nat.mod_eq_of_lt (by omega)).symm
  · rw [show i + 1 = c.l by omega, Nat.mod_self]

/-! ### The working buffer -/

theorem readRe_fillRe (f : Nat → Value) (i : Nat) :
    (s.fillRe f).readRe i = if i < s.cfg.n then f i else Value.zero := Store.read_ofFn ..
theorem readIm_fillIm (f : Nat → Value) (i : Nat) :
    (s.fillIm f).readIm i = if i < s.cfg.n then f i else Value.zero := Store.read_ofFn ..
@[simp] theorem readIm_fillRe (f : Nat → Value) (i : Nat) : (s.fillRe f).readIm i = s.readIm i := rfl
@[simp] theorem readRe_fillIm (f : Nat → Value) (i : Nat) : (s.fillIm f).readRe i = s.readRe i := rfl
@[simp] theorem readRe_goto (p : PhaseWord) (i : Nat) : (s.goto p).readRe i = s.readRe i := rfl
@[simp] theorem readIm_goto (p : PhaseWord) (i : Nat) : (s.goto p).readIm i = s.readIm i := rfl

theorem wf_fillRe (f : Nat → Value) : Store.wf Value.zero s.cfg.n (s.fillRe f).workRe = true := Store.wf_ofFn ..
theorem wf_fillIm (f : Nat → Value) : Store.wf Value.zero s.cfg.n (s.fillIm f).workIm = true := Store.wf_ofFn ..

/-! ### Commands -/

/-- A command register holds what was last written to it. -/
theorem cmd_writeCmd (u : Fin 2) (v : Nat) (w : Fin 2) : (s.writeCmd u v).cmd w = if w = u then v else s.cmd w := by
  fin_cases u <;> fin_cases w <;> rfl

/-! ### One step -/

/-- What reads, writes and codes exist: every word of PH but 15 names an operation of the loop controller. -/
theorem decodePh_cases (w : PhaseWord) :
    (w = 15 ∧ decodePh w = .error .reservedPhase) ∨
      ∃ i, decodePh w = .ok i ∧ i.format = .ph ∧ w = BitVec.ofNat 4 i.code := by
  have key : ∀ v : PhaseWord, (v = 15 ∧ decodePh v = .error .reservedPhase) ∨
      ∃ i ∈ [Instr.dispatch, .acquire, .copy, .dcrem, .window, .fft, .mag, .peak, .freq, .lookup, .emit, .seqWait,
        .drive, .playCheck, .stop], decodePh v = .ok i ∧ i.format = .ph ∧ v = BitVec.ofNat 4 i.code := by decide
  exact (key w).imp_right fun ⟨i, _, h⟩ => ⟨i, h⟩

/-- The select word with a tick: SAMPLE, or BANKFLIP at the last position. -/
theorem decodeTsel_tselWord (h : s.tickPending = true) :
    decodeTsel s.tselWord = .ok (if s.pos = s.cfg.n - 1 then .bankflip else .sample) := by
  unfold State.tselWord State.lastPos
  rw [h]
  by_cases hp : s.pos = s.cfg.n - 1 <;> simp [hp, decodeTsel]

/-- The Sampler's step with a tick to serve. -/
theorem samplerStep_eq (h : s.tickPending = true) :
    samplerStep s = exec (if s.pos = s.cfg.n - 1 then .bankflip else .sample) s := by
  rw [samplerStep, decodeTsel_tselWord s h, perform]

/-- The Sampler's operation inside the bank. -/
theorem exec_sampler (hp : s.pos < s.cfg.n) :
    exec (if s.pos = s.cfg.n - 1 then .bankflip else .sample) s =
      .next (if s.pos = s.cfg.n - 1 then s.captureSample.flipBanks else s.captureSample.advancePos) := by
  by_cases h : s.pos = s.cfg.n - 1
  · rw [if_pos h, if_pos h]; simp only [exec, execBankflip, if_pos hp]
  · rw [if_neg h, if_neg h]; simp only [exec, execSample, if_pos hp, State.lastPos, h, decide_false]; rfl

/-- Outside the bank the Sampler's operation faults. -/
theorem exec_sampler_fault (hp : s.cfg.n ≤ s.pos) :
    exec (if s.pos = s.cfg.n - 1 then .bankflip else .sample) s = .fault .bankIndex := by
  split <;> simp [exec, execBankflip, execSample, Nat.not_lt.mpr hp]

theorem not_servesTick (h : s.present.port.tick = false) (hp : s.tickPending = false) : ¬ s.servesTick := by
  rintro (h' | h')
  · rw [h] at h'; cases h'
  · rw [hp] at h'; cases h'

theorem step_of_reset (h : s.present.port.rst = true) : step s = .next s.present.applyReset := by
  simp only [step, portStep, h, if_true]

/-- A state that holds the reserved phase code is refused. -/
theorem step_of_reserved (h : s.present.port.rst = false) (h15 : s.ph = 15) : step s = .refused .reservedPhase := by
  have h15' : s.present.ph = 15 := h15
  simp only [step, portStep, h, h15', Bool.false_eq_true, if_false, if_true]

/-- A step that serves a tick, arriving or pending. -/
theorem step_of_tick (h : s.present.port.rst = false) (h15 : s.ph ≠ 15) (ht : s.present.port.tick = !s.tickPending) :
    step s = exec (if s.pos = s.cfg.n - 1 then .bankflip else .sample) s.present.requestTick := by
  have key : samplerStep s.present.requestTick =
      exec (if s.pos = s.cfg.n - 1 then .bankflip else .sample) s.present.requestTick :=
    samplerStep_eq s.present.requestTick rfl
  rw [← key]
  have h15' : s.present.ph ≠ 15 := h15
  cases hp : s.tickPending with
  | false =>
    rw [hp] at ht
    simp only [step, portStep, h, h15', ht, present_tickPending, hp, Bool.not_false, if_true, Bool.false_eq_true, if_false]
  | true =>
    rw [hp] at ht
    have : s.present.requestTick = s.present := by
      simp only [State.requestTick, State.present, hp]
    simp only [step, portStep, h, h15', ht, present_tickPending, hp, Bool.not_true, if_true, Bool.false_eq_true, if_false, this]

/-- A step of the loop controller. -/
theorem step_of_quiet (h : s.present.port.rst = false) (ht : s.present.port.tick = false) (hp : s.tickPending = false) :
    step s = loopStep s.present := by
  by_cases h15 : s.ph = 15
  · rw [step_of_reserved s h h15, loopStep, show s.present.ph = 15 from h15]; rfl
  · have h15' : s.present.ph ≠ 15 := h15
    simp only [step, portStep, h, h15', ht, present_tickPending, hp, Bool.false_eq_true, if_false]

theorem loopStep_of_decode {i : Instr} (h : decodePh s.ph = .ok i) : loopStep s = exec i s := by
  rw [loopStep, h, perform]

/-- All that a step that answers a next state can be: a reset, the Sampler's operation, or the operation in `ph`. -/
theorem step_cases {t : State} (h : step s = .next t) :
    (s.present.port.rst = true ∧ t = s.present.applyReset) ∨
    (s.present.port.rst = false ∧ s.present.port.tick = !s.tickPending ∧ s.pos < s.cfg.n ∧ s.ph ≠ 15 ∧
      t = if s.pos = s.cfg.n - 1 then s.present.captureSample.flipBanks else s.present.captureSample.advancePos) ∨
    (s.present.port.rst = false ∧ s.present.port.tick = false ∧ s.tickPending = false ∧
      ∃ i, decodePh s.ph = .ok i ∧ i.format = .ph ∧ exec i s.present = .next t) := by
  by_cases hr : s.present.port.rst = true
  · rw [step_of_reset s hr] at h
    exact .inl ⟨hr, (Host.Outcome.next.inj h).symm⟩
  rw [Bool.not_eq_true] at hr
  by_cases h15 : s.ph = 15
  · cases h.symm.trans (step_of_reserved s hr h15)
  by_cases ht : s.present.port.tick = !s.tickPending
  · rw [step_of_tick s hr h15 ht] at h
    by_cases hp : s.pos < s.cfg.n
    · have := h.symm.trans (exec_sampler s.present.requestTick hp)
      exact .inr (.inl ⟨hr, ht, hp, h15, Host.Outcome.next.inj this⟩)
    · cases h.symm.trans (exec_sampler_fault s.present.requestTick (Nat.not_lt.mp hp))
  · cases htk : s.present.port.tick with
    | true =>
      have hp : s.tickPending = true := by
        cases hq : s.tickPending with
        | true => rfl
        | false => exact absurd (by rw [htk, hq]; rfl) ht
      have h15' : s.present.ph ≠ 15 := h15
      simp only [step, portStep, hr, h15', htk, present_tickPending, hp, Bool.false_eq_true, if_false, if_true] at h
      cases h
    | false =>
      have hp : s.tickPending = false := by
        cases hq : s.tickPending with
        | false => rfl
        | true => exact absurd (by rw [htk, hq]; rfl) ht
      rw [step_of_quiet s hr htk hp] at h
      rcases decodePh_cases s.ph with ⟨-, he⟩ | ⟨i, hi, hf, -⟩
      · rw [loopStep, show s.present.ph = s.ph from rfl, he] at h
        cases h
      · rw [loopStep_of_decode s.present hi] at h
        exact .inr (.inr ⟨hr, rfl, hp, i, hi, hf, h⟩)

end Sys2Proof.Machine
end

