-- ==== Sys2Proof/Laws/PerInstr.lean ====
section
/-! SUPPORT. One lemma per operation: its encoded word fits its format and decodes to the operation. -/

namespace Sys2Proof.Laws.RoundTrip

/-- The encoder's word of the operation fits the format and decodes back (spec/30_encoding.md R97, R98). -/
def Statement (i : Instr) : Prop :=
  i.wf = true ∧ (encode i).1.fits (encode i).2 = true ∧ decode (encode i).1 (encode i).2 = .ok i

theorem sample : Statement .sample := ⟨rfl, rfl, rfl⟩
theorem bankflip : Statement .bankflip := ⟨rfl, rfl, rfl⟩
theorem dispatch : Statement .dispatch := ⟨rfl, rfl, rfl⟩
theorem acquire : Statement .acquire := ⟨rfl, rfl, rfl⟩
theorem copy : Statement .copy := ⟨rfl, rfl, rfl⟩
theorem dcrem : Statement .dcrem := ⟨rfl, rfl, rfl⟩
theorem window : Statement .window := ⟨rfl, rfl, rfl⟩
theorem fft : Statement .fft := ⟨rfl, rfl, rfl⟩
theorem mag : Statement .mag := ⟨rfl, rfl, rfl⟩
theorem peak : Statement .peak := ⟨rfl, rfl, rfl⟩
theorem freq : Statement .freq := ⟨rfl, rfl, rfl⟩
theorem lookup : Statement .lookup := ⟨rfl, rfl, rfl⟩
theorem emit : Statement .emit := ⟨rfl, rfl, rfl⟩
theorem seqWait : Statement .seqWait := ⟨rfl, rfl, rfl⟩
theorem drive : Statement .drive := ⟨rfl, rfl, rfl⟩
theorem playCheck : Statement .playCheck := ⟨rfl, rfl, rfl⟩
theorem stop : Statement .stop := ⟨rfl, rfl, rfl⟩

end Sys2Proof.Laws.RoundTrip
end

