-- ==== Sys2Proof/Laws/Run.lean ====
section
/-! SUPPORT. Runs under given environment entries: what is still to come at the ports changes nothing of a step. -/

namespace Sys2Proof.Machine

@[simp] theorem andThen_next (s : State) (k : State → Answer) : Answer.andThen (.next s) k = k s := rfl
@[simp] theorem andThen_fault (f : Fault) (k : State → Answer) : Answer.andThen (.fault f) k = .fault f := rfl
@[simp] theorem andThen_refused (r : Refusal) (k : State → Answer) : Answer.andThen (.refused r) k = .refused r := rfl

theorem andThen_eq_next {a : Answer} {k : State → Answer} {t : State} (h : Answer.andThen a k = .next t) :
    ∃ s, a = .next s ∧ k s = .next t := by
  cases a with
  | next s => exact ⟨s, rfl, h⟩
  | fault f => cases h
  | refused r => cases h

theorem withInputs_writeBank (s : State) (b : Fin 2) (i : Nat) (v : Smp) (es : List EnvInput) :
    (s.withInputs es).writeBank b i v = (s.writeBank b i v).withInputs es := by
  unfold State.writeBank; split <;> rfl

theorem withInputs_captureSample (s : State) (es : List EnvInput) :
    (s.withInputs es).captureSample = s.captureSample.withInputs es :=
  withInputs_writeBank s.serveTick s.fill s.pos ⟨s.cfg.calibrate s.drawAdc, Value.zero⟩ es

/-- An operation does not look at the entries still to come. -/
theorem exec_withInputs (i : Instr) (s : State) (es : List EnvInput) :
    exec i (s.withInputs es) = Answer.andThen (exec i s) fun t => .next (t.withInputs es) := by
  cases i with
  | sample =>
    have h1 : (s.withInputs es).lastPos = s.lastPos := rfl
    simp only [exec, execSample, withInputs_captureSample, withInputs_pos, withInputs_cfg, h1]
    split
    · split <;> rfl
    · rfl
  | bankflip =>
    simp only [exec, execBankflip, withInputs_captureSample, withInputs_pos, withInputs_cfg]
    split <;> rfl
  | seqWait =>
    have h1 : (s.withInputs es).melodyStep = s.melodyStep := rfl
    have h2 : (s.withInputs es).cls = s.cls := rfl
    simp only [exec, execSeqWait, h1, h2]
    split
    · split <;> rfl
    · rfl
  | dispatch | acquire | copy | dcrem | window | fft | mag | peak | freq | lookup | emit | drive | playCheck | stop => rfl

/-- An operation leaves the configuration and the environment as they are, and serves or keeps the pending tick. -/
theorem exec_env {i : Instr} {s t : State} (h : exec i s = .next t) :
    t.cfg = s.cfg ∧ t.port = s.port ∧ t.inputs = s.inputs ∧ t.envCount = s.envCount ∧
      t.tickPending = (if i.format = .tsel then false else s.tickPending) := by
  cases i with
  | sample =>
    simp only [exec, execSample] at h
    split at h
    · cases h; split <;> simp [Instr.format]
    · cases h
  | bankflip =>
    simp only [exec, execBankflip] at h
    split at h
    · cases h; simp [Instr.format]
    · cases h
  | seqWait =>
    simp only [exec, execSeqWait] at h
    split at h
    · cases h; split <;> simp [Instr.format]
    · cases h
  | dispatch | acquire | copy | dcrem | window | fft | mag | peak | freq | lookup | emit | drive | playCheck | stop =>
    obtain rfl := Host.Outcome.next.inj h
    simp [Instr.format]

/-- A step moves the environment on by one entry and keeps the configuration. -/
theorem step_env {s t : State} (h : step s = .next t) :
    t.cfg = s.cfg ∧ t.port = s.present.port ∧ t.inputs = s.inputs.tail ∧ t.envCount = s.envCount + 1 ∧
      t.tickPending = false := by
  rcases step_cases s h with ⟨-, rfl⟩ | ⟨-, -, -, -, rfl⟩ | ⟨-, -, hp, i, -, hf, he⟩
  · simp
  · split <;> simp
  · obtain ⟨h1, h2, h3, h4, h5⟩ := exec_env he
    rw [hf] at h5
    exact ⟨h1, h2, h3, h4, h5.trans hp⟩

/-- The block with the entry `e` at the ports and nothing waiting behind it. -/
def State.at (s : State) (e : EnvInput) : State := { s with port := e, inputs := [], envCount := s.envCount + 1 }

theorem present_withInputs (s : State) (e : EnvInput) (es : List EnvInput) :
    (s.withInputs (e :: es)).present = (s.at e).withInputs es := rfl

/-- One step under the entry `e`, whatever waits behind it. -/
theorem step_withInputs (s : State) (e : EnvInput) (es : List EnvInput) :
    step (s.withInputs (e :: es)) = Answer.andThen (portStep (s.at e)) fun t => .next (t.withInputs es) := by
  rw [step, present_withInputs]
  have hs : samplerStep ((s.at e).withInputs es) =
      Answer.andThen (samplerStep (s.at e)) fun t => .next (t.withInputs es) := by
    unfold samplerStep perform
    rw [show ((s.at e).withInputs es).tselWord = (s.at e).tselWord from rfl]
    split
    · exact exec_withInputs ..
    · rfl
  have hr : samplerStep ((s.at e).withInputs es).requestTick =
      Answer.andThen (samplerStep (s.at e).requestTick) fun t => .next (t.withInputs es) := by
    unfold samplerStep perform
    rw [show ((s.at e).withInputs es).requestTick.tselWord = (s.at e).requestTick.tselWord from rfl,
      show ((s.at e).withInputs es).requestTick = (s.at e).requestTick.withInputs es from rfl]
    split
    · exact exec_withInputs ..
    · rfl
  have hl : loopStep ((s.at e).withInputs es) =
      Answer.andThen (loopStep (s.at e)) fun t => .next (t.withInputs es) := by
    unfold loopStep perform
    rw [show ((s.at e).withInputs es).ph = (s.at e).ph from rfl]
    split
    · exact exec_withInputs ..
    · rfl
  unfold portStep
  simp only [withInputs_port, withInputs_ph, withInputs_tickPending, hs, hr, hl]
  split_ifs <;> rfl

theorem withInputs_of_inputs {s : State} {es : List EnvInput} (h : s.inputs = es) : s.withInputs es = s := by
  subst h; rfl

@[simp] theorem withInputs_withInputs (s : State) (es fs : List EnvInput) :
    (s.withInputs es).withInputs fs = s.withInputs fs := rfl

@[simp] theorem runInputs_nil (s : State) : runInputs [] s = .next (s.withInputs []) := rfl

/-- One step of the host's run. -/
theorem run_succ (M : Host.Core) (k : Nat) (s : M.State) : M.run (k + 1) s =
    match M.step s with | .next t => M.run k t | .fault r => .fault r | .refused r => .refused r := rfl

/-- A run is its first step and the run from there. -/
theorem runInputs_cons (e : EnvInput) (es : List EnvInput) (s : State) :
    runInputs (e :: es) s = Answer.andThen (step (s.withInputs (e :: es))) (runInputs es) := by
  have h1 : runInputs (e :: es) s =
      Answer.andThen (step (s.withInputs (e :: es))) (Sys2Proof.core.run es.length) := by
    refine (run_succ Sys2Proof.core es.length (s.withInputs (e :: es))).trans ?_
    generalize hk : Sys2Proof.core.run es.length = k
    cases h : Sys2Proof.core.step (s.withInputs (e :: es)) with
    | next t => rw [show step (s.withInputs (e :: es)) = .next t from h]; rfl
    | fault f => rw [show step (s.withInputs (e :: es)) = .fault f from h]; rfl
    | refused r => rw [show step (s.withInputs (e :: es)) = .refused r from h]; rfl
  rw [h1]
  cases hs : step (s.withInputs (e :: es)) with
  | next t =>
    have ht : t.inputs = es := (step_env hs).2.2.1
    show Sys2Proof.core.run es.length t = Sys2Proof.core.run es.length (t.withInputs es)
    rw [withInputs_of_inputs ht]
  | fault f => rfl
  | refused r => rfl

theorem runInputs_withInputs (es fs : List EnvInput) (s : State) : runInputs es (s.withInputs fs) = runInputs es s := rfl

/-- A run of a longer list goes on where the run of its front part ended. -/
theorem runInputs_append (es fs : List EnvInput) (s : State) :
    runInputs (es ++ fs) s = Answer.andThen (runInputs es s) (runInputs fs) := by
  induction es generalizing s with
  | nil => rfl
  | cons e es ih =>
    rw [List.cons_append, runInputs_cons, runInputs_cons, step_withInputs, step_withInputs]
    cases portStep (s.at e) with
    | next t => exact ih t
    | fault f => rfl
    | refused r => rfl

/-- An invariant of every step holds at the end of every run that starts with it. -/
theorem runInputs_induction {P : State → Prop} (hin : ∀ s es, P s → P (s.withInputs es))
    (hstep : ∀ s, P s → ∃ t, step s = .next t ∧ P t) (es : List EnvInput) {s : State} (h : P s) :
    ∃ t, runInputs es s = .next t ∧ P t := by
  induction es generalizing s with
  | nil => exact ⟨_, rfl, hin s [] h⟩
  | cons e es ih =>
    obtain ⟨t, ht, hPt⟩ := hstep _ (hin s (e :: es) h)
    obtain ⟨u, hu, hPu⟩ := ih hPt
    exact ⟨u, by rw [runInputs_cons, ht, andThen_next, hu], hPu⟩

end Sys2Proof.Machine
end

