-- ==== Sys2Proof/Tests/Slice0.lean ====
section
/-! SUPPORT. Tests against the worked examples of spec/ and the vectors of spec/95_test_vectors.md, and a witness for the
hypotheses of each statement. -/

namespace Sys2Proof.Tests

open Sys2Proof Sys2Proof.Machine

/-! ### Helpers -/

/-- A block of four samples whose calibration is the identity, with two melody steps. -/
def cfg4 : Config :=
  { refCfg with
    n := 4, fs := 4000, calScale := .rat 4095, calOffset := .rat 0, hamming := hammingWindow 4
    noteTable := [⟨0, 900, 1100⟩], melody := [.note 0, .restStep] }

/-- A state under `cfg4`, right after reset. -/
def idle : State := State.resetOf cfg4

/-- A working buffer or bank holding a list of rationals. -/
def buffer (l : List Rat) : Store Value := Store.ofFn Value.zero l.length fun i => .rat (l.getD i 0)

/-- The elements a buffer holds. -/
def elems (n : Nat) (m : Store Value) : List Value := (List.range n).map (Store.read Value.zero m)

/-- `idle` in a phase with a given real buffer. -/
def at4 (p : PhaseWord) (re im : List Rat) : State := { idle with ph := p, workRe := buffer re, workIm := buffer im }

/-- A next state with a property. -/
def okAnd (a : Answer) (p : State → Bool) : Bool :=
  match a with
  | .next t => p t
  | .fault _ => false
  | .refused _ => false

/-- The check a configuration fails. -/
def rejects (c : Config) : Option ConfigReject :=
  match boot c with
  | .ok _ => none
  | .error r => some r

def quiet : EnvInput := ⟨false, false, 0, 0⟩
def tickOf (r : Nat) : EnvInput := ⟨false, true, r, 0⟩
def timeOf (t : Nat) : EnvInput := ⟨false, false, 0, t⟩

/-! ### WellFormed refuses (spec/70_reset_and_hazards.md R276) -/

theorem test_wf_accepts_reference : rejects refCfg = none := by decide +kernel
theorem test_wf_accepts_unmatched_rows :
    rejects { cfg4 with noteTable := [] } = none ∧ rejects { cfg4 with noteTable := [⟨2, 2000, 1000⟩] } = none ∧
    rejects { cfg4 with melody := [⟨true, 3⟩] } = none ∧ rejects { cfg4 with calScale := .rat (-1) } = none ∧
    rejects { cfg4 with calOffset := .param 0 } = none := by decide
theorem test_wf_blockSize : rejects { cfg4 with n := 6 } = some .blockSize ∧
    rejects { cfg4 with n := 2, hamming := hammingWindow 2 } = some .blockSize := by decide
theorem test_wf_rates : rejects { cfg4 with fs := 0 } = some .rates ∧ rejects { cfg4 with fs := 65536 } = some .rates ∧
    rejects { cfg4 with adcMax := 0 } = some .rates ∧ rejects { cfg4 with adcW := 0 } = some .rates := by decide
theorem test_wf_hamming : rejects { cfg4 with hamming := hammingWindow 3 } = some .hamming := by decide
theorem test_wf_melody : rejects { cfg4 with melody := [] } = some .melody ∧
    rejects { cfg4 with melody := [.note 16] } = some .melody := by decide
theorem test_wf_noteTable : rejects { cfg4 with noteTable := [⟨16, 0, 0⟩] } = some .noteTable ∧
    rejects { cfg4 with noteTable := [⟨0, 65536, 0⟩] } = some .noteTable ∧
    rejects { cfg4 with noteTable := [⟨0, 0, 65536⟩] } = some .noteTable := by decide
theorem test_wf_widths : rejects { cfg4 with stepDuration := 2 ^ 32 } = some .widths ∧
    rejects { cfg4 with symW := 0 } = some .widths ∧ rejects { cfg4 with freqW := 0, noteTable := [] } = some .widths ∧
    rejects { cfg4 with timeW := 0, stepDuration := 0 } = some .widths ∧
    rejects { cfg4 with cmdW := 0 } = some .widths := by decide
theorem test_wf_speeds : rejects { cfg4 with speedFwd0 := 256 } = some .speeds ∧
    rejects { cfg4 with speedFwd1 := 256 } = some .speeds ∧ rejects { cfg4 with speedNeutral := 256 } = some .speeds ∧
    rejects { cfg4 with speedFwd0 := 90 } = some .speeds ∧ rejects { cfg4 with speedFwd1 := 90 } = some .speeds ∧
    rejects { cfg4 with speedFwd0 := 78 } = some .speeds := by decide
theorem test_wf_words : decode .tsel 4 = .error .tooWide ∧ decode .ph 16 = .error .tooWide := by decide

/-! ### Decoding written-out words (spec/30_encoding.md R97, R98, R100, spec/opcode_table.json) -/

theorem test_decode_sampler : decode .tsel 0b10 = .ok .sample ∧ decode .tsel 0b11 = .ok .bankflip ∧
    decode .tsel 0b00 = .error .noTick ∧ decode .tsel 0b01 = .error .noTick := by decide
theorem test_decode_loop : decode .ph 0b0000 = .ok .dispatch ∧ decode .ph 0b0001 = .ok .acquire ∧
    decode .ph 0b1010 = .ok .emit ∧ decode .ph 0b1111 = .error .reservedPhase := by decide
theorem test_decode_analyzer : decode .ph 0b0010 = .ok .copy ∧ decode .ph 0b0011 = .ok .dcrem ∧
    decode .ph 0b0100 = .ok .window ∧ decode .ph 0b0101 = .ok .fft ∧ decode .ph 0b0110 = .ok .mag := by decide
theorem test_decode_classifier : decode .ph 0b0111 = .ok .peak ∧ decode .ph 0b1000 = .ok .freq ∧
    decode .ph 0b1001 = .ok .lookup := by decide
theorem test_decode_sequencer : decode .ph 0b1011 = .ok .seqWait ∧ decode .ph 0b1101 = .ok .playCheck := by decide
theorem test_decode_actuator : decode .ph 0b1100 = .ok .drive ∧ decode .ph 0b1110 = .ok .stop := by decide

/-- The NRG words of R104. -/
theorem test_nrg_words : refNoteTable.map (NoteRow.toWord 16) =
    [0x0041A0424, 0x1048F0499, 0x2052B0535, 0x305790583, 0x406160620, 0x506D906E3] := by decide
/-- The MST words of R105. -/
theorem test_mst_words : refMelody.map (MelodyStep.toWord 4) =
    [0x00, 0x00, 0x04, 0x04, 0x05, 0x05, 0x04, 0x10, 0x03, 0x03, 0x02, 0x02, 0x01, 0x01, 0x00, 0x10] := by decide
/-- The CLS words of R162's worked example. -/
theorem test_cls_words : (Cls.mk false 2).toWord 4 = 0x02 ∧ (Cls.mk true 0).toWord 4 = 0x10 := by decide

/-! ### The table words run as the first operation after reset -/

theorem test_phase_words_run : ∀ w ∈ List.range 15, okAnd (step (State.reset.withFetchWord 4 w)) (fun _ => true) = true := by
  decide +kernel
theorem test_tsel_words_run :
    okAnd (step (State.reset.withFetchWord 2 2)) (fun t => decide (t.pos = 1 ∧ t.fill = 0)) = true ∧
    okAnd (step (State.reset.withFetchWord 2 3)) (fun t => decide (t.pos = 0 ∧ t.fill = 1 ∧ t.ready)) = true := by
  decide +kernel

/-! ### The Sampler (R120, R121, vector group V1) -/

theorem test_calibration : refCfg.calibrate 0 = .rat (1132 / 10000) ∧ refCfg.calibrate 1365 = .rat (13132 / 10000) ∧
    refCfg.calibrate 2730 = .rat (25132 / 10000) ∧ refCfg.calibrate 4095 = .rat (37132 / 10000) := by decide +kernel
theorem test_sample_stores_and_advances :
    okAnd (exec .sample { State.reset with pos := 7, port := tickOf 2730 }) (fun t =>
      decide (t.readBank 0 7 = ⟨.rat (25132 / 10000), .rat 0⟩ ∧ t.pos = 8 ∧ t.fill = 0 ∧ t.ready = false)) = true := by
  decide +kernel
/-- SAMPLE number 7 with `N = 4`: the second flip, an overrun. -/
theorem test_sample_fills_the_bank :
    okAnd (exec .sample { idle with pos := 3, fill := 1, ready := true, port := tickOf 9 }) (fun t =>
      decide (t.readBank 1 3 = ⟨.rat 9, .rat 0⟩ ∧ t.pos = 0 ∧ t.fill = 0 ∧ t.ready = true)) = true := by decide +kernel
/-- Full scale under real parameters that no expression writes: `CAL_SCALE + CAL_OFFSET` (R6, R120). -/
theorem test_sample_named_parameters :
    okAnd (exec .sample { State.resetOf { cfg4 with calScale := .param 0, calOffset := .param 1 } with
      port := tickOf 4095 }) (fun t => decide (t.readBank 0 0 = ⟨.plus (.param 0) (.param 1), .rat 0⟩)) = true := by
  decide +kernel
/-- The worked example of R121. -/
theorem test_bankflip : okAnd (exec .bankflip { idle with pos := 3, fill := 1, port := tickOf 5 }) (fun t =>
    decide (t.readBank 1 3 = ⟨.rat 5, .rat 0⟩ ∧ t.pos = 0 ∧ t.fill = 0 ∧ t.ready = true)) = true := by decide +kernel
/-- The raw port is `ADC_W` bits wide. -/
theorem test_raw_is_masked : okAnd (exec .sample { idle with port := tickOf 4101 }) (fun t =>
    decide (t.readBank 0 0 = ⟨.rat 5, .rat 0⟩)) = true := by decide +kernel

/-! ### The analyzer (R140 to R144, vector group V2, block A) -/

/-- The bank of R140's worked example. -/
def bank4 : Store Smp := Store.ofFn Smp.zero 4 fun i => ⟨Value.ofNat (i + 1), Value.zero⟩

theorem test_copy : okAnd (exec .copy { idle with fill := 1, ready := true, ph := 2, bank0 := bank4 }) (fun t =>
    decide (t.ready = false ∧ t.sb = 0 ∧ t.ph = 3 ∧ elems 4 t.workRe = [.rat 1, .rat 2, .rat 3, .rat 4] ∧
      t.workIm = [])) = true := by decide +kernel
theorem test_dcrem : okAnd (exec .dcrem (at4 3 [1, 2, 3, 4] [])) (fun t => decide (t.ph = 4 ∧
    elems 4 t.workRe = [.rat 1, .rat (-1 / 4), .rat (3 / 4), .rat (7 / 4)])) = true := by decide +kernel
/-- Block B: a constant block keeps `c/N`. -/
theorem test_dcrem_constant : okAnd (exec .dcrem (at4 3 [2, 2, 2, 2] [])) (fun t => decide (
    elems 4 t.workRe = [.rat 2, .rat (1 / 2), .rat (1 / 2), .rat (1 / 2)])) = true := by decide +kernel
theorem test_window : okAnd (exec .window (at4 4 [1, -1 / 4, 3 / 4, 7 / 4] [])) (fun t => decide (t.ph = 5 ∧
    elems 4 t.workRe = [.rat (8 / 100), .rat (-1925 / 10000), .rat (5775 / 10000), .rat (14 / 100)])) = true := by
  decide +kernel
theorem test_fft : okAnd (exec .fft (at4 5 [8 / 100, -1925 / 10000, 5775 / 10000, 14 / 100] [])) (fun t => decide (
    t.ph = 6 ∧ elems 4 t.workRe = [.rat (605 / 1000), .rat (-4975 / 10000), .rat (71 / 100), .rat (-4975 / 10000)] ∧
    elems 4 t.workIm = [.rat 0, .rat (3325 / 10000), .rat 0, .rat (-3325 / 10000)])) = true := by decide +kernel
/-- The magnitudes of bins 0 and 2, and the square of that of bin 1: `0.4975² + 0.3325²`. -/
theorem test_mag : okAnd (exec .mag (at4 6 [605 / 1000, -4975 / 10000, 71 / 100, -4975 / 10000]
      [0, 3325 / 10000, 0, -3325 / 10000])) (fun t => decide (t.ph = 7 ∧ t.readRe 0 = .rat (605 / 1000) ∧
    t.readRe 1 = .root (.rat (3580625 / 10000000)) ∧ t.readRe 2 = .rat (71 / 100) ∧
    t.readIm 1 = .rat (3325 / 10000))) = true := by decide +kernel

/-! ### The classifier (R160 to R162, vector group V4) -/

def cfg16 : Config := { cfg4 with n := 16 }
def peak16 (l : List Rat) : Answer := exec .peak { State.resetOf cfg16 with ph := 7, workRe := buffer l }

/-- Three equal maxima: the first wins, bin 0 is ignored. -/
theorem test_peak_tie : okAnd (peak16 [99, 1 / 5, 9 / 10, 2 / 5, 9 / 10, 1 / 10, 9 / 10, 3 / 10]) (fun t =>
    decide (t.peakBin = 2 ∧ t.peakMag = .rat (9 / 10) ∧ t.ph = 8)) = true := by decide +kernel
/-- All magnitudes zero: bin 1; bin 8 is never examined. -/
theorem test_peak_zero : okAnd (peak16 [99, 0, 0, 0, 0, 0, 0, 0, 77]) (fun t =>
    decide (t.peakBin = 1 ∧ t.peakMag = .rat 0)) = true := by decide +kernel
/-- The order of irrational values: `√2` against the decimals around it, and `√2·√3 = √6`. -/
theorem test_order_of_roots : Value.gt (.root (.rat 2)) (.rat (14142135 / 10000000)) = true ∧
    Value.gt (.rat (14142136 / 10000000)) (.root (.rat 2)) = true ∧
    Value.gt (.times (.root (.rat 2)) (.root (.rat 3))) (.root (.rat 6)) = false ∧
    Value.gt (.root (.rat 6)) (.times (.root (.rat 2)) (.root (.rat 3))) = false := by decide +kernel
/-- `cos(2π/8)` lies between 0.7 and 0.71. -/
theorem test_order_of_cosines : Value.gt (.cosT (1 / 8)) (.rat (7 / 10)) = true ∧
    Value.gt (.rat (71 / 100)) (.cosT (1 / 8)) = true := by decide +kernel
theorem test_freq : okAnd (exec .freq { State.reset with peakBin := 68 }) (fun t =>
    decide (t.domFreqNum = 340000 ∧ t.ph = 9)) = true := by decide +kernel
theorem test_lookup : okAnd (exec .lookup { State.reset with domFreqNum := 340000 }) (fun t =>
      decide (t.cls.toWord 4 = 0x02 ∧ t.ph = 10)) = true ∧
    okAnd (exec .lookup { State.reset with domFreqNum := 345000 }) (fun t => decide (t.cls.toWord 4 = 0x10)) = true := by
  decide +kernel
/-- Both ends of a range are included, and the first row in table order wins (`N = 8`, bin width 1000 Hz). -/
theorem test_lookup_boundaries :
    Config.classify { cfg4 with n := 8, noteTable := [⟨1, 1000, 2000⟩] } 8000 = ⟨false, 1⟩ ∧
    Config.classify { cfg4 with n := 8, noteTable := [⟨1, 1000, 2000⟩] } 16000 = ⟨false, 1⟩ ∧
    Config.classify { cfg4 with n := 8, noteTable := [⟨1, 1000, 2000⟩] } 24000 = ⟨true, 0⟩ ∧
    Config.classify { cfg4 with n := 8, noteTable := [⟨7, 500, 1500⟩, ⟨3, 1000, 1000⟩] } 8000 = ⟨false, 7⟩ := by decide

/-! ### The sequencer (R180, R183, vector group V5) -/

/-- REST at the last step, with NoMatch: the melody wraps. -/
theorem test_seqWait_rest_wraps :
    okAnd (exec .seqWait { State.reset with ph := 11, stepIdx := 15, cls := ⟨true, 0⟩, port := timeOf 40000 }) (fun t =>
      decide (t.playing = true ∧ t.startTime = 40000 ∧ t.stepIdx = 0 ∧ t.ph = 0)) = true := by decide +kernel
/-- A wrong note: only `ph` is written. -/
theorem test_seqWait_miss :
    okAnd (exec .seqWait { State.reset with ph := 11, stepIdx := 2, cls := ⟨false, 5⟩, port := timeOf 5000 }) (fun t =>
      decide (t.playing = false ∧ t.startTime = 0 ∧ t.stepIdx = 2 ∧ t.ph = 0)) = true := by decide +kernel
theorem test_playCheck_wrap :
    okAnd (exec .playCheck { State.reset with startTime := 0xFFFFFF00, port := timeOf 0x000002E8 }) (fun t =>
      decide (t.ph = 14)) = true ∧
    okAnd (exec .playCheck { State.reset with startTime := 0xFFFFFF00, port := timeOf 0x000002E7 }) (fun t =>
      decide (t.ph = 0)) = true := by decide +kernel
/-- Time that runs backward: the difference is modular. -/
theorem test_playCheck_backward :
    okAnd (exec .playCheck { State.reset with startTime := 5000, port := timeOf 4999 }) (fun t => decide (t.ph = 14)) = true ∧
    okAnd (exec .playCheck { State.reset with startTime := 5000, port := timeOf 5999 }) (fun t => decide (t.ph = 0)) = true := by
  decide +kernel

/-! ### The actuator stage and the loop controller (vector group V6) -/

theorem test_drive : okAnd (exec .drive { State.reset with ph := 12, playing := true }) (fun t =>
    decide (t.cmd 0 = 100 ∧ t.cmd 1 = 78 ∧ t.ph = 13 ∧ t.outHist = [.cmdWrite 0 100, .cmdWrite 1 78])) = true := by
  decide +kernel
theorem test_stop : okAnd (exec .stop { State.reset with ph := 14, playing := true, cmd0 := 100, cmd1 := 78 }) (fun t =>
    decide (t.cmd 0 = 90 ∧ t.cmd 1 = 90 ∧ t.playing = false ∧ t.ph = 0 ∧
      t.outHist = [.cmdWrite 0 90, .cmdWrite 1 90])) = true := by decide +kernel
theorem test_dispatch : okAnd (exec .dispatch State.reset) (fun t => decide (t.ph = 1)) = true ∧
    okAnd (exec .dispatch { State.reset with playing := true }) (fun t => decide (t.ph = 12)) = true := by decide +kernel
theorem test_acquire : okAnd (exec .acquire { State.reset with ph := 1 }) (fun t => decide (t.ph = 1)) = true ∧
    okAnd (exec .acquire { State.reset with ph := 1, ready := true }) (fun t => decide (t.ph = 2 ∧ t.ready)) = true := by
  decide +kernel
theorem test_emit : okAnd (exec .emit { at4 10 [1, 2, 3, 4] [] with peakBin := 1, peakMag := .rat 2, domFreqNum := 4000 })
    (fun t => decide (t.ph = 11 ∧ t.outHist = [.diag [.rat 1, .rat 2] (.rat 2) 1 4000])) = true := by decide +kernel

/-! ### The stops -/

theorem test_stops : exec .sample { idle with pos := 4 } = .fault .bankIndex ∧
    exec .bankflip { idle with pos := 4 } = .fault .bankIndex ∧
    exec .seqWait { idle with stepIdx := 2 } = .fault .melodyIndex ∧
    step { idle with ph := 15, inputs := [quiet] } = .refused .reservedPhase ∧
    step { idle with ph := 15, inputs := [tickOf 0] } = .refused .reservedPhase ∧
    step { idle with tickPending := true, inputs := [tickOf 0] } = .refused .tickOverrun := ⟨rfl, rfl, rfl, rfl, rfl, rfl⟩

/-! ### Witnesses: for each statement with hypotheses, a state and operands that meet them all -/

/-- `idle` with entries waiting. -/
def waiting (es : List EnvInput) : State := idle.withInputs es

/-- In Playing, right after the hit at time 0: the next operation is DISPATCH. -/
def inPlaying : State := { idle with playing := true, stepIdx := 1 }

theorem witness_inv_idle (es : List EnvInput) : (waiting es).Inv where
  cfgWf := by show cfg4.wf = true; decide
  posLt := by show 0 < 4; decide
  bank0Wf := rfl
  bank1Wf := rfl
  bankImZero := by intro b i; fin_cases b <;> rfl
  workReWf := rfl
  workImWf := rfl
  workImZero := fun _ _ => rfl
  stepLt := by show 0 < 2; decide
  noPending := rfl
  phaseLegal := by show (0 : PhaseWord) ≠ 15; decide
  playingPhase := fun _ => .inl rfl
  waitingPhase := by intro _; show (0 : PhaseWord) ≠ 12 ∧ (0 : PhaseWord) ≠ 13 ∧ (0 : PhaseWord) ≠ 14; decide
  neutral := fun _ => ⟨rfl, rfl⟩
  copyReady := by intro h; exact absurd h (by show (0 : PhaseWord) ≠ 2; decide)
  startLt := by show 0 < 2 ^ 32; decide
  peakLt := by show 0 < 4 / 2; decide
  domLt := by show 0 < 2 ^ (Nat.log2 4 - 1 + 16); decide
  clsLt := by show 0 < 2 ^ 4; decide
  clsNoMatch := fun _ => rfl
  cmdLt := by show 90 < 2 ^ 8 ∧ 90 < 2 ^ 8; decide

theorem witness_inv_inPlaying : inPlaying.Inv :=
  { witness_inv_idle [] with
    stepLt := by show 1 < 2; decide
    playingPhase := fun _ => .inl rfl
    waitingPhase := fun h => by cases h
    neutral := fun h => by cases h }

/-- At SEQ_WAIT with a matching classification. -/
def atHit : State := { idle with ph := 11, cls := ⟨false, 0⟩, inputs := [timeOf 5] }

theorem witness_inv_atHit : atHit.Inv :=
  { witness_inv_idle [] with
    workImZero := by
      intro h; exact absurd h (by show ¬((11 : PhaseWord) = 3 ∨ (11 : PhaseWord) = 4 ∨ (11 : PhaseWord) = 5); decide)
    phaseLegal := by show (11 : PhaseWord) ≠ 15; decide
    playingPhase := fun h => by cases h
    waitingPhase := by intro _; show (11 : PhaseWord) ≠ 12 ∧ (11 : PhaseWord) ≠ 13 ∧ (11 : PhaseWord) ≠ 14; decide
    copyReady := by intro h; exact absurd h (by show (11 : PhaseWord) ≠ 2; decide) }

theorem witness_EncodedOperationsDecodeBack : Instr.stop.wf = true := rfl

theorem witness_WordFormatsRoundTrip : (Cls.mk false 15).sym < 2 ^ 4 ∧ (31 : Nat) < 2 ^ (1 + 4) ∧
    (MelodyStep.mk true 15).sym < 2 ^ 4 ∧ (NoteRow.mk 15 65535 65535).sym < 2 ^ 4 ∧
    (NoteRow.mk 15 65535 65535).fmin < 2 ^ 16 ∧ (NoteRow.mk 15 65535 65535).fmax < 2 ^ 16 ∧
    (0xFFFFFFFFF : Nat) < 2 ^ (4 + 2 * 16) := by decide

theorem witness_StepRunsThePhaseOperation : (waiting [quiet]).present.port.rst = false ∧
    (waiting [quiet]).present.port.tick = false ∧ (waiting [quiet]).tickPending = false ∧
    decodePh (waiting [quiet]).ph = .ok .dispatch := ⟨rfl, rfl, rfl, rfl⟩

theorem witness_StepServesATick :
    ((waiting [tickOf 1]).present.port.rst = false ∧
      (waiting [tickOf 1]).present.port.tick = !(waiting [tickOf 1]).tickPending) ∧
    ((waiting [quiet]).requestTick.present.port.rst = false ∧
      (waiting [quiet]).requestTick.present.port.tick = !(waiting [quiet]).requestTick.tickPending) :=
  ⟨⟨rfl, rfl⟩, ⟨rfl, rfl⟩⟩

theorem witness_PresentedInputChangesOnlyThePorts : (waiting [tickOf 1]).inputs = [tickOf 1] := rfl

theorem witness_SelectedTableWordRunsItsOperation : 2 ≤ idle.cfg.n ∧ Instr.stop.format = .ph ∧
    Instr.bankflip.format = .tsel := by decide

theorem witness_ReservedPhaseIsNeverWrittenAndRefused :
    (idle.ph ≠ 15 ∧ ∃ t, exec .dispatch idle = .next t) ∧
    (({ waiting [quiet] with ph := 15 } : State).ph = 15 ∧
      ({ waiting [quiet] with ph := 15 } : State).present.port.rst = false) ∧
    (({ waiting [tickOf 1] with ph := 15 } : State).ph = 15 ∧
      ({ waiting [tickOf 1] with ph := 15 } : State).present.port.rst = false) :=
  ⟨⟨by decide, _, rfl⟩, ⟨rfl, rfl⟩, ⟨rfl, rfl⟩⟩

theorem witness_SecondPendingTickIsRefused : (waiting [tickOf 1]).requestTick.tickPending = true ∧
    (waiting [tickOf 1]).requestTick.present.port.rst = false ∧
    (waiting [tickOf 1]).requestTick.present.port.tick = true := ⟨rfl, rfl, rfl⟩

theorem witness_ResetInputReinitialisesEverything : (waiting [⟨true, true, 7, 7⟩]).present.port.rst = true := rfl

theorem witness_BootAcceptsExactlyLegalConfigurations : boot cfg4 = .ok idle := rfl

theorem witness_ConfigurationNeverChanges : ∃ t, step (waiting [quiet]) = .next t := ⟨_, rfl⟩

theorem witness_CalibrationIsTheLinearFormula : cfg4.num = .exact ∧ 1 ≤ cfg4.adcMax ∧ 0 < cfg4.calScale.val ∧
    (0 : Nat) < 1 := by
  refine ⟨rfl, by decide, ?_, by decide⟩
  show 0 < (Value.rat 4095).val
  norm_num

theorem witness_SampleStoresOneCalibratedReading :
    (idle.pos < idle.cfg.n ∧ idle.pos ≠ idle.cfg.n - 1 ∧ ¬((1 : Fin 2) = idle.fill ∧ 0 = idle.pos)) ∧
    (({ idle with pos := 3 } : State).pos < ({ idle with pos := 3 } : State).cfg.n ∧
      ({ idle with pos := 3 } : State).pos = ({ idle with pos := 3 } : State).cfg.n - 1) := by decide

theorem witness_BankflipHandsTheBlockOver :
    ({ idle with pos := 3 } : State).pos < ({ idle with pos := 3 } : State).cfg.n ∧
      ({ idle with pos := 3 } : State).pos = ({ idle with pos := 3 } : State).cfg.n - 1 ∧
      ¬((0 : Fin 2) = ({ idle with pos := 3 } : State).fill ∧ 2 = ({ idle with pos := 3 } : State).pos) := by decide

/-- At the last position of bank 1, sample number 7 of blocks of four. -/
def atLast (es : List EnvInput) : State := { waiting es with pos := 3, fill := 1 }

theorem witness_inv_atLast (es : List EnvInput) : (atLast es).Inv :=
  { witness_inv_idle es with posLt := by show 3 < 4; decide }

/-- Sample number 7 served, sample number 0 served, and a step that serves none. -/
theorem witness_SamplesFollowOneAnotherThroughTheBanks :
    ((atLast [tickOf 1]).Inv ∧ (atLast [tickOf 1]).pos = 7 % cfg4.n ∧ ((atLast [tickOf 1]).fill : Nat) = 7 / cfg4.n % 2 ∧
      (atLast [tickOf 1]).present.port.rst = false ∧ (atLast [tickOf 1]).servesTick) ∧
    ((waiting [tickOf 1]).Inv ∧ (waiting [tickOf 1]).pos = 0 % cfg4.n ∧
      ((waiting [tickOf 1]).fill : Nat) = 0 / cfg4.n % 2 ∧ (waiting [tickOf 1]).present.port.rst = false ∧
      (waiting [tickOf 1]).servesTick) ∧
    ((atLast [quiet]).Inv ∧ (atLast [quiet]).pos = 7 % cfg4.n ∧ ((atLast [quiet]).fill : Nat) = 7 / cfg4.n % 2 ∧
      (atLast [quiet]).present.port.rst = false ∧ ¬ (atLast [quiet]).servesTick) :=
  ⟨⟨witness_inv_atLast _, rfl, rfl, rfl, .inl rfl⟩, ⟨witness_inv_idle _, rfl, rfl, rfl, .inl rfl⟩,
    ⟨witness_inv_atLast _, rfl, rfl, rfl, not_servesTick _ rfl rfl⟩⟩

/-- Four ticks with operations of the loop controller between them. -/
def blockEntries : List EnvInput := [quiet, tickOf 1, quiet, tickOf 2, tickOf 3, quiet, quiet, tickOf 4]

theorem witness_CompletedBlockIsCopiedInCaptureOrder : (waiting []).Inv ∧ (waiting []).pos = 0 ∧
    (∀ x ∈ blockEntries, x.rst = false) ∧ (blockEntries.filter (·.tick)).length = (waiting []).cfg.n ∧
    blockEntries.getLast? = some (tickOf 4) ∧ (tickOf 4).tick = true ∧
    (blockEntries.filter (·.tick))[3]? = some (tickOf 4) :=
  ⟨witness_inv_idle [], rfl, by decide, rfl, rfl, rfl, rfl⟩

theorem witness_SamplerCommutesWithPrivateOperations : Instr.seqWait.format = .ph ∧ Instr.seqWait ≠ .acquire ∧
    Instr.seqWait ≠ .copy ∧ Instr.bankflip.format = .tsel ∧ idle.pos < idle.cfg.n := by decide

/-- Also the hypotheses of the statements about WINDOW, PEAK and FREQ. -/
theorem witness_DcRemovalSubtractsTheMean : idle.cfg.wf = true ∧ idle.cfg.num = .exact ∧ 1 ≤ 3 ∧ 3 < idle.cfg.n := by
  decide

theorem witness_ConstantBlockLeavesAResidue : ∃ t, idle.cfg.wf = true ∧ idle.cfg.num = .exact ∧
    (∀ i, i < idle.cfg.n → (idle.readRe i).val = 0) ∧ exec .dcrem idle = .next t :=
  ⟨_, by decide, rfl, fun _ _ => Value.val_zero, rfl⟩

theorem witness_WindowScalesTheRealComponent : idle.cfg.wf = true ∧ 3 < idle.cfg.hamming.length ∧
    idle.cfg.num = .exact ∧ idle.cfg.hamming = hammingWindow idle.cfg.n ∧ 3 < idle.cfg.n := by
  refine ⟨by decide, by decide, rfl, rfl, by decide⟩

/-- Also the hypotheses of the statement about MAG. -/
theorem witness_FftIsTheForwardTransform : idle.cfg.num = .exact ∧ 3 < idle.cfg.n := by decide

theorem witness_AnalyzerComputesTheSpectrum : ∃ (x : Nat → ℝ) (m : ℝ), (waiting []).Inv ∧
    (waiting []).cfg.num = .exact ∧ (∀ i, x i = (((waiting []).readBank (1 - (waiting []).fill) i).re).val) ∧
    m = (∑ i ∈ Finset.Ico 1 (waiting []).cfg.n, x i) / ((waiting []).cfg.n : ℝ) ∧ 1 < (waiting []).cfg.n / 2 :=
  ⟨_, _, witness_inv_idle [], rfl, fun _ => rfl, rfl, by decide⟩

theorem witness_PeakIsTheLowestBinOfGreatestMagnitude : idle.cfg.wf = true ∧ idle.cfg.num = .exact ∧
    1 ≤ 1 ∧ 1 ≤ idle.cfg.n / 2 - 1 := by decide

theorem witness_FreqIsTheExactProduct : ({ idle with peakBin := 1 } : State).cfg.wf = true ∧
    ({ idle with peakBin := 1 } : State).peakBin ≤ ({ idle with peakBin := 1 } : State).cfg.n / 2 - 1 := by decide

/-- The first clause at the lower end of the row, the second above its upper end. -/
theorem witness_LookupTakesTheFirstMatchingRow :
    (({ idle with domFreqNum := 3600 } : State).cfg.noteTable[0]? = some ⟨0, 900, 1100⟩ ∧ 900 * 4 ≤ 3600 ∧
      3600 ≤ 1100 * 4) ∧
    (∀ r ∈ ({ idle with domFreqNum := 4401 } : State).cfg.noteTable, ¬(r.fmin * 4 ≤ 4401 ∧ 4401 ≤ r.fmax * 4)) := by
  decide

/-- The melody's two steps: a note that is matched, a note that is not, and REST. -/
theorem witness_SeqWaitEntersPlayingOnAHit :
    (idle.cfg.melody[idle.stepIdx]? = some (.note 0) ∧ (idle.cls.noMatch = false ∧ idle.cls.sym = 0)) ∧
    (({ idle with cls := ⟨true, 0⟩ } : State).cfg.melody[({ idle with cls := ⟨true, 0⟩ } : State).stepIdx]? =
        some (.note 0) ∧
      ¬((MelodyStep.note 0).rest = true ∨ (true = false ∧ 0 = (MelodyStep.note 0).sym))) ∧
    (({ idle with stepIdx := 1 } : State).cfg.melody[({ idle with stepIdx := 1 } : State).stepIdx]? =
      some .restStep ∧ MelodyStep.restStep.rest = true) := by decide

theorem witness_ElapsedTimeSurvivesTheWrap : (2 ^ 32 - 1 : Nat) < 2 ^ cfg4.timeW := by decide

theorem witness_MelodyAdvancesByOnePerHit : ∃ t, atHit.Inv ∧ atHit.present.port.rst = false ∧ step atHit = .next t ∧
    t.stepIdx = 1 := ⟨_, witness_inv_atHit, rfl, rfl, rfl⟩

theorem witness_AcquireWaitsForABlock : ({ idle with ready := true } : State).ready = true ∧
    ({ idle with ph := 1 } : State).ready = false ∧ ({ idle with ph := 1 } : State).ph = 1 := by decide

/-- A step that serves a tick, and one that does not. -/
theorem witness_PhaseFollowsTheSuccessorTable :
    (∃ t, (waiting [tickOf 1]).present.port.rst = false ∧ step (waiting [tickOf 1]) = .next t ∧
      (waiting [tickOf 1]).servesTick) ∧
    (∃ t, (waiting [quiet]).present.port.rst = false ∧ step (waiting [quiet]) = .next t ∧
      ¬ (waiting [quiet]).servesTick) :=
  ⟨⟨_, rfl, rfl, .inl rfl⟩, ⟨_, rfl, rfl, not_servesTick _ rfl rfl⟩⟩

/-- The tick that fills the bank sets `ready`; COPY clears it. -/
theorem witness_ReadyIsSetByBankflipAndClearedByCopy :
    (∃ t, ({ waiting [tickOf 1] with pos := 3 } : State).present.port.rst = false ∧
      step { waiting [tickOf 1] with pos := 3 } = .next t ∧
      ({ waiting [tickOf 1] with pos := 3 } : State).servesTick ∧ t.ready = true) ∧
    (∃ t, ({ waiting [quiet] with ph := 2, ready := true } : State).present.port.rst = false ∧
      step { waiting [quiet] with ph := 2, ready := true } = .next t ∧
      ¬ ({ waiting [quiet] with ph := 2, ready := true } : State).servesTick ∧ t.ready = false) :=
  ⟨⟨_, rfl, rfl, .inl rfl, rfl⟩, ⟨_, rfl, rfl, not_servesTick _ rfl rfl, rfl⟩⟩

theorem witness_OutputHistoryGrowsByTheFourKindsOfEvents : ∃ t, (waiting [quiet]).present.port.rst = false ∧
    step (waiting [quiet]) = .next t := ⟨_, rfl, rfl⟩

theorem witness_ResetStateMeetsTheInvariant : cfg4.wf = true := by decide

theorem witness_EveryStepCompletesAndKeepsTheInvariant : (waiting [tickOf 1]).Inv := witness_inv_idle _

/-- In Playing with a tick, and with a step of the loop controller, at the ports. -/
theorem witness_NothingIsDetectedWhilePlaying :
    (∃ t, (inPlaying.withInputs [tickOf 1]).Inv ∧ (inPlaying.withInputs [tickOf 1]).playing = true ∧
      (inPlaying.withInputs [tickOf 1]).present.port.rst = false ∧ step (inPlaying.withInputs [tickOf 1]) = .next t) ∧
    (∃ t, (inPlaying.withInputs [quiet]).Inv ∧ (inPlaying.withInputs [quiet]).playing = true ∧
      (inPlaying.withInputs [quiet]).present.port.rst = false ∧ step (inPlaying.withInputs [quiet]) = .next t) :=
  ⟨⟨_, { witness_inv_inPlaying with }, rfl, rfl, rfl⟩, ⟨_, { witness_inv_inPlaying with }, rfl, rfl, rfl⟩⟩

/-- A run that ends in WaitingForNote. -/
theorem witness_VehicleIsNeutralWhileWaiting : cfg4.wf = true ∧
    okAnd (runInputs [tickOf 1, quiet] (State.resetOf cfg4)) (fun t => !t.playing) = true := by decide +kernel

theorem witness_StandingCommandIsTheLastOneSent : cfg4.wf = true ∧ ∀ e ∈ [tickOf 1, quiet], e.rst = false := by decide

theorem witness_NoNeutralCommandBeforeTheStepIsOver : inPlaying.Inv ∧ inPlaying.playing = true ∧ inPlaying.ph ≠ 14 ∧
    (∀ e ∈ [timeOf 1, timeOf 500, timeOf 999], e.rst = false ∧
      inPlaying.cfg.elapsed (e.now % 2 ^ inPlaying.cfg.timeW) inPlaying.startTime < inPlaying.cfg.stepDuration) :=
  ⟨witness_inv_inPlaying, rfl, by decide, by decide⟩

theorem witness_PlayingEndsWithoutTicksOnceTheTimeIsOver : inPlaying.Inv ∧ inPlaying.playing = true ∧
    inPlaying.ph = 0 ∧ (timeOf 998).IsQuiet ∧ (timeOf 999).IsQuiet ∧ (timeOf 1000).IsQuiet ∧ (timeOf 1001).IsQuiet ∧
    inPlaying.cfg.stepDuration ≤ inPlaying.cfg.elapsed ((timeOf 1000).now % 2 ^ inPlaying.cfg.timeW) inPlaying.startTime :=
  ⟨witness_inv_inPlaying, rfl, rfl, ⟨rfl, rfl⟩, ⟨rfl, rfl⟩, ⟨rfl, rfl⟩, ⟨rfl, rfl⟩, by decide⟩

theorem witness_WaitingWithoutTicksChangesNothing : ({ idle with ph := 1 } : State).tickPending = false ∧
    ({ idle with ph := 1 } : State).ph = 1 ∧ ({ idle with ph := 1 } : State).ready = false ∧
    (∀ e ∈ [quiet, quiet], e.IsQuiet) := by
  refine ⟨rfl, rfl, rfl, ?_⟩
  simp [EnvInput.IsQuiet, quiet]

theorem witness_SamplerTouchesOnlyTheFillingBank : ∃ t, (waiting [tickOf 1]).present.port.rst = false ∧
    (waiting [tickOf 1]).servesTick ∧ step (waiting [tickOf 1]) = .next t ∧ 1 ≠ (waiting [tickOf 1]).pos :=
  ⟨_, rfl, .inl rfl, rfl, by decide⟩

theorem witness_LoopControllerNeverSeesTheFillingBank :
    ∃ t, ({ waiting [quiet] with ph := 2 } : State).present.port.rst = false ∧
      ¬ ({ waiting [quiet] with ph := 2 } : State).servesTick ∧ step { waiting [quiet] with ph := 2 } = .next t :=
  ⟨_, rfl, not_servesTick _ rfl rfl, rfl⟩

/-- A state that differs from `idle` in a register that is not live at DISPATCH. -/
theorem witness_UnspecifiedRegistersAreNeverSeen : ∃ s', (waiting [quiet]).Inv ∧
    LiveEqual (waiting [quiet]) { waiting [quiet] with peakBin := 1, startTime := 7 } ∧
    step (waiting [quiet]) = .next s' ∧ cfg4.wf = true := by
  refine ⟨_, witness_inv_idle _, ⟨⟨rfl, rfl, rfl, rfl, rfl⟩, ⟨rfl, rfl, rfl, rfl, rfl⟩, ⟨rfl, rfl, rfl⟩, rfl, rfl, rfl,
    ?_, ?_, ?_, ?_, ?_, ?_⟩, rfl, by decide⟩
  all_goals intro h; exact absurd h (by decide)

/-- A run whose entries are not all ticks, and one of ticks alone that fills a bank. -/
theorem witness_SampleNumberIsTheCountOfTicks : cfg4.wf = true ∧ (∀ e ∈ blockEntries, e.rst = false) ∧
    okAnd (runInputs blockEntries (State.resetOf cfg4)) (fun t => t.ready) = true ∧
    (∀ e ∈ [tickOf 1, tickOf 2, tickOf 3, tickOf 4], e.rst = false ∧ e.tick = true) := by decide +kernel

/-- After DRIVE has sent the forward commands, with a neutral command about to be sent. -/
def driven : State :=
  { idle with
    playing := true, ph := 14, cmd0 := 100, cmd1 := 78, outHist := [.cmdWrite 0 100, .cmdWrite 1 78]
    inputs := [quiet] }

theorem witness_EveryStepKeepsTheStandingCommand : ∃ t,
    (∀ u, driven.cmd u = lastCmd u driven.cfg.speedNeutral driven.outHist) ∧ step driven = .next t ∧ t.cmd 0 = 90 :=
  ⟨_, by decide, rfl, rfl⟩

end Sys2Proof.Tests
end

section
/-! SUPPORT. Which configurations are legal and which the block starts under (spec/70_reset_and_hazards.md R276), and the
state it starts in (spec/10_state.md R47). -/

namespace Sys2Proof

/-! ### What each check of a configuration says -/

theorem MelodyStep.wf_iff {symW : Nat} {m : MelodyStep} : m.wf symW = true ↔ m.sym < 2 ^ symW := decide_eq_true_iff

theorem NoteRow.wf_iff {symW freqW : Nat} {r : NoteRow} :
    r.wf symW freqW = true ↔ r.sym < 2 ^ symW ∧ r.fmin < 2 ^ freqW ∧ r.fmax < 2 ^ freqW := by
  simp only [NoteRow.wf, Bool.and_eq_true, decide_eq_true_iff, and_assoc]

namespace Config

variable {c : Config}

/-- `N` is a power of two exactly when it is the one whose exponent is `LOGN`. -/
theorem n_eq_two_pow_logn_iff : c.n = 2 ^ c.logn ↔ ∃ k, c.n = 2 ^ k := by
  refine ⟨fun h => ⟨_, h⟩, fun ⟨k, hk⟩ => ?_⟩
  have hlog : c.logn = k := by rw [logn, hk, Nat.log2_two_pow]
  rw [hlog, hk]

theorem blockSizeOk_iff : c.blockSizeOk = true ↔ (∃ k, c.n = 2 ^ k) ∧ 4 ≤ c.n := by
  rw [blockSizeOk, Bool.and_eq_true, decide_eq_true_iff, decide_eq_true_iff, n_eq_two_pow_logn_iff, and_comm]

theorem ratesOk_iff : c.ratesOk = true ↔ 0 < c.fs ∧ c.fs < 2 ^ c.fsW ∧ 1 ≤ c.adcMax ∧ 1 ≤ c.adcW := by
  simp only [ratesOk, Bool.and_eq_true, decide_eq_true_iff, and_assoc, Nat.succ_le_iff]

theorem hammingOk_iff : c.hammingOk = true ↔ c.hamming.length = c.n := decide_eq_true_iff

theorem melodyOk_iff : c.melodyOk = true ↔ 1 ≤ c.melody.length ∧ ∀ m ∈ c.melody, m.sym < 2 ^ c.symW := by
  rw [melodyOk, Bool.and_eq_true, decide_eq_true_iff, l]
  simp only [List.all_eq_true, MelodyStep.wf_iff]

theorem noteTableOk_iff : c.noteTableOk = true ↔
    ∀ r ∈ c.noteTable, r.sym < 2 ^ c.symW ∧ r.fmin < 2 ^ c.freqW ∧ r.fmax < 2 ^ c.freqW := by
  simp only [noteTableOk, List.all_eq_true, NoteRow.wf_iff]

theorem widthsOk_iff : c.widthsOk = true ↔
    c.stepDuration < 2 ^ c.timeW ∧ 1 ≤ c.symW ∧ 1 ≤ c.freqW ∧ 1 ≤ c.timeW ∧ 1 ≤ c.cmdW := by
  simp only [widthsOk, Bool.and_eq_true, decide_eq_true_iff, and_assoc]

theorem speedsOk_iff : c.speedsOk = true ↔
    c.speedFwd0 < 2 ^ c.cmdW ∧ c.speedFwd1 < 2 ^ c.cmdW ∧ c.speedNeutral < 2 ^ c.cmdW ∧
      c.speedFwd0 ≠ c.speedNeutral ∧ c.speedFwd1 ≠ c.speedNeutral ∧ c.speedFwd0 ≠ c.speedFwd1 := by
  simp only [speedsOk, Bool.and_eq_true, decide_eq_true_iff, and_assoc]

/-- A configuration is legal when it passes the seven checks, here in the order in which `Machine.boot` makes them. -/
theorem wf_iff : c.wf = true ↔ c.blockSizeOk = true ∧ c.ratesOk = true ∧ c.hammingOk = true ∧ c.melodyOk = true ∧
    c.noteTableOk = true ∧ c.widthsOk = true ∧ c.speedsOk = true := by
  simp only [wf, Bool.and_eq_true, and_assoc]

end Config

namespace Machine

/-! ### Starting the block -/

/-- A check that refuses by name lets through exactly what satisfies it. -/
theorem check_eq_ok_iff {ok : Bool} {e : ConfigReject} {rest : Except ConfigReject State} {s : State} :
    (if !ok then .error e else rest) = .ok s ↔ ok = true ∧ rest = .ok s := by
  cases ok <;> simp

/-- The block starts under the legal configurations only, and in the reset state. -/
theorem boot_eq_ok_iff {c : Config} {s : State} : boot c = .ok s ↔ c.wf = true ∧ s = State.resetOf c := by
  simp only [boot, check_eq_ok_iff, Except.ok.injEq, Config.wf_iff, and_assoc, eq_comm (a := s)]

/-- Settles O13: `boot` passes exactly the configurations that are well formed, and each check of well-formedness is the
group of constraints of R276 and R6 it stands for. -/
theorem bootAcceptsExactlyLegalConfigurations : Obligations.BootAcceptsExactlyLegalConfigurations := by
  unfold Obligations.BootAcceptsExactlyLegalConfigurations
  refine fun c => ⟨?_, fun s h => (boot_eq_ok_iff.mp h).2⟩
  rw [boot_eq_ok_iff, and_iff_left rfl, Config.wf_iff]
  simp only [Config.blockSizeOk_iff, Config.ratesOk_iff, Config.hammingOk_iff, Config.melodyOk_iff,
    Config.noteTableOk_iff, Config.widthsOk_iff, Config.speedsOk_iff, and_assoc]

/-! ### The state after reset -/

/-- Both banks read as zero after reset. -/
@[simp] theorem readBank_resetOf (c : Config) (b : Fin 2) (i : Nat) : (State.resetOf c).readBank b i = Smp.zero := by
  have hbank : (State.resetOf c).bank b = [] := ite_self _
  rw [State.readBank, hbank, Store.read_nil]

/-- Both command registers are neutral after reset. -/
@[simp] theorem cmd_resetOf (c : Config) (u : Fin 2) : (State.resetOf c).cmd u = c.speedNeutral := ite_self _

/-- Settles O12: the banks and the command registers by their own lemmas, every other listed register by its field of
the reset state. -/
theorem resetStateHoldsTheListedValues : Obligations.ResetStateHoldsTheListedValues := by
  unfold Obligations.ResetStateHoldsTheListedValues
  exact ⟨fun c => ⟨readBank_resetOf c, rfl, rfl, rfl, rfl, rfl, rfl, cmd_resetOf c 0, cmd_resetOf c 1, rfl, rfl, rfl⟩, rfl⟩

end Machine

end Sys2Proof
end

section
/-! SUPPORT. The configuration is a parameter of the whole run (spec/20_memory.md R78): no operation writes it, and
neither does a step. -/

namespace Sys2Proof.Machine

/-- No operation writes the configuration. -/
theorem exec_cfg {i : Instr} {s t : State} (h : exec i s = .next t) : t.cfg = s.cfg := by
  cases i with
  | sample =>
    simp only [exec, execSample] at h
    split at h
    · cases h; split <;> simp
    · cases h
  | bankflip =>
    simp only [exec, execBankflip] at h
    split at h
    · cases h; simp
    · cases h
  | seqWait =>
    simp only [exec, execSeqWait] at h
    split at h
    · cases h; rw [goto_cfg]; split <;> simp
    · cases h
  | drive | stop => cases h; simp
  | dispatch | acquire | copy | dcrem | window | fft | mag | peak | freq | lookup | emit | playCheck => cases h; rfl

/-- A step writes the configuration neither at a reset, nor in the Sampler, nor in the loop controller. -/
theorem step_cfg {s t : State} (h : step s = .next t) : t.cfg = s.cfg := by
  obtain ⟨-, rfl⟩ | ⟨-, -, -, -, rfl⟩ | ⟨-, -, -, i, -, -, hexec⟩ := step_cases s h
  case inl => simp
  case inr.inl => split <;> simp
  case inr.inr => exact (exec_cfg hexec).trans (present_cfg s)

/-- Settles O14: by the three cases of a step, the loop controller's by the operation it performs. -/
theorem configurationNeverChanges : Obligations.ConfigurationNeverChanges := by
  unfold Obligations.ConfigurationNeverChanges
  exact fun _ _ => step_cfg

end Sys2Proof.Machine
end

section
/-! SUPPORT. What an operation writes to the phase register (spec/45_mainloop.md R224): the successor table as a function
of the operation, whose entries are never the reserved code (spec/30_encoding.md R100). -/

namespace Sys2Proof.Machine

/-- The phase code after an operation: the successor table of R224 for the loop controller's operations; SAMPLE and
BANKFLIP keep `ph`. -/
def State.phAfter (s : State) : Instr → PhaseWord
  | .sample | .bankflip => s.ph
  | .dispatch => if s.playing then 12 else 1
  | .acquire => if s.ready then 2 else 1
  | .copy => 3
  | .dcrem => 4
  | .window => 5
  | .fft => 6
  | .mag => 7
  | .peak => 8
  | .freq => 9
  | .lookup => 10
  | .emit => 11
  | .seqWait => 0
  | .drive => 13
  | .playCheck => if s.stepOver then 14 else 0
  | .stop => 0

/-- An operation writes to `ph` what the successor table says. -/
theorem exec_ph {i : Instr} {s t : State} (h : exec i s = .next t) : t.ph = s.phAfter i := by
  cases i with
  | sample =>
    simp only [exec, execSample] at h
    split at h
    · cases h; split <;> simp [State.phAfter]
    · cases h
  | bankflip =>
    simp only [exec, execBankflip] at h
    split at h
    · cases h; simp [State.phAfter]
    · cases h
  | seqWait =>
    simp only [exec, execSeqWait] at h
    split at h
    · cases h; rfl
    · cases h
  | dispatch | acquire | copy | dcrem | window | fft | mag | peak | freq | lookup | emit | drive | playCheck | stop =>
    cases h; rfl

/-- The successor table does not hold the reserved code, so only an operation that keeps `ph` could leave it there. -/
theorem phAfter_ne_reserved {s : State} (h : s.ph ≠ 15) (i : Instr) : s.phAfter i ≠ 15 := by
  cases i with
  | sample | bankflip => exact h
  | dispatch | acquire | playCheck => rw [State.phAfter]; split <;> decide
  | copy | dcrem | window | fft | mag | peak | freq | lookup | emit | seqWait | drive | stop => simp [State.phAfter]

/-- Settles O9: what an operation writes is in the successor table, reset writes 0, and the step checks for the reserved
code before it serves a tick. -/
theorem reservedPhaseIsNeverWrittenAndRefused : Obligations.ReservedPhaseIsNeverWrittenAndRefused := by
  unfold Obligations.ReservedPhaseIsNeverWrittenAndRefused
  refine ⟨fun i s t h15 hexec => ?_, fun _ => rfl, fun s h15 hrst => step_of_reserved s hrst h15⟩
  rw [exec_ph hexec]
  exact phAfter_ne_reserved h15 i

end Sys2Proof.Machine
end

section
/-! SUPPORT. The Sampler's SAMPLE (spec/40_sampler.md R120) and its calibration (R122) in exact arithmetic. -/

namespace Sys2Proof

/-! ### The calibration -/

/-- In exact arithmetic the calibration is the affine function of R122. -/
theorem Config.calibrate_val {c : Config} (hnum : c.num = .exact) (r : Nat) :
    (c.calibrate r).val = (r : ℝ) / (c.adcMax : ℝ) * c.calScale.val + c.calOffset.val := by
  simp only [Config.calibrate, hnum, NumSys.exact_add, NumSys.exact_mul, NumSys.exact_divNat, NumSys.exact_ofNat]

/-- A greater reading is calibrated to a greater number when `CAL_SCALE` is positive. -/
theorem Config.calibrate_val_lt {c : Config} (hnum : c.num = .exact) (hmax : 1 ≤ c.adcMax) (hscale : 0 < c.calScale.val)
    {r r' : Nat} (hr : r < r') : (c.calibrate r).val < (c.calibrate r').val := by
  rw [Config.calibrate_val hnum, Config.calibrate_val hnum]
  have hmax' : (0 : ℝ) < c.adcMax := by exact_mod_cast hmax
  gcongr

/-- Settles O15: the order of evaluation is the definition's, the real value and its growth are the two lemmas above. -/
theorem calibrationIsTheLinearFormula : Obligations.CalibrationIsTheLinearFormula := by
  unfold Obligations.CalibrationIsTheLinearFormula
  exact ⟨fun _ _ => rfl, fun _ hnum hmax =>
    ⟨Config.calibrate_val hnum, fun hscale _ _ => Config.calibrate_val_lt hnum hmax hscale⟩⟩

namespace Machine

variable (s : State)

/-! ### SAMPLE -/

/-- SAMPLE inside the bank, at the last position of the bank and before it. -/
theorem exec_sample (hp : s.pos < s.cfg.n) : exec .sample s =
    .next (if s.pos = s.cfg.n - 1 then s.captureSample.flipBanks else s.captureSample.advancePos) := by
  simp only [exec, execSample, if_pos hp, State.lastPos, decide_eq_true_eq]

/-- The element the head of SAMPLE stores. -/
theorem readBank_captureSample_self :
    s.captureSample.readBank s.fill s.pos = ⟨s.cfg.calibrate s.drawAdc, Value.zero⟩ := by
  rw [readBank_captureSample, if_pos ⟨rfl, rfl⟩]

/-- The head of SAMPLE leaves every element but `(fill, pos)` as it was. -/
theorem readBank_captureSample_other {b : Fin 2} {i : Nat} (h : ¬(b = s.fill ∧ i = s.pos)) :
    s.captureSample.readBank b i = s.readBank b i := by
  rw [readBank_captureSample, if_neg h]

/-- The position before the last one is followed by the next. -/
theorem nextPos_of_not_last {c : Config} {p : Nat} (hp : p < c.n) (h : p ≠ c.n - 1) : c.nextPos p = p + 1 := by
  rw [nextPos_eq hp, Nat.mod_eq_of_lt (by omega)]

/-- The head of SAMPLE touches nothing of the loop controller. -/
theorem sameLoop_captureSample : SameLoop s s.captureSample := by
  simp [SameLoop, SameWork, SameResult, SameSeq, SameOutput]

@[simp] theorem sameLoop_flipBanks (t : State) : SameLoop s t.flipBanks ↔ SameLoop s t := Iff.rfl
@[simp] theorem sameLoop_advancePos (t : State) : SameLoop s t.advancePos ↔ SameLoop s t := Iff.rfl

/-- Settles O16: the store and the frame are those of SAMPLE's head, which both tails keep; the tail, by whether the
sample fills the bank, gives `pos`, `fill` and `ready`. -/
theorem sampleStoresOneCalibratedReading : Obligations.SampleStoresOneCalibratedReading := by
  unfold Obligations.SampleStoresOneCalibratedReading
  intro s hp
  have hstored := readBank_captureSample_self s
  have hother := fun b i => readBank_captureSample_other s (b := b) (i := i)
  have hloop := sameLoop_captureSample s
  refine ⟨_, exec_sample s hp, ?_⟩
  by_cases hlast : s.pos = s.cfg.n - 1
  · rw [if_pos hlast]
    exact ⟨hstored, hother, fun _ => by simp, fun hne => absurd hlast hne, hloop, by simp⟩
  · rw [if_neg hlast]
    exact ⟨hstored, hother, fun h => absurd h hlast, fun _ => by simp [nextPos_of_not_last hp hlast], hloop, by simp⟩

end Machine

end Sys2Proof
end

section
/-! SUPPORT. The working buffer under the analyzer's operations: an element after it was filled, and what no operation on
the buffer touches (spec/10_state.md R21, R32). -/

namespace Sys2Proof.Machine

variable (s t : State)

theorem readRe_fillRe_of_lt (f : Nat → Value) {i : Nat} (h : i < s.cfg.n) : (s.fillRe f).readRe i = f i := by
  rw [readRe_fillRe, if_pos h]

theorem readIm_fillIm_of_lt (f : Nat → Value) {i : Nat} (h : i < s.cfg.n) : (s.fillIm f).readIm i = f i := by
  rw [readIm_fillIm, if_pos h]

/-- Everything but the working buffer and `ph` is unchanged. -/
def SameOutsideWork : Prop :=
  t.sb = s.sb ∧ SameStore s t ∧ SameResult s t ∧ SameSeq s t ∧ SameOutput s t ∧ SameEnv s t

theorem sameOutsideWork_refl : SameOutsideWork s s := by
  simp [SameOutsideWork, SameStore, SameResult, SameSeq, SameOutput, SameEnv]

@[simp] theorem sameOutsideWork_goto (p : PhaseWord) : SameOutsideWork s (t.goto p) ↔ SameOutsideWork s t := Iff.rfl
@[simp] theorem sameOutsideWork_fillRe (f : Nat → Value) : SameOutsideWork s (t.fillRe f) ↔ SameOutsideWork s t :=
  Iff.rfl
@[simp] theorem sameOutsideWork_fillIm (f : Nat → Value) : SameOutsideWork s (t.fillIm f) ↔ SameOutsideWork s t :=
  Iff.rfl

/-- Filling the real component and going on keeps everything outside the working buffer. -/
theorem sameOutsideWork_fillRe_goto (f : Nat → Value) (p : PhaseWord) : SameOutsideWork s ((s.fillRe f).goto p) := by
  rw [sameOutsideWork_goto, sameOutsideWork_fillRe]
  exact sameOutsideWork_refl s

/-- Filling both components and going on keeps everything outside the working buffer. -/
theorem sameOutsideWork_fillRe_fillIm_goto (f g : Nat → Value) (p : PhaseWord) :
    SameOutsideWork s (((s.fillRe f).fillIm g).goto p) := by
  rw [sameOutsideWork_goto, sameOutsideWork_fillIm, sameOutsideWork_fillRe]
  exact sameOutsideWork_refl s

end Sys2Proof.Machine
end

section
/-! SUPPORT. The analyzer's COPY, DCREM, FFT and MAG (spec/41_analyzer.md R140, R141, R143, R144): the values in exact
arithmetic, and the settled statements. -/

namespace Sys2Proof

/-- A legal block has at least four elements (spec/00_scope.md R7). -/
theorem Config.four_le_n_of_wf {c : Config} (h : c.wf = true) : 4 ≤ c.n := (blockSizeOk_iff.mp (wf_iff.mp h).1).2

namespace Machine

variable {s : State}

/-! ### COPY -/

theorem exec_copy (s : State) : exec .copy s =
    .next ((((s.clearReady.latchBank (1 - s.fill)).fillRe fun i => (s.readBank (1 - s.fill) i).re).fillIm
      fun i => (s.readBank (1 - s.fill) i).im).goto 3) := rfl

/-- Settles O22: COPY fills the buffer with the elements of bank `1 - fill`; the fields it does not name are kept by each
of its five updates. -/
theorem copyTakesTheStableBank : Obligations.CopyTakesTheStableBank := by
  unfold Obligations.CopyTakesTheStableBank
  intro s
  refine ⟨_, exec_copy s, rfl, rfl, rfl, fun i hi => ⟨?re, ?im⟩, ?frame⟩
  case re => exact readRe_fillRe_of_lt (s.clearReady.latchBank (1 - s.fill)) _ hi
  case im => exact readIm_fillIm_of_lt ((s.clearReady.latchBank (1 - s.fill)).fillRe _) _ hi
  case frame => simp [SameResult, SameSeq, SameOutput, SameEnv]

/-! ### DCREM -/

/-- The mean DCREM subtracts, in exact arithmetic: the sum without element 0, divided by `N`. -/
theorem dcMean_val (hnum : s.cfg.num = .exact) :
    s.dcMean.val = (∑ j ∈ Finset.Ico 1 s.cfg.n, (s.readRe j).val) / (s.cfg.n : ℝ) := by
  rw [State.dcMean, hnum, NumSys.exact_divNat, NumSys.exact_sum]

/-- Element `i` after DCREM: element 0 stays, every other one loses the mean. -/
def State.dcRemoved (s : State) (i : Nat) : Value := if i = 0 then s.readRe 0 else s.cfg.num.sub (s.readRe i) s.dcMean

theorem dcRemoved_zero : s.dcRemoved 0 = s.readRe 0 := if_pos rfl

theorem dcRemoved_of_pos {i : Nat} (h : 1 ≤ i) : s.dcRemoved i = s.cfg.num.sub (s.readRe i) s.dcMean :=
  if_neg (Nat.one_le_iff_ne_zero.mp h)

/-- In exact arithmetic a corrected element is the real difference to the mean. -/
theorem dcRemoved_val (hnum : s.cfg.num = .exact) {i : Nat} (h : 1 ≤ i) : (s.dcRemoved i).val =
    (s.readRe i).val - (∑ j ∈ Finset.Ico 1 s.cfg.n, (s.readRe j).val) / (s.cfg.n : ℝ) := by
  rw [dcRemoved_of_pos h, hnum, NumSys.exact_sub, dcMean_val hnum]

theorem exec_dcrem (s : State) : exec .dcrem s = .next ((s.fillRe s.dcRemoved).goto 4) := rfl

/-- Settles O23: every element is read from the filled buffer, element 0 as it was and the others less the mean, which is
the definition's fold and in exact arithmetic the real mean. -/
theorem dcRemovalSubtractsTheMean : Obligations.DcRemovalSubtractsTheMean := by
  unfold Obligations.DcRemovalSubtractsTheMean
  intro s hwf
  have hread : ∀ i, i < s.cfg.n → (s.fillRe s.dcRemoved).readRe i = s.dcRemoved i :=
    fun i hi => readRe_fillRe_of_lt s _ hi
  have hn : 0 < s.cfg.n := Nat.lt_of_lt_of_le (by decide) (Config.four_le_n_of_wf hwf)
  refine ⟨_, exec_dcrem s, rfl, (hread 0 hn).trans dcRemoved_zero,
    fun i h1 hi => (hread i hi).trans (dcRemoved_of_pos h1), fun hnum i h1 hi => ?_, rfl, sameOutsideWork_fillRe_goto s _ 4⟩
  rw [readRe_goto, hread i hi, dcRemoved_val hnum h1]

/-! ### FFT -/

/-- `2π·kn/N`, the angle of the twiddle factor. -/
noncomputable def State.twiddleAngle (s : State) (k n : Nat) : ℝ := 2 * Real.pi * (s.twiddleTurn k n : ℝ)

/-- The real part of the transform in exact arithmetic. -/
theorem dftRe_val (hnum : s.cfg.num = .exact) (k : Nat) : (s.dftRe k).val = ∑ n ∈ Finset.range s.cfg.n,
    ((s.readRe n).val * Real.cos (s.twiddleAngle k n) + (s.readIm n).val * Real.sin (s.twiddleAngle k n)) := by
  simp only [State.dftRe, hnum, NumSys.exact_sum, NumSys.exact_add, NumSys.exact_mul, NumSys.exact_cos,
    NumSys.exact_sin, State.twiddleAngle, Finset.range_eq_Ico]

/-- The imaginary part of the transform in exact arithmetic. -/
theorem dftIm_val (hnum : s.cfg.num = .exact) (k : Nat) : (s.dftIm k).val = ∑ n ∈ Finset.range s.cfg.n,
    ((s.readIm n).val * Real.cos (s.twiddleAngle k n) - (s.readRe n).val * Real.sin (s.twiddleAngle k n)) := by
  simp only [State.dftIm, hnum, NumSys.exact_sum, NumSys.exact_sub, NumSys.exact_mul, NumSys.exact_cos,
    NumSys.exact_sin, State.twiddleAngle, Finset.range_eq_Ico]

/-- The twiddle factor with the negative exponent, by Euler's formula. -/
theorem exp_neg_twiddle (s : State) (k n : Nat) :
    Complex.exp (-(2 * (Real.pi : ℂ) * Complex.I * (k : ℂ) * (n : ℂ) / (s.cfg.n : ℂ))) =
      (Real.cos (s.twiddleAngle k n) : ℂ) - (Real.sin (s.twiddleAngle k n) : ℂ) * Complex.I := by
  have hangle : -(2 * (Real.pi : ℂ) * Complex.I * (k : ℂ) * (n : ℂ) / (s.cfg.n : ℂ)) =
      ((-s.twiddleAngle k n : ℝ) : ℂ) * Complex.I := by
    simp only [State.twiddleAngle, State.twiddleTurn]
    push_cast
    ring
  rw [hangle, Complex.exp_ofReal_mul_I, Real.cos_neg, Real.sin_neg, Complex.ofReal_neg, neg_mul, sub_eq_add_neg]

/-- The two components the machine computes are those of the forward transform. -/
theorem dft_val (hnum : s.cfg.num = .exact) (k : Nat) :
    ((s.dftRe k).val : ℂ) + ((s.dftIm k).val : ℂ) * Complex.I =
      ∑ n ∈ Finset.range s.cfg.n, (((s.readRe n).val : ℂ) + ((s.readIm n).val : ℂ) * Complex.I) *
        Complex.exp (-(2 * (Real.pi : ℂ) * Complex.I * (k : ℂ) * (n : ℂ) / (s.cfg.n : ℂ))) := by
  rw [dftRe_val hnum, dftIm_val hnum, Complex.ofReal_sum, Complex.ofReal_sum, Finset.sum_mul, ← Finset.sum_add_distrib]
  refine Finset.sum_congr rfl fun n _ => ?_
  rw [exp_neg_twiddle]
  simp only [Complex.ofReal_add, Complex.ofReal_sub, Complex.ofReal_mul]
  linear_combination ((s.readIm n).val * Real.sin (s.twiddleAngle k n) : ℂ) * Complex.I_sq

theorem exec_fft (s : State) : exec .fft s = .next (((s.fillRe s.dftRe).fillIm s.dftIm).goto 6) := rfl

/-- Settles O26: both components are read from the filled buffer, and in exact arithmetic `dft_val` says what they are. -/
theorem fftIsTheForwardTransform : Obligations.FftIsTheForwardTransform := by
  unfold Obligations.FftIsTheForwardTransform
  intro s
  refine ⟨_, exec_fft s, rfl, fun hnum k hk => ?_, sameOutsideWork_fillRe_fillIm_goto s _ _ 6⟩
  rw [readRe_goto, readIm_goto, readRe_fillIm, readRe_fillRe_of_lt s _ hk,
    readIm_fillIm_of_lt (s.fillRe s.dftRe) _ hk, dft_val hnum]

/-! ### MAG -/

/-- In exact arithmetic the magnitude is that of the complex pair. -/
theorem magnitude_val (hnum : s.cfg.num = .exact) (k : Nat) :
    (s.magnitude k).val = Real.sqrt ((s.readRe k).val ^ 2 + (s.readIm k).val ^ 2) := by
  rw [State.magnitude, hnum, NumSys.exact_sqrt, NumSys.exact_add, NumSys.exact_mul, NumSys.exact_mul, sq, sq]

theorem exec_mag (s : State) : exec .mag s = .next ((s.fillRe s.magnitude).goto 7) := rfl

/-- Settles O27: every element is read from the filled buffer as its magnitude. -/
theorem magIsTheComplexMagnitude : Obligations.MagIsTheComplexMagnitude := by
  unfold Obligations.MagIsTheComplexMagnitude
  intro s
  have hread : ∀ k, k < s.cfg.n → (s.fillRe s.magnitude).readRe k = s.magnitude k :=
    fun k hk => readRe_fillRe_of_lt s _ hk
  refine ⟨_, exec_mag s, rfl, hread, fun hnum k hk => ?_, rfl, sameOutsideWork_fillRe_goto s _ 7⟩
  rw [readRe_goto, hread k hk, magnitude_val hnum]

end Machine

end Sys2Proof
end

section
/-! SUPPORT. The classifier's PEAK, FREQ and LOOKUP (spec/42_classifier.md R160 to R162): the invariant of the peak
search, the width of the product, the scan of the table, and the settled statements. -/

namespace Sys2Proof

namespace Machine

variable {s : State}

/-! ### What the classifier leaves unchanged -/

/-- Everything but the classifier's registers and `ph` is unchanged. -/
def SameOutsideResult (s t : State) : Prop :=
  t.sb = s.sb ∧ SameStore s t ∧ SameWork s t ∧ SameSeq s t ∧ SameOutput s t ∧ SameEnv s t

@[simp] theorem sameOutsideResult_refl (s : State) : SameOutsideResult s s := by
  simp [SameOutsideResult, SameStore, SameWork, SameSeq, SameOutput, SameEnv]

@[simp] theorem sameOutsideResult_goto (s t : State) (p : PhaseWord) :
    SameOutsideResult s (t.goto p) ↔ SameOutsideResult s t := Iff.rfl
@[simp] theorem sameOutsideResult_recordPeak (s t : State) (b : Nat) (m : Value) :
    SameOutsideResult s (t.recordPeak b m) ↔ SameOutsideResult s t := Iff.rfl
@[simp] theorem sameOutsideResult_recordFreq (s t : State) (f : Nat) :
    SameOutsideResult s (t.recordFreq f) ↔ SameOutsideResult s t := Iff.rfl
@[simp] theorem sameOutsideResult_recordCls (s t : State) (c : Cls) :
    SameOutsideResult s (t.recordCls c) ↔ SameOutsideResult s t := Iff.rfl

/-! ### PEAK -/

theorem peakStep_of_gt {c : Nat × Value} {i : Nat} (h : s.cfg.num.gt (s.readRe i) c.2 = true) :
    s.peakStep c i = (i, s.readRe i) := if_pos h

theorem peakStep_of_not_gt {c : Nat × Value} {i : Nat} (h : ¬s.cfg.num.gt (s.readRe i) c.2 = true) :
    s.peakStep c i = c := if_neg h

/-- The invariant of the search: `c` is a bin of `1 .. hi` with its magnitude, and in exact arithmetic the lowest bin of
that range with the greatest magnitude. -/
structure State.IsPeakUpTo (s : State) (hi : Nat) (c : Nat × Value) : Prop where
  one_le : 1 ≤ c.1
  le_hi : c.1 ≤ hi
  mag_eq : c.2 = s.readRe c.1
  greatest : s.cfg.num = .exact → ∀ i, 1 ≤ i → i ≤ hi → (s.readRe i).val ≤ (s.readRe c.1).val
  lowest : s.cfg.num = .exact → ∀ i, 1 ≤ i → i < c.1 → (s.readRe i).val < (s.readRe c.1).val

/-- The search starts from bin 1. -/
theorem isPeakUpTo_one (s : State) : s.IsPeakUpTo 1 (1, s.readRe 1) where
  one_le := le_refl 1
  le_hi := le_refl 1
  mag_eq := rfl
  greatest := fun _ i h1 hi => by rw [le_antisymm hi h1]
  lowest := fun _ _ h1 hlt => absurd hlt (Nat.not_lt.mpr h1)

/-- Looking at the next bin extends the range by it: a strictly greater magnitude exceeds every earlier one, and any
other leaves the candidate the greatest. -/
theorem isPeakUpTo_peakStep {hi : Nat} {c : Nat × Value} (h : s.IsPeakUpTo hi c) :
    s.IsPeakUpTo (hi + 1) (s.peakStep c (hi + 1)) := by
  by_cases hgt : s.cfg.num.gt (s.readRe (hi + 1)) c.2 = true
  · rw [peakStep_of_gt hgt]
    have hbelow : s.cfg.num = .exact → ∀ i, 1 ≤ i → i < hi + 1 → (s.readRe i).val < (s.readRe (hi + 1)).val := by
      intro hnum i h1 hlt
      rw [hnum, NumSys.exact_gt, h.mag_eq] at hgt
      exact (h.greatest hnum i h1 (Nat.le_of_lt_succ hlt)).trans_lt hgt
    refine ⟨Nat.le_add_left 1 hi, le_refl _, rfl, fun hnum i h1 hle => ?_, hbelow⟩
    obtain hlt | rfl := Nat.lt_or_eq_of_le hle
    · exact (hbelow hnum i h1 hlt).le
    · exact le_refl _
  · rw [peakStep_of_not_gt hgt]
    refine ⟨h.one_le, h.le_hi.trans (Nat.le_succ hi), h.mag_eq, fun hnum i h1 hle => ?_, h.lowest⟩
    obtain hlt | rfl := Nat.lt_or_eq_of_le hle
    · exact h.greatest hnum i h1 (Nat.le_of_lt_succ hlt)
    · rwa [hnum, NumSys.exact_gt, h.mag_eq, not_lt] at hgt

/-- The invariant after the scan of `k` bins. -/
theorem isPeakUpTo_foldl (s : State) (k : Nat) :
    s.IsPeakUpTo (k + 1) ((List.range' 2 k).foldl s.peakStep (1, s.readRe 1)) := by
  induction k with
  | zero => exact isPeakUpTo_one s
  | succ k ih =>
    rw [List.range'_concat, List.foldl_concat, Nat.one_mul, show 2 + k = k + 1 + 1 by omega]
    exact isPeakUpTo_peakStep ih

/-- The search ends with the peak of bins `1 .. N/2-1`. -/
theorem isPeakUpTo_peakSearch (h : 4 ≤ s.cfg.n) : s.IsPeakUpTo (s.cfg.n / 2 - 1) s.peakSearch := by
  have hlast : s.cfg.n / 2 - 1 = s.cfg.n / 2 - 2 + 1 := by omega
  rw [hlast]
  exact isPeakUpTo_foldl s _

theorem exec_peak (s : State) :
    exec .peak s = .next ((s.recordPeak s.peakSearch.1 s.peakSearch.2).goto 8) := rfl

/-- Settles O29: what PEAK records is the end of the scan, where the invariant of the search covers every bin of the
range. -/
theorem peakIsTheLowestBinOfGreatestMagnitude : Obligations.PeakIsTheLowestBinOfGreatestMagnitude := by
  unfold Obligations.PeakIsTheLowestBinOfGreatestMagnitude
  intro s hwf
  have hpeak := isPeakUpTo_peakSearch (Config.four_le_n_of_wf hwf)
  have hframe : SameOutsideResult s ((s.recordPeak s.peakSearch.1 s.peakSearch.2).goto 8) := by simp
  exact ⟨_, exec_peak s, rfl, hpeak.one_le, hpeak.le_hi, hpeak.mag_eq, rfl,
    fun hnum => ⟨hpeak.greatest hnum, hpeak.lowest hnum⟩, rfl, rfl, hframe⟩

end Machine

/-! ### FREQ -/

namespace Config

variable {c : Config}

/-- Half a legal block is the power of two below it. -/
theorem half_n_of_wf (h : c.wf = true) : c.n / 2 = 2 ^ (c.logn - 1) := by
  obtain ⟨hpow, hfour⟩ := blockSizeOk_iff.mp (wf_iff.mp h).1
  have hn : c.n = 2 ^ c.logn := n_eq_two_pow_logn_iff.mpr hpow
  have hlog : c.logn ≠ 0 := by
    intro h0
    rw [h0] at hn
    omega
  exact Nat.div_eq_of_eq_mul_left two_pos (hn.trans (pow_sub_one_mul hlog 2).symm)

/-- The product fits: `peak_bin < 2^(LOGN-1)` and `FS < 2^FS_W`. -/
theorem freqNum_lt (h : c.wf = true) {b : Nat} (hb : b < c.n / 2) : c.freqNum b < 2 ^ (c.logn - 1 + c.fsW) := by
  have hfs : c.fs < 2 ^ c.fsW := (ratesOk_iff.mp (wf_iff.mp h).2.1).2.1
  rw [half_n_of_wf h] at hb
  rw [freqNum, pow_add]
  exact Nat.mul_lt_mul'' hb hfs

end Config

namespace Machine

theorem exec_freq (s : State) : exec .freq s = .next ((s.recordFreq (s.cfg.freqNum s.peakBin)).goto 9) := rfl

/-- Settles O30: FREQ records the product, which `Config.freqNum_lt` bounds for every bin below `N/2`. -/
theorem freqIsTheExactProduct : Obligations.FreqIsTheExactProduct := by
  unfold Obligations.FreqIsTheExactProduct
  intro s
  have hframe : SameOutsideResult s ((s.recordFreq (s.cfg.freqNum s.peakBin)).goto 9) := by simp
  refine ⟨_, exec_freq s, rfl, rfl, fun hwf hbin => Config.freqNum_lt hwf ?_, rfl, rfl, rfl, hframe⟩
  have hfour : 4 ≤ s.cfg.n := Config.four_le_n_of_wf hwf
  omega

end Machine

/-! ### LOOKUP -/

namespace Config

variable {c : Config} {f : Nat}

theorem inRange_iff {r : NoteRow} : c.inRange f r = true ↔ r.fmin * c.n ≤ f ∧ f ≤ r.fmax * c.n := by
  rw [inRange, Bool.and_eq_true, decide_eq_true_iff, decide_eq_true_iff]

/-- The first row of the table whose range contains the frequency gives its symbol. -/
theorem classify_of_first_inRange {k : Nat} {r : NoteRow} (hk : c.noteTable[k]? = some r) (hr : c.inRange f r = true)
    (hfirst : ∀ j q, j < k → c.noteTable[j]? = some q → ¬c.inRange f q = true) : c.classify f = ⟨false, r.sym⟩ := by
  obtain ⟨hlt, hget⟩ := List.getElem?_eq_some_iff.mp hk
  have hfind : c.noteTable.find? (c.inRange f) = some r := by
    refine List.find?_eq_some_iff_getElem.mpr ⟨hr, k, hlt, hget, fun j hj => ?_⟩
    rw [Bool.not_eq_true', ← Bool.not_eq_true]
    exact hfirst j _ hj (List.getElem?_eq_getElem (hj.trans hlt))
  rw [classify, hfind]

/-- A frequency in no row's range is NoMatch. -/
theorem classify_of_forall_not_inRange (h : ∀ r ∈ c.noteTable, ¬c.inRange f r = true) : c.classify f = ⟨true, 0⟩ := by
  rw [classify, List.find?_eq_none.mpr h]

end Config

namespace Machine

theorem exec_lookup (s : State) :
    exec .lookup s = .next ((s.recordCls (s.cfg.classify s.domFreqNum)).goto 10) := rfl

/-- Settles O31: LOOKUP records the classification, which is the first matching row's or NoMatch. -/
theorem lookupTakesTheFirstMatchingRow : Obligations.LookupTakesTheFirstMatchingRow := by
  unfold Obligations.LookupTakesTheFirstMatchingRow
  intro s
  have hframe : SameOutsideResult s ((s.recordCls (s.cfg.classify s.domFreqNum)).goto 10) := by simp
  simp only [← Config.inRange_iff]
  refine ⟨_, exec_lookup s, rfl, fun k r hk hmin hmax hfirst => ?row, Config.classify_of_forall_not_inRange,
    rfl, rfl, rfl, hframe⟩
  case row => exact Config.classify_of_first_inRange hk (Config.inRange_iff.mpr ⟨hmin, hmax⟩) hfirst

end Machine

end Sys2Proof
end

section
/-! SUPPORT. The sequencer's SEQ_WAIT and PLAY_CHECK (spec/43_sequencer.md R180, R181, R183): the match condition, the
elapsed time over the integers, and the settled statements. -/

namespace Sys2Proof

/-- The match condition of R181, with the REST step of R180. -/
theorem MelodyStep.hit_iff {m : MelodyStep} {c : Cls} :
    m.hit c = true ↔ m.rest = true ∨ (c.noMatch = false ∧ c.sym = m.sym) := by
  rw [MelodyStep.hit, Bool.or_eq_true, Bool.and_eq_true, Bool.not_eq_true', decide_eq_true_iff]

/-- The elapsed time is the integer difference modulo `2^TIME_W`, also where the start is the greater one. -/
theorem Config.elapsed_cast (c : Config) (now start : Nat) :
    (c.elapsed now start : ℤ) = ((now : ℤ) - (start : ℤ)) % (2 : ℤ) ^ c.timeW := by
  have hle : start % 2 ^ c.timeW ≤ 2 ^ c.timeW := (Nat.mod_lt start (Nat.two_pow_pos _)).le
  calc (c.elapsed now start : ℤ)
      = ((now : ℤ) + ((2 : ℤ) ^ c.timeW - (start : ℤ) % 2 ^ c.timeW)) % 2 ^ c.timeW := by
        rw [Config.elapsed]; push_cast [hle]; rfl
    _ = ((now : ℤ) - (start : ℤ) % 2 ^ c.timeW + 2 ^ c.timeW) % 2 ^ c.timeW := by congr 1; ring
    _ = ((now : ℤ) - (start : ℤ)) % 2 ^ c.timeW := by rw [Int.add_emod_right, Int.sub_emod_emod]

namespace Machine

variable {s : State}

/-! ### What the sequencer leaves unchanged -/

/-- Everything but the sequencer's registers and `ph` is unchanged. -/
def SameOutsideSeq (s t : State) : Prop :=
  t.sb = s.sb ∧ SameStore s t ∧ SameWork s t ∧ SameResult s t ∧ SameOutput s t ∧ SameEnv s t

@[simp] theorem sameOutsideSeq_refl (s : State) : SameOutsideSeq s s := by
  simp [SameOutsideSeq, SameStore, SameWork, SameResult, SameOutput, SameEnv]

@[simp] theorem sameOutsideSeq_goto (s t : State) (p : PhaseWord) : SameOutsideSeq s (t.goto p) ↔ SameOutsideSeq s t :=
  Iff.rfl
@[simp] theorem sameOutsideSeq_enterPlaying (s t : State) : SameOutsideSeq s t.enterPlaying ↔ SameOutsideSeq s t :=
  Iff.rfl

@[simp] theorem sameSeq_goto (s : State) (p : PhaseWord) : SameSeq s (s.goto p) := ⟨rfl, rfl, rfl⟩

/-! ### SEQ_WAIT -/

/-- SEQ_WAIT at a step of the melody: the step begins to play if it is hit, and DISPATCH is next. -/
theorem exec_seqWait {m : MelodyStep} (hm : s.cfg.melody[s.stepIdx]? = some m) :
    exec .seqWait s = .next ((if m.hit s.cls then s.enterPlaying else s).goto 0) := by
  rw [exec, execSeqWait, State.melodyStep, hm]

/-- Settles O33: by whether the step is hit. A hit enters Playing, at a step inside the melody; a miss writes `ph`. -/
theorem seqWaitEntersPlayingOnAHit : Obligations.SeqWaitEntersPlayingOnAHit := by
  unfold Obligations.SeqWaitEntersPlayingOnAHit
  intro s m hm
  simp only [← MelodyStep.hit_iff]
  refine ⟨_, exec_seqWait hm, rfl, ?_⟩
  by_cases hhit : m.hit s.cls = true
  · have hlt : s.stepIdx < s.cfg.l := (List.getElem?_eq_some_iff.mp hm).1
    have hframe : SameOutsideSeq s (s.enterPlaying.goto 0) := by simp
    rw [if_pos hhit]
    exact ⟨fun _ => ⟨rfl, rfl, nextStep_eq hlt⟩, fun hmiss => absurd hhit hmiss, hframe⟩
  · have hframe : SameOutsideSeq s (s.goto 0) := by simp
    rw [if_neg hhit]
    exact ⟨fun h => absurd h hhit, fun _ => sameSeq_goto s 0, hframe⟩

/-! ### PLAY_CHECK -/

theorem exec_playCheck (s : State) : exec .playCheck s = .next (s.goto (if s.stepOver then 14 else 0)) := rfl

/-- The test of PLAY_CHECK over the integers. -/
theorem stepOver_iff : s.stepOver = true ↔
    (s.cfg.stepDuration : ℤ) ≤ ((s.readNow : ℤ) - (s.startTime : ℤ)) % (2 : ℤ) ^ s.cfg.timeW := by
  rw [State.stepOver, decide_eq_true_iff, ← Config.elapsed_cast, Nat.cast_le]

/-- Settles O35: the phase written is the test's, read over the integers, and writing `ph` leaves everything else. -/
theorem playCheckTestsTheElapsedTime : Obligations.PlayCheckTestsTheElapsedTime := by
  unfold Obligations.PlayCheckTestsTheElapsedTime
  intro s
  obtain ⟨hsb, hstore, hwork, hresult, hrest⟩ :=
    (sameOutsideSeq_goto s s (if s.stepOver then 14 else 0)).mpr (sameOutsideSeq_refl s)
  exact ⟨_, exec_playCheck s, if_congr stepOver_iff rfl rfl, hsb, hstore, hwork, hresult, sameSeq_goto s _, hrest⟩

end Machine

end Sys2Proof
end

section
/-! SUPPORT. The actuator's DRIVE and STOP (spec/44_actuator.md R200, R201): one command to each drive unit, and the
settled statements. -/

namespace Sys2Proof.Machine

variable (s : State)

/-! ### Commands to both units -/

/-- One command to each drive unit, unit 0 first: what DRIVE and STOP share. -/
def State.commandUnits (v0 v1 : Nat) : State := (s.writeCmd 0 v0).writeCmd 1 v1

variable (v0 v1 : Nat)

/-- The later command to unit 1 leaves unit 0's command standing. -/
theorem cmd_zero_commandUnits : (s.commandUnits v0 v1).cmd 0 = v0 := by
  rw [State.commandUnits, cmd_writeCmd, if_neg Fin.zero_ne_one, cmd_writeCmd, if_pos rfl]

theorem cmd_one_commandUnits : (s.commandUnits v0 v1).cmd 1 = v1 := by
  rw [State.commandUnits, cmd_writeCmd, if_pos rfl]

/-- The two events, in the order of the two commands. -/
theorem commandUnits_outHist : (s.commandUnits v0 v1).outHist = s.outHist ++ [.cmdWrite 0 v0, .cmdWrite 1 v1] := by
  rw [State.commandUnits, writeCmd_outHist, writeCmd_outHist, List.append_assoc, List.cons_append, List.nil_append]

/-- The sequencer's state is not the actuator's to write. -/
theorem sameSeq_commandUnits : SameSeq s (s.commandUnits v0 v1) := by
  simp [SameSeq, State.commandUnits]

/-- Everything but the commands, the output history, the sequencer's state and `ph` is unchanged. -/
def SameOutsideActuator (t : State) : Prop :=
  t.sb = s.sb ∧ SameStore s t ∧ SameWork s t ∧ SameResult s t ∧ SameEnv s t

theorem sameOutsideActuator_commandUnits : SameOutsideActuator s (s.commandUnits v0 v1) := by
  simp [SameOutsideActuator, SameStore, SameWork, SameResult, SameEnv, State.commandUnits]

/-! ### DRIVE and STOP -/

theorem exec_drive : exec .drive s = .next ((s.commandUnits s.cfg.speedFwd0 s.cfg.speedFwd1).goto 13) := rfl

theorem exec_stop :
    exec .stop s = .next ((s.commandUnits s.cfg.speedNeutral s.cfg.speedNeutral).clearPlaying.goto 0) := rfl

/-- Settles O38: DRIVE commands the two forward speeds, and writing `ph` leaves everything else. -/
theorem driveCommandsBothUnitsForward : Obligations.DriveCommandsBothUnitsForward := by
  unfold Obligations.DriveCommandsBothUnitsForward
  intro s
  obtain ⟨hsb, hstore, hwork, hresult, henv⟩ :=
    sameOutsideActuator_commandUnits s s.cfg.speedFwd0 s.cfg.speedFwd1
  have hseq := sameSeq_commandUnits s s.cfg.speedFwd0 s.cfg.speedFwd1
  exact ⟨_, exec_drive s, rfl, cmd_zero_commandUnits s _ _, cmd_one_commandUnits s _ _, commandUnits_outHist s _ _,
    hsb, hstore, hwork, hresult, hseq, henv⟩

/-- Settles O39: STOP commands neutral to both units; of the sequencer's state it then writes `playing` alone. -/
theorem stopNeutralisesAndReturnsToWaiting : Obligations.StopNeutralisesAndReturnsToWaiting := by
  unfold Obligations.StopNeutralisesAndReturnsToWaiting
  intro s
  obtain ⟨hstep, -, hstart⟩ := sameSeq_commandUnits s s.cfg.speedNeutral s.cfg.speedNeutral
  have hframe := sameOutsideActuator_commandUnits s s.cfg.speedNeutral s.cfg.speedNeutral
  exact ⟨_, exec_stop s, rfl, rfl, cmd_zero_commandUnits s _ _, cmd_one_commandUnits s _ _,
    commandUnits_outHist s _ _, hstep, hstart, hframe⟩

end Sys2Proof.Machine
end

section
/-! SUPPORT. The loop controller (spec/45_mainloop.md): DISPATCH, ACQUIRE and EMIT (R215, R216, R222), and the phase
over a step (R224). -/

namespace Sys2Proof.Machine

variable (s : State)

/-! ### DISPATCH and ACQUIRE -/

/-- Everything but `ph` is unchanged. -/
def SameOutsidePh (t : State) : Prop :=
  t.sb = s.sb ∧ SameStore s t ∧ SameWork s t ∧ SameResult s t ∧ SameSeq s t ∧ SameOutput s t ∧ SameEnv s t

theorem sameOutsidePh_goto (p : PhaseWord) : SameOutsidePh s (s.goto p) := by
  simp [SameOutsidePh, SameStore, SameWork, SameResult, SameSeq, SameOutput, SameEnv]

/-- Going to the phase the state is already in is no change. -/
theorem goto_eq_self {p : PhaseWord} (h : s.ph = p) : s.goto p = s := by
  subst h; rfl

theorem exec_dispatch : exec .dispatch s = .next (s.goto (if s.playing then 12 else 1)) := rfl

theorem exec_acquire : exec .acquire s = .next (s.goto (if s.ready then 2 else 1)) := rfl

/-- Settles O40: DISPATCH goes to the phase `playing` chooses, and going to a phase leaves everything else. -/
theorem dispatchChoosesThePath : Obligations.DispatchChoosesThePath := by
  unfold Obligations.DispatchChoosesThePath
  exact fun s => ⟨_, exec_dispatch s, rfl, sameOutsidePh_goto s _⟩

/-- Settles O41: by whether a block is ready. When none is, ACQUIRE goes to its own phase. -/
theorem acquireWaitsForABlock : Obligations.AcquireWaitsForABlock := by
  unfold Obligations.AcquireWaitsForABlock
  intro s
  refine ⟨_, exec_acquire s, ?_⟩
  cases hready : s.ready with
  | true => exact ⟨fun _ => rfl, nofun, sameOutsidePh_goto s 2⟩
  | false => exact ⟨nofun, fun _ => ⟨rfl, fun hph => goto_eq_self s hph⟩, sameOutsidePh_goto s 1⟩

/-! ### EMIT -/

theorem exec_emit :
    exec .emit s = .next ((s.emit (.diag s.spectrum s.peakMag s.peakBin s.domFreqNum)).goto 11) := rfl

/-- An event is seen in the output history alone. -/
theorem sameOutsideActuator_emit (e : Event) : SameOutsideActuator s (s.emit e) := by
  simp [SameOutsideActuator, SameStore, SameWork, SameResult, SameEnv]

/-- Settles O32: the event is EMIT's, and emitting it leaves everything but the output history. -/
theorem emitAppendsOneDiagnosticEvent : Obligations.EmitAppendsOneDiagnosticEvent := by
  unfold Obligations.EmitAppendsOneDiagnosticEvent
  intro s
  obtain ⟨hsb, hstore, hwork, hresult, henv⟩ :=
    sameOutsideActuator_emit s (.diag s.spectrum s.peakMag s.peakBin s.domFreqNum)
  exact ⟨_, exec_emit s, rfl, rfl, rfl, rfl, hsb, hstore, hwork, hresult, ⟨rfl, rfl, rfl⟩, henv⟩

/-! ### The phase over a step -/

/-- The test of PLAY_CHECK on the elapsed time the machine computes. -/
theorem stepOver_iff_elapsed : s.stepOver = true ↔ s.cfg.stepDuration ≤ s.cfg.elapsed s.readNow s.startTime :=
  decide_eq_true_iff

/-- A tick at the ports when none is pending, or one pending when none arrives, is served. -/
theorem servesTick_of_tick_eq_not_pending (h : s.present.port.tick = !s.tickPending) : s.servesTick := by
  cases hpend : s.tickPending with
  | true => exact .inr hpend
  | false => exact .inl (h.trans (by rw [hpend]; rfl))

/-- A step that serves a tick keeps `ph`; another one that is no reset writes what the operation in `ph` writes. -/
theorem step_ph_cases {t : State} (hrst : s.present.port.rst = false) (h : step s = .next t) :
    (s.servesTick ∧ t.ph = s.ph) ∨
    (¬ s.servesTick ∧ ∃ i : Instr, i.format = .ph ∧ s.ph = BitVec.ofNat 4 i.code ∧ t.ph = s.present.phAfter i) := by
  obtain ⟨hreset, -⟩ | ⟨-, htick, -, -, rfl⟩ | ⟨-, htick, hpend, i, hdec, hformat, hexec⟩ := step_cases s h
  case inl => cases hrst.symm.trans hreset
  case inr.inl => exact .inl ⟨servesTick_of_tick_eq_not_pending s htick, by split <;> simp⟩
  case inr.inr =>
    have hcode : s.ph = BitVec.ofNat 4 i.code := by
      obtain ⟨-, herror⟩ | ⟨j, hj, -, hcode⟩ := decodePh_cases s.ph
      · cases hdec.symm.trans herror
      · cases hdec.symm.trans hj; exact hcode
    exact .inr ⟨not_servesTick s htick hpend, i, hformat, hcode, exec_ph hexec⟩

/-- Settles O42: the operation performed is the one whose code is in `ph`, so each operation is one row of the table;
COPY to EMIT are the rows that write the next code. -/
theorem phaseFollowsTheSuccessorTable : Obligations.PhaseFollowsTheSuccessorTable := by
  unfold Obligations.PhaseFollowsTheSuccessorTable
  intro s t hrst hstep
  obtain ⟨hserves, hph⟩ | ⟨hquiet, i, hformat, hcode, hph⟩ := step_ph_cases s hrst hstep
  · exact ⟨fun _ => hph, fun hquiet => absurd hserves hquiet⟩
  refine ⟨fun hserves => absurd hserves hquiet, fun _ => ?_⟩
  rw [hcode, hph]
  cases i with
  | sample | bankflip => cases hformat
  | dispatch => exact .inl ⟨rfl, rfl⟩
  | acquire => exact .inr (.inl ⟨rfl, rfl⟩)
  | copy | dcrem | window | fft | mag | peak | freq | lookup | emit =>
    exact .inr (.inr (.inl ⟨by decide, by decide, rfl⟩))
  | seqWait => exact .inr (.inr (.inr (.inl ⟨rfl, rfl⟩)))
  | drive => exact .inr (.inr (.inr (.inr (.inl ⟨rfl, rfl⟩))))
  | playCheck =>
    exact .inr (.inr (.inr (.inr (.inr (.inl ⟨rfl, if_congr (stepOver_iff_elapsed s.present) rfl rfl⟩)))))
  | stop => exact .inr (.inr (.inr (.inr (.inr (.inr ⟨rfl, rfl⟩)))))

end Sys2Proof.Machine
end

section
/-! SUPPORT. A step whose entry asserts `rst` (spec/70_reset_and_hazards.md R270): the banks and the command registers
read as in the reset state, whatever they held. -/

namespace Sys2Proof.Machine

/-- Both banks read as zero once `rst` was served. -/
@[simp] theorem readBank_applyReset (s : State) (b : Fin 2) (i : Nat) : s.applyReset.readBank b i = Smp.zero :=
  (readBank_congr rfl rfl b i).trans (readBank_resetOf s.cfg b i)

/-- Both command registers are neutral once `rst` was served. -/
@[simp] theorem cmd_applyReset (s : State) (u : Fin 2) : s.applyReset.cmd u = s.cfg.speedNeutral :=
  cmd_resetOf s.cfg u

/-- Settles O11: reset has priority over whatever the state holds, so the step ends in the reset state with the
environment at its ports; the banks and the command registers are read there, every other listed register is its field. -/
theorem resetInputReinitialisesEverything : Obligations.ResetInputReinitialisesEverything := by
  unfold Obligations.ResetInputReinitialisesEverything
  intro s hrst
  have hph : decodePh s.present.applyReset.ph = .ok .dispatch := rfl
  exact ⟨s.present.applyReset, step_of_reset s hrst, readBank_applyReset s.present, rfl, rfl, rfl, rfl, hph, rfl, rfl,
    cmd_applyReset s.present 0, cmd_applyReset s.present 1, rfl, rfl, rfl, rfl, rfl⟩

end Sys2Proof.Machine
end

section
/-! SUPPORT. The Sampler's step (spec/40_sampler.md R120, R121, R124) as one function of the state, and the statements
about single operations of the Sampler. -/

namespace Sys2Proof.Machine

variable (s : State)

/-! ### The other bank -/

theorem one_sub_ne (b : Fin 2) : 1 - b ≠ b := by revert b; decide
theorem one_sub_one_sub (b : Fin 2) : 1 - (1 - b) = b := by revert b; decide
theorem val_one_sub (b : Fin 2) : ((1 - b : Fin 2) : Nat) = 1 - (b : Nat) := by revert b; decide

/-! ### The state after a tick was served -/

/-- The block after the Sampler served a tick: the sample is stored, and the bank handed over when it fills it. -/
def State.sampled : State :=
  if s.pos = s.cfg.n - 1 then s.captureSample.flipBanks else s.captureSample.advancePos

theorem sampled_of_last (h : s.pos = s.cfg.n - 1) : s.sampled = s.captureSample.flipBanks := if_pos h
theorem sampled_of_not_last (h : s.pos ≠ s.cfg.n - 1) : s.sampled = s.captureSample.advancePos := if_neg h

@[simp] theorem sampled_cfg : s.sampled.cfg = s.cfg := by unfold State.sampled; split <;> simp
@[simp] theorem sampled_ph : s.sampled.ph = s.ph := by unfold State.sampled; split <;> simp
@[simp] theorem sampled_playing : s.sampled.playing = s.playing := by unfold State.sampled; split <;> simp
@[simp] theorem sampled_stepIdx : s.sampled.stepIdx = s.stepIdx := by unfold State.sampled; split <;> simp
@[simp] theorem sampled_startTime : s.sampled.startTime = s.startTime := by unfold State.sampled; split <;> simp
@[simp] theorem sampled_cmd0 : s.sampled.cmd0 = s.cmd0 := by unfold State.sampled; split <;> simp
@[simp] theorem sampled_cmd1 : s.sampled.cmd1 = s.cmd1 := by unfold State.sampled; split <;> simp
@[simp] theorem sampled_outHist : s.sampled.outHist = s.outHist := by unfold State.sampled; split <;> simp
@[simp] theorem sampled_tickPending : s.sampled.tickPending = false := by unfold State.sampled; split <;> simp

theorem sameLoop_sampled : SameLoop s s.sampled := by
  unfold State.sampled
  split
  · exact sameLoop_captureSample s
  · exact sameLoop_captureSample s

/-- Both tails keep the banks, so the one element written is the head's. -/
theorem readBank_sampled (b : Fin 2) (i : Nat) : s.sampled.readBank b i =
    if b = s.fill ∧ i = s.pos then ⟨s.cfg.calibrate s.drawAdc, Value.zero⟩ else s.readBank b i := by
  rw [← readBank_captureSample]
  unfold State.sampled
  split <;> rfl

theorem wf_sampled {n : Nat} (hp : s.pos < n) (h : ∀ c, Store.wf Smp.zero n (s.bank c) = true) (c : Fin 2) :
    Store.wf Smp.zero n (s.sampled.bank c) = true := by
  have hcap := wf_captureSample s hp h c
  unfold State.sampled
  split
  · exact hcap
  · exact hcap

variable {s}

theorem sampled_pos (hp : s.pos < s.cfg.n) : s.sampled.pos = (s.pos + 1) % s.cfg.n := by
  by_cases hlast : s.pos = s.cfg.n - 1
  · rw [sampled_of_last s hlast, show s.pos + 1 = s.cfg.n by omega, Nat.mod_self]
    rfl
  · rw [sampled_of_not_last s hlast, ← nextPos_eq hp]
    simp

theorem sampled_fill : s.sampled.fill = if s.pos = s.cfg.n - 1 then 1 - s.fill else s.fill := by
  unfold State.sampled
  split <;> simp

theorem sampled_ready : s.sampled.ready = if s.pos = s.cfg.n - 1 then true else s.ready := by
  unfold State.sampled
  split <;> simp

/-- A step that serves a tick inside the bank. -/
theorem step_of_servesTick (hrst : s.present.port.rst = false) (h15 : s.ph ≠ 15)
    (htick : s.present.port.tick = !s.tickPending) (hp : s.pos < s.cfg.n) :
    step s = .next s.present.sampled :=
  (step_of_tick s hrst h15 htick).trans (exec_sampler s.present.requestTick hp)

/-- A phase code is the code of the operation it decodes to. -/
theorem code_of_decodePh {p : PhaseWord} {i : Instr} (hdec : decodePh p = .ok i) : p = BitVec.ofNat 4 i.code := by
  obtain ⟨-, herror⟩ | ⟨j, hj, -, hcode⟩ := decodePh_cases p
  · cases hdec.symm.trans herror
  · cases hdec.symm.trans hj; exact hcode

/-- What a step that is no reset can be: the Sampler's, or one operation of the loop controller. -/
theorem step_cases_of_not_reset {t : State} (hrst : s.present.port.rst = false) (h : step s = .next t) :
    (s.servesTick ∧ s.pos < s.cfg.n ∧ t = s.present.sampled) ∨
    (¬ s.servesTick ∧ ∃ i : Instr, i.format = .ph ∧ decodePh s.ph = .ok i ∧ s.ph = BitVec.ofNat 4 i.code ∧
      exec i s.present = .next t) := by
  obtain ⟨hreset, -⟩ | ⟨-, htick, hp, -, rfl⟩ | ⟨-, htick, hpend, i, hdec, hformat, hexec⟩ := step_cases s h
  case inl => cases hrst.symm.trans hreset
  case inr.inl => exact .inl ⟨servesTick_of_tick_eq_not_pending s htick, hp, rfl⟩
  case inr.inr =>
    exact .inr ⟨not_servesTick s htick hpend, i, hformat, hdec, code_of_decodePh hdec, hexec⟩

/-! ### Single operations of the Sampler -/

/-- BANKFLIP inside the bank. -/
theorem exec_bankflip (hp : s.pos < s.cfg.n) : exec .bankflip s = .next s.captureSample.flipBanks := by
  rw [exec, execBankflip, if_pos hp]

/-- Settles O17: the store and the frame are those of SAMPLE's head, which the tail keeps; at the last position SAMPLE
has the same tail. -/
theorem bankflipHandsTheBlockOver : Obligations.BankflipHandsTheBlockOver := by
  unfold Obligations.BankflipHandsTheBlockOver
  intro s hp
  have hsample : s.pos = s.cfg.n - 1 → exec .sample s = .next s.captureSample.flipBanks := fun hlast => by
    rw [exec_sample s hp, if_pos hlast]
  exact ⟨_, exec_bankflip hp, by simp, by simp, by simp, readBank_captureSample_self s,
    fun b i h => readBank_captureSample_other s h, hsample, sameLoop_captureSample s, by simp⟩

/-- Settles O18: both operations store one element first, and the fault is exactly that the element does not exist. -/
theorem samplerFaultsOnlyOutsideTheBank : Obligations.SamplerFaultsOnlyOutsideTheBank := by
  unfold Obligations.SamplerFaultsOnlyOutsideTheBank
  intro s
  by_cases hp : s.pos < s.cfg.n
  · rw [exec_sample s hp, exec_bankflip hp]
    simp [hp]
  · simp [exec, execSample, execBankflip, hp, Nat.not_lt.mp hp]

/-- Settles O53: the sample is stored at `(fill, pos)`, which is neither in the stable bank nor another element. -/
theorem samplerTouchesOnlyTheFillingBank : Obligations.SamplerTouchesOnlyTheFillingBank := by
  unfold Obligations.SamplerTouchesOnlyTheFillingBank
  intro s t hrst hserves hstep
  obtain ⟨-, -, rfl⟩ | ⟨hquiet, -⟩ := step_cases_of_not_reset hrst hstep
  case inr => exact absurd hserves hquiet
  have hother : ∀ b i, ¬(b = s.fill ∧ i = s.pos) → s.present.sampled.readBank b i = s.readBank b i :=
    fun b i h => (readBank_sampled s.present b i).trans (if_neg h)
  exact ⟨sameLoop_sampled s.present, fun i => hother _ i fun h => one_sub_ne s.fill h.1,
    fun i hi => hother _ i fun h => hi h.2⟩

end Sys2Proof.Machine
end

section
/-! SUPPORT. What an operation of the loop controller can do to each part of the state (spec/10_state.md R21, R25, R41,
spec/44_actuator.md R202, R204): one lemma for each part. -/

namespace Sys2Proof.Machine

variable {s t : State} {i : Instr}

/-- SEQ_WAIT completes inside the melody only, where it enters Playing on a hit and goes to DISPATCH. -/
theorem exec_seqWait_eq_next (h : exec .seqWait s = .next t) : ∃ m, s.cfg.melody[s.stepIdx]? = some m ∧
    t = (if m.hit s.cls then s.enterPlaying else s).goto 0 := by
  cases hm : s.cfg.melody[s.stepIdx]? with
  | none => rw [exec, execSeqWait, State.melodyStep, hm] at h; cases h
  | some m =>
    rw [exec_seqWait hm] at h
    exact ⟨m, rfl, (Host.Outcome.next.inj h).symm⟩

/-- Every operation of the loop controller but SEQ_WAIT completes, and SEQ_WAIT completes inside the melody. -/
theorem exec_completes (hformat : i.format = .ph) (hstep : s.stepIdx < s.cfg.l) : ∃ t, exec i s = .next t := by
  cases i with
  | sample | bankflip => cases hformat
  | seqWait => exact ⟨_, exec_seqWait (List.getElem?_eq_getElem hstep)⟩
  | dispatch | acquire | copy | dcrem | window | fft | mag | peak | freq | lookup | emit | drive | playCheck | stop =>
    exact ⟨_, rfl⟩

/-! ### The sample store -/

/-- The loop controller writes no bank, neither `fill` nor `pos`. -/
theorem exec_store (hformat : i.format = .ph) (h : exec i s = .next t) :
    t.bank0 = s.bank0 ∧ t.bank1 = s.bank1 ∧ t.fill = s.fill ∧ t.pos = s.pos := by
  cases i with
  | sample | bankflip => cases hformat
  | seqWait =>
    obtain ⟨m, -, rfl⟩ := exec_seqWait_eq_next h
    split <;> simp
  | drive | stop => cases h; simp
  | dispatch | acquire | copy | dcrem | window | fft | mag | peak | freq | lookup | emit | playCheck =>
    cases h; exact ⟨rfl, rfl, rfl, rfl⟩

/-- Of the loop controller's operations COPY clears `ready`, and no other writes it. -/
theorem exec_ready (hformat : i.format = .ph) (h : exec i s = .next t) :
    t.ready = if i = .copy then false else s.ready := by
  cases i with
  | sample | bankflip => cases hformat
  | seqWait =>
    obtain ⟨m, -, rfl⟩ := exec_seqWait_eq_next h
    split <;> rfl
  | drive | stop => cases h; simp
  | dispatch | acquire | copy | dcrem | window | fft | mag | peak | freq | lookup | emit | playCheck => cases h; rfl

/-! ### The output -/

/-- The events an operation emits, in order (R41): EMIT, DRIVE and STOP are the only ones that emit any. -/
def State.eventsOf (s : State) : Instr → List Event
  | .emit => [.diag s.spectrum s.peakMag s.peakBin s.domFreqNum]
  | .drive => [.cmdWrite 0 s.cfg.speedFwd0, .cmdWrite 1 s.cfg.speedFwd1]
  | .stop => [.cmdWrite 0 s.cfg.speedNeutral, .cmdWrite 1 s.cfg.speedNeutral]
  | .sample | .bankflip | .dispatch | .acquire | .copy | .dcrem | .window | .fft | .mag | .peak | .freq | .lookup
  | .seqWait | .playCheck => []

/-- Reading on in a history: what was the last command before is the command where none follows. -/
theorem lastCmd_append (u : Fin 2) (d : Nat) (es fs : List Event) :
    lastCmd u d (es ++ fs) = lastCmd u (lastCmd u d es) fs := by
  induction es generalizing d with
  | nil => rfl
  | cons e es ih => cases e <;> exact ih _

theorem lastCmd_pair (u : Fin 2) (d v0 v1 : Nat) :
    lastCmd u d [.cmdWrite 0 v0, .cmdWrite 1 v1] = if u = 0 then v0 else v1 := by
  fin_cases u <;> rfl

theorem cmd_commandUnits (s : State) (v0 v1 : Nat) (u : Fin 2) :
    (s.commandUnits v0 v1).cmd u = if u = 0 then v0 else v1 := by
  fin_cases u
  · exact cmd_zero_commandUnits s v0 v1
  · exact cmd_one_commandUnits s v0 v1

/-- An operation of the loop controller appends its events to the history. -/
theorem exec_outHist (hformat : i.format = .ph) (h : exec i s = .next t) : t.outHist = s.outHist ++ s.eventsOf i := by
  cases i with
  | sample | bankflip => cases hformat
  | emit => cases h; rfl
  | drive | stop => cases h; exact commandUnits_outHist s _ _
  | seqWait =>
    obtain ⟨m, -, rfl⟩ := exec_seqWait_eq_next h
    split <;> exact (List.append_nil _).symm
  | dispatch | acquire | copy | dcrem | window | fft | mag | peak | freq | lookup | playCheck =>
    cases h; exact (List.append_nil _).symm

/-- Each command register follows the events of the operation (R202). -/
theorem exec_cmd (hformat : i.format = .ph) (h : exec i s = .next t) (u : Fin 2) :
    t.cmd u = lastCmd u (s.cmd u) (s.eventsOf i) := by
  cases i with
  | sample | bankflip => cases hformat
  | drive | stop =>
    cases h
    rw [State.eventsOf, lastCmd_pair]
    exact cmd_commandUnits s _ _ u
  | seqWait =>
    obtain ⟨m, -, rfl⟩ := exec_seqWait_eq_next h
    split <;> rfl
  | dispatch | acquire | copy | dcrem | window | fft | mag | peak | freq | lookup | emit | playCheck => cases h; rfl

/-! ### The sequencer -/

/-- Only SEQ_WAIT and STOP write the sequencer's state. -/
theorem exec_sameSeq (hformat : i.format = .ph) (hwait : i ≠ .seqWait) (hstop : i ≠ .stop) (h : exec i s = .next t) :
    SameSeq s t := by
  cases i with
  | sample | bankflip => cases hformat
  | seqWait => exact absurd rfl hwait
  | stop => exact absurd rfl hstop
  | drive => cases h; exact sameSeq_commandUnits s s.cfg.speedFwd0 s.cfg.speedFwd1
  | dispatch | acquire | copy | dcrem | window | fft | mag | peak | freq | lookup | emit | playCheck =>
    cases h; exact ⟨rfl, rfl, rfl⟩

/-! ### The working buffer and the classifier's registers -/

/-- The operations of the playing path (spec/45_mainloop.md R225). -/
def OfPlayingPath (i : Instr) : Prop := i = .dispatch ∨ i = .drive ∨ i = .playCheck ∨ i = .stop

/-- The playing path leaves the working buffer and the classifier's registers alone (R186). -/
theorem exec_ofPlayingPath (hpath : OfPlayingPath i) (h : exec i s = .next t) : SameWork s t ∧ SameResult s t := by
  obtain rfl | rfl | rfl | rfl := hpath
  case inl | inr.inr.inl => cases h; exact ⟨⟨rfl, rfl⟩, ⟨rfl, rfl, rfl, rfl⟩⟩
  case inr.inl =>
    obtain ⟨-, -, hwork, hresult, -⟩ := sameOutsideActuator_commandUnits s s.cfg.speedFwd0 s.cfg.speedFwd1
    cases h; exact ⟨hwork, hresult⟩
  case inr.inr.inr =>
    obtain ⟨-, -, hwork, hresult, -⟩ := sameOutsideActuator_commandUnits s s.cfg.speedNeutral s.cfg.speedNeutral
    cases h; exact ⟨hwork, hresult⟩

/-- The playing path emits no Diag event. -/
theorem diag_notMem_eventsOf (hpath : OfPlayingPath i) (sp : List Value) (m : Value) (b f : Nat) :
    Event.diag sp m b f ∉ s.eventsOf i := by
  obtain rfl | rfl | rfl | rfl := hpath <;> simp [State.eventsOf]

end Sys2Proof.Machine
end

section
/-! SUPPORT. The invariant of the block: it holds after reset, and every step completes and keeps it
(spec/10_state.md section 2, spec/60_exceptions.md R240). -/

namespace Sys2Proof

/-! ### What a legal configuration bounds -/

namespace Config

variable {c : Config}

theorem speeds_lt_of_wf (h : c.wf = true) :
    c.speedFwd0 < 2 ^ c.cmdW ∧ c.speedFwd1 < 2 ^ c.cmdW ∧ c.speedNeutral < 2 ^ c.cmdW := by
  obtain ⟨-, -, -, -, -, -, hspeeds⟩ := wf_iff.mp h
  obtain ⟨h0, h1, hneutral, -⟩ := speedsOk_iff.mp hspeeds
  exact ⟨h0, h1, hneutral⟩

theorem speedNeutral_lt_of_wf (h : c.wf = true) : c.speedNeutral < 2 ^ c.cmdW := by
  obtain ⟨-, -, hneutral⟩ := speeds_lt_of_wf h
  exact hneutral

theorem melody_pos_of_wf (h : c.wf = true) : 0 < c.l := by
  obtain ⟨-, -, -, hmelody, -⟩ := wf_iff.mp h
  exact (melodyOk_iff.mp hmelody).1

/-- A classification is a row's, with a symbol of the table, or NoMatch with symbol 0. -/
theorem classify_cases (c : Config) (f : Nat) :
    (∃ r ∈ c.noteTable, c.classify f = ⟨false, r.sym⟩) ∨ c.classify f = ⟨true, 0⟩ := by
  unfold classify
  cases hfind : c.noteTable.find? (c.inRange f) with
  | none => exact .inr rfl
  | some r => exact .inl ⟨r, List.mem_of_find?_eq_some hfind, rfl⟩

theorem classify_sym_lt (h : c.wf = true) (f : Nat) : (c.classify f).sym < 2 ^ c.symW := by
  obtain ⟨-, -, -, -, htable, -⟩ := wf_iff.mp h
  obtain ⟨r, hr, heq⟩ | heq := c.classify_cases f
  · rw [heq]; exact (noteTableOk_iff.mp htable r hr).1
  · rw [heq]; exact Nat.two_pow_pos _

theorem classify_sym_of_noMatch (f : Nat) (h : (c.classify f).noMatch = true) : (c.classify f).sym = 0 := by
  obtain ⟨r, -, heq⟩ | heq := c.classify_cases f
  · rw [heq] at h; cases h
  · rw [heq]

theorem nextStep_lt {i : Nat} (h : i < c.l) : c.nextStep i < c.l := by
  rw [Machine.nextStep_eq h]
  exact Nat.mod_lt _ (Nat.zero_lt_of_lt h)

end Config

namespace Machine

variable {s t : State} {i : Instr} {p q : PhaseWord}

/-! ### After reset -/

theorem inv_resetOf {c : Config} (hwf : c.wf = true) : (State.resetOf c).Inv where
  cfgWf := hwf
  posLt := lt_of_lt_of_le (by decide : 0 < 4) (Config.four_le_n_of_wf hwf)
  bank0Wf := rfl
  bank1Wf := rfl
  bankImZero b i := by rw [readBank_resetOf]; rfl
  workReWf := rfl
  workImWf := rfl
  workImZero _ _ := rfl
  stepLt := Config.melody_pos_of_wf hwf
  noPending := rfl
  phaseLegal := by show (0 : PhaseWord) ≠ 15; decide
  playingPhase := nofun
  waitingPhase _ := by show (0 : PhaseWord) ≠ 12 ∧ (0 : PhaseWord) ≠ 13 ∧ (0 : PhaseWord) ≠ 14; decide
  neutral _ := ⟨rfl, rfl⟩
  copyReady h := absurd h (by show (0 : PhaseWord) ≠ 2; decide)
  startLt := Nat.two_pow_pos _
  peakLt := Nat.div_pos (le_trans (by decide) (Config.four_le_n_of_wf hwf)) (by decide)
  domLt := Nat.two_pow_pos _
  clsLt := Nat.two_pow_pos _
  clsNoMatch := nofun
  cmdLt := ⟨Config.speedNeutral_lt_of_wf hwf, Config.speedNeutral_lt_of_wf hwf⟩

/-- The invariant does not speak of the environment. -/
theorem inv_withInputs (h : s.Inv) (es : List EnvInput) : (s.withInputs es).Inv := { h with }
theorem inv_present (h : s.Inv) : s.present.Inv := { h with }
theorem inv_applyReset (h : s.Inv) : s.applyReset.Inv := { inv_resetOf h.cfgWf with }

/-- Settles O45: the reset state meets every clause, and the reference configuration is legal. -/
theorem resetStateMeetsTheInvariant : Obligations.ResetStateMeetsTheInvariant := by
  unfold Obligations.ResetStateMeetsTheInvariant
  have href : refCfg.wf = true := by decide +kernel
  exact ⟨fun c es hwf => inv_withInputs (inv_resetOf hwf) es, inv_resetOf href⟩

/-! ### The phase -/

/-- The clauses of the invariant that speak of the phase, for the phase `p`. -/
structure State.PhaseAllowed (s : State) (p : PhaseWord) : Prop where
  workImZero : p = 3 ∨ p = 4 ∨ p = 5 → ∀ i, s.readIm i = Value.zero
  legal : p ≠ 15
  playing : s.playing = true → p = 0 ∨ p = 12 ∨ p = 13 ∨ p = 14
  waiting : s.playing = false → p ≠ 12 ∧ p ≠ 13 ∧ p ≠ 14
  copyReady : p = 2 → s.ready = true

@[simp] theorem goto_goto (s : State) (p q : PhaseWord) : (s.goto p).goto q = s.goto q := rfl

/-- The other clauses do not depend on the phase. -/
theorem inv_goto (h : (s.goto q).Inv) (hp : s.PhaseAllowed p) : (s.goto p).Inv :=
  { h with
    workImZero := hp.workImZero
    phaseLegal := hp.legal
    playingPhase := hp.playing
    waitingPhase := hp.waiting
    copyReady := hp.copyReady }

/-- DISPATCH is allowed in every state. -/
theorem phaseAllowed_zero (s : State) : s.PhaseAllowed 0 where
  workImZero h := absurd h (by decide)
  legal := by decide
  playing _ := .inl rfl
  waiting _ := by decide
  copyReady h := absurd h (by decide)

/-- So at DISPATCH the invariant is its clauses that do not depend on the phase. -/
theorem inv_goto_zero (h : s.Inv) : (s.goto 0).Inv := inv_goto (q := s.ph) h (phaseAllowed_zero s)

theorem phaseAllowed_of_playing (hplay : s.playing = true) (hp : p = 12 ∨ p = 13 ∨ p = 14) : s.PhaseAllowed p where
  workImZero h := by obtain rfl | rfl | rfl := hp <;> exact absurd h (by decide)
  legal := by obtain rfl | rfl | rfl := hp <;> decide
  playing _ := .inr hp
  waiting h := by cases hplay.symm.trans h
  copyReady h := by obtain rfl | rfl | rfl := hp <;> exact absurd h (by decide)

/-- In WaitingForNote the phases of the detection path are allowed, with a block ready before COPY and a real buffer
from DCREM to FFT. -/
theorem phaseAllowed_of_waiting (hwait : s.playing = false) (hp : p.toNat ≤ 11)
    (him : p = 3 ∨ p = 4 ∨ p = 5 → ∀ i, s.readIm i = Value.zero) (hready : p = 2 → s.ready = true) :
    s.PhaseAllowed p where
  workImZero := him
  legal h := absurd hp (by rw [h]; decide)
  playing h := by cases hwait.symm.trans h
  waiting _ := ⟨fun h => absurd hp (by rw [h]; decide), fun h => absurd hp (by rw [h]; decide),
    fun h => absurd hp (by rw [h]; decide)⟩
  copyReady := hready

theorem phaseAllowed_one (hwait : s.playing = false) : s.PhaseAllowed 1 :=
  phaseAllowed_of_waiting hwait (by decide) (fun h => absurd h (by decide)) fun h => absurd h (by decide)

theorem phaseAllowed_two (hwait : s.playing = false) (hready : s.ready = true) : s.PhaseAllowed 2 :=
  phaseAllowed_of_waiting hwait (by decide) (fun h => absurd h (by decide)) fun _ => hready

/-- DCREM, WINDOW and FFT need a real buffer. -/
theorem phaseAllowed_of_readIm (hwait : s.playing = false) (hp : p = 3 ∨ p = 4 ∨ p = 5)
    (him : ∀ i, s.readIm i = Value.zero) : s.PhaseAllowed p :=
  phaseAllowed_of_waiting hwait (by obtain rfl | rfl | rfl := hp <;> decide) (fun _ => him)
    fun h => absurd hp (by rw [h]; decide)

/-- After FFT nothing is needed. -/
theorem phaseAllowed_of_six_le (hwait : s.playing = false) (hp : 6 ≤ p.toNat ∧ p.toNat ≤ 11) : s.PhaseAllowed p :=
  phaseAllowed_of_waiting hwait hp.2
    (fun h => absurd hp.1 (by obtain rfl | rfl | rfl := h <;> decide)) fun h => absurd hp.1 (by rw [h]; decide)

theorem playing_of_ph (h : s.Inv) (hph : s.ph = 12 ∨ s.ph = 13 ∨ s.ph = 14) : s.playing = true := by
  by_contra hwait
  obtain ⟨h12, h13, h14⟩ := h.waitingPhase (Bool.not_eq_true _ ▸ hwait)
  obtain hph | hph | hph := hph
  · exact h12 hph
  · exact h13 hph
  · exact h14 hph

theorem waiting_of_ph (h : s.Inv) (hph : ¬(s.ph = 0 ∨ s.ph = 12 ∨ s.ph = 13 ∨ s.ph = 14)) : s.playing = false := by
  by_contra hplay
  exact hph (h.playingPhase (Bool.not_eq_false _ ▸ hplay))

/-! ### The Sampler -/

/-- Serving a tick keeps the invariant: one sample with a zero imaginary part is stored inside the bank, and `ready` is
not cleared. -/
theorem inv_sampled (h : s.Inv) : s.sampled.Inv := by
  obtain ⟨hph, -, ⟨hre, him⟩, ⟨hbin, -, hdom, hcls⟩, ⟨hidx, hplay, hstart⟩, hcmd0, hcmd1, -⟩ := sameLoop_sampled s
  have hwf : ∀ c, Store.wf Smp.zero s.cfg.n (s.sampled.bank c) = true :=
    wf_sampled s h.posLt fun c => by fin_cases c; exacts [h.bank0Wf, h.bank1Wf]
  have hready : s.ready = true → s.sampled.ready = true := fun hr => by rw [sampled_ready, hr, ite_self]
  have hreadIm : ∀ i, s.sampled.readIm i = s.readIm i := fun i => by rw [State.readIm, him]; rfl
  refine ⟨?cfgWf, ?posLt, ?bank0, ?bank1, ?bankIm, ?workRe, ?workIm, ?workImZero, ?stepLt, sampled_tickPending s,
    ?legal, ?playing, ?waiting, ?neutral, ?copyReady, ?startLt, ?peakLt, ?domLt, ?clsLt, ?clsNoMatch, ?cmdLt⟩
  case posLt =>
    rw [sampled_cfg, sampled_pos h.posLt]
    exact Nat.mod_lt _ (Nat.zero_lt_of_lt h.posLt)
  case bank0 => rw [sampled_cfg]; exact hwf 0
  case bank1 => rw [sampled_cfg]; exact hwf 1
  case bankIm =>
    intro b i
    rw [readBank_sampled]
    split
    · rfl
    · exact h.bankImZero b i
  case workImZero => intro hp i; rw [hreadIm]; exact h.workImZero (hph ▸ hp) i
  case copyReady => intro hp; exact hready (h.copyReady (hph ▸ hp))
  all_goals simp only [sampled_cfg, hph, hre, him, hbin, hdom, hcls, hidx, hplay, hstart, hcmd0, hcmd1]
  exacts [h.cfgWf, h.workReWf, h.workImWf, h.stepLt, h.phaseLegal, h.playingPhase, h.waitingPhase, h.neutral,
    h.startLt, h.peakLt, h.domLt, h.clsLt, h.clsNoMatch, h.cmdLt]

/-! ### The loop controller -/

/-- The phase an operation goes to is allowed in the state it leaves. -/
theorem phaseAllowed_exec (h : s.Inv) (hcode : s.ph = BitVec.ofNat 4 i.code) (hformat : i.format = .ph)
    (hexec : exec i s = .next t) : t.PhaseAllowed (s.phAfter i) := by
  cases i with
  | sample | bankflip => cases hformat
  | dispatch =>
    obtain ⟨-, hplay, -⟩ := exec_sameSeq hformat (by decide) (by decide) hexec
    rw [State.phAfter]
    split
    · exact phaseAllowed_of_playing (hplay.trans ‹_›) (.inl rfl)
    · exact phaseAllowed_one (hplay.trans (Bool.eq_false_of_not_eq_true ‹_›))
  | acquire =>
    obtain ⟨-, hplay, -⟩ := exec_sameSeq hformat (by decide) (by decide) hexec
    have hwait := hplay.trans (waiting_of_ph h (by rw [hcode]; decide))
    have hready : t.ready = s.ready := exec_ready hformat hexec
    rw [State.phAfter]
    split
    · exact phaseAllowed_two hwait (hready.trans ‹_›)
    · exact phaseAllowed_one hwait
  | copy =>
    have hwait := waiting_of_ph h (by rw [hcode]; decide)
    cases hexec
    refine phaseAllowed_of_readIm hwait (.inl rfl) fun i => ?_
    rw [readIm_goto, readIm_fillIm, h.bankImZero, ite_self]
  | dcrem =>
    have hwait := waiting_of_ph h (by rw [hcode]; decide)
    cases hexec
    exact phaseAllowed_of_readIm hwait (.inr (.inl rfl)) (h.workImZero (.inl hcode))
  | window =>
    have hwait := waiting_of_ph h (by rw [hcode]; decide)
    cases hexec
    exact phaseAllowed_of_readIm hwait (.inr (.inr rfl)) (h.workImZero (.inr (.inl hcode)))
  | fft | mag | peak | freq | lookup | emit =>
    have hwait := waiting_of_ph h (by rw [hcode]; decide)
    cases hexec
    exact phaseAllowed_of_six_le hwait (by rw [State.phAfter]; decide)
  | drive =>
    obtain ⟨-, hplay, -⟩ := exec_sameSeq hformat (by decide) (by decide) hexec
    exact phaseAllowed_of_playing (hplay.trans (playing_of_ph h (.inl hcode))) (.inr (.inl rfl))
  | playCheck =>
    obtain ⟨-, hplay, -⟩ := exec_sameSeq hformat (by decide) (by decide) hexec
    have hplays := hplay.trans (playing_of_ph h (.inr (.inl hcode)))
    rw [State.phAfter]
    split
    · exact phaseAllowed_of_playing hplays (.inr (.inr rfl))
    · exact phaseAllowed_zero t
  | seqWait | stop => exact phaseAllowed_zero t

theorem commandUnits_eq (s : State) (v0 v1 : Nat) : s.commandUnits v0 v1 =
    { s with cmd0 := v0, cmd1 := v1, outHist := s.outHist ++ [.cmdWrite 0 v0, .cmdWrite 1 v1] } := by
  rw [← commandUnits_outHist]; rfl

/-- Commands that fit, in a state that may hold them, keep the invariant at DISPATCH. -/
theorem inv_commandUnits {v0 v1 : Nat} (h : (s.goto 0).Inv) (h0 : v0 < 2 ^ s.cfg.cmdW) (h1 : v1 < 2 ^ s.cfg.cmdW)
    (hneutral : s.playing = false → v0 = s.cfg.speedNeutral ∧ v1 = s.cfg.speedNeutral) :
    ((s.commandUnits v0 v1).goto 0).Inv := by
  rw [commandUnits_eq]
  exact { h with neutral := hneutral, cmdLt := ⟨h0, h1⟩ }

/-- Returning to WaitingForNote and DISPATCH with both commands neutral. -/
theorem inv_clearPlaying (h : (s.goto 0).Inv) (h0 : s.cmd0 = s.cfg.speedNeutral) (h1 : s.cmd1 = s.cfg.speedNeutral) :
    (s.clearPlaying.goto 0).Inv :=
  { h with
    playingPhase := nofun
    waitingPhase := fun _ => (phaseAllowed_zero s.clearPlaying).waiting rfl
    neutral := fun _ => ⟨h0, h1⟩ }

/-- Entering Playing keeps the invariant at DISPATCH. -/
theorem inv_enterPlaying (h : (s.goto 0).Inv) : (s.enterPlaying.goto 0).Inv :=
  { h with
    stepLt := Config.nextStep_lt h.stepLt
    startLt := Nat.mod_lt _ (Nat.two_pow_pos _)
    playingPhase := fun _ => .inl rfl
    waitingPhase := nofun
    neutral := nofun }

/-- Filling the real part of the buffer keeps the invariant at DISPATCH. -/
theorem inv_fillRe (h : (s.goto 0).Inv) (f : Nat → Value) : ((s.fillRe f).goto 0).Inv :=
  { h with workReWf := wf_fillRe s f }

/-- Filling the imaginary part keeps the invariant at DISPATCH, where nothing is said of its elements. -/
theorem inv_fillIm (h : (s.goto 0).Inv) (f : Nat → Value) : ((s.fillIm f).goto 0).Inv :=
  { h with workImWf := wf_fillIm s f, workImZero := (phaseAllowed_zero (s.fillIm f)).workImZero }

/-- Clearing `ready` and latching a bank keep the invariant at DISPATCH. -/
theorem inv_clearReady_latchBank (h : (s.goto 0).Inv) (b : Fin 2) : ((s.clearReady.latchBank b).goto 0).Inv :=
  { h with copyReady := (phaseAllowed_zero s.clearReady).copyReady }

/-- An operation keeps the clauses that do not depend on the phase. -/
theorem inv_exec_goto_zero (h : s.Inv) (hcode : s.ph = BitVec.ofNat 4 i.code) (hformat : i.format = .ph)
    (hexec : exec i s = .next t) : (t.goto 0).Inv := by
  have h0 := inv_goto_zero h
  cases i with
  | sample | bankflip => cases hformat
  | dispatch | acquire | playCheck | emit => cases hexec; exact { h0 with }
  | copy => cases hexec; rw [goto_goto]; exact inv_fillIm (inv_fillRe (inv_clearReady_latchBank h0 _) _) _
  | dcrem | window | mag => cases hexec; exact inv_fillRe h0 _
  | fft => cases hexec; rw [goto_goto]; exact inv_fillIm (inv_fillRe h0 _) _
  | peak =>
    have hn := Config.four_le_n_of_wf h.cfgWf
    have hpeak : s.peakSearch.1 < s.cfg.n / 2 := by
      have := (isPeakUpTo_peakSearch hn).le_hi
      omega
    cases hexec; exact { h0 with peakLt := hpeak }
  | freq => cases hexec; exact { h0 with domLt := Config.freqNum_lt h.cfgWf h.peakLt }
  | lookup =>
    cases hexec
    exact { h0 with clsLt := Config.classify_sym_lt h.cfgWf _, clsNoMatch := Config.classify_sym_of_noMatch _ }
  | seqWait =>
    obtain ⟨m, -, rfl⟩ := exec_seqWait_eq_next hexec
    split
    · exact inv_enterPlaying h0
    · exact h0
  | drive =>
    obtain ⟨hfwd0, hfwd1, -⟩ := Config.speeds_lt_of_wf h.cfgWf
    have hplay := playing_of_ph h (.inl hcode)
    rw [exec_drive] at hexec
    cases hexec
    rw [goto_goto]
    exact inv_commandUnits h0 hfwd0 hfwd1 fun hwait => by cases hplay.symm.trans hwait
  | stop =>
    have hneutral := Config.speedNeutral_lt_of_wf h.cfgWf
    rw [exec_stop] at hexec
    cases hexec
    rw [goto_goto]
    exact inv_clearPlaying (inv_commandUnits h0 hneutral hneutral fun _ => ⟨rfl, rfl⟩) rfl rfl

/-- The operation in `ph` keeps the invariant. -/
theorem inv_exec (h : s.Inv) (hcode : s.ph = BitVec.ofNat 4 i.code) (hformat : i.format = .ph)
    (hexec : exec i s = .next t) : t.Inv := by
  have hphase : t.PhaseAllowed t.ph := exec_ph hexec ▸ phaseAllowed_exec h hcode hformat hexec
  exact inv_goto (p := t.ph) (inv_exec_goto_zero h hcode hformat hexec) hphase

/-! ### Every step -/

theorem step_completes (h : s.Inv) : ∃ t, step s = .next t := by
  cases hrst : s.present.port.rst with
  | true => exact ⟨_, step_of_reset s hrst⟩
  | false =>
    cases htick : s.present.port.tick with
    | true =>
      exact ⟨_, step_of_servesTick hrst h.phaseLegal (by rw [htick, h.noPending]; rfl) h.posLt⟩
    | false =>
      obtain ⟨h15, -⟩ | ⟨i, hdec, hformat, -⟩ := decodePh_cases s.ph
      · exact absurd h15 h.phaseLegal
      · rw [step_of_quiet s hrst htick h.noPending, loopStep_of_decode s.present hdec]
        exact exec_completes hformat h.stepLt

theorem step_inv (h : s.Inv) (hstep : step s = .next t) : t.Inv := by
  cases hrst : s.present.port.rst with
  | true =>
    cases (step_of_reset s hrst).symm.trans hstep
    exact inv_applyReset (inv_present h)
  | false =>
    obtain ⟨-, -, rfl⟩ | ⟨-, i, hformat, -, hcode, hexec⟩ := step_cases_of_not_reset hrst hstep
    · exact inv_sampled (inv_present h)
    · exact inv_exec (inv_present h) hcode hformat hexec

/-- Settles O46: a step completes, and each of its three kinds keeps the invariant. At a reset the clause `clsNoMatch`
holds by the model's choice of `cls` (log 7), as in `inv_resetOf`. -/
theorem everyStepCompletesAndKeepsTheInvariant : Obligations.EveryStepCompletesAndKeepsTheInvariant := by
  unfold Obligations.EveryStepCompletesAndKeepsTheInvariant
  intro s h
  obtain ⟨t, hstep⟩ := step_completes h
  exact ⟨t, hstep, step_inv h hstep⟩

end Machine

end Sys2Proof
end

section
/-! SUPPORT. One step, by what it leaves in `ready`, in the output history, in the command registers and in the
sequencer's state (spec/10_state.md R25, R41, spec/43_sequencer.md R186, R188, spec/44_actuator.md R202). -/

namespace Sys2Proof.Machine

variable {s t : State} {i : Instr}

/-! ### The flag `ready` -/

/-- COPY is the operation of phase 2 alone. -/
theorem eq_copy_iff_code (hformat : i.format = .ph) : i = .copy ↔ BitVec.ofNat 4 i.code = 2 := by
  cases i with
  | sample | bankflip => cases hformat
  | dispatch | acquire | copy | dcrem | window | fft | mag | peak | freq | lookup | emit | seqWait | drive | playCheck
  | stop => decide

/-- Settles O43: a tick sets `ready` at the last position and keeps it elsewhere; the loop controller clears it in COPY
and keeps it elsewhere. -/
theorem readyIsSetByBankflipAndClearedByCopy : Obligations.ReadyIsSetByBankflipAndClearedByCopy := by
  unfold Obligations.ReadyIsSetByBankflipAndClearedByCopy
  intro s t hrst hstep
  obtain ⟨hserves, -, rfl⟩ | ⟨hquiet, i, hformat, -, hcode, hexec⟩ := step_cases_of_not_reset hrst hstep
  · have hready : s.present.sampled.ready = if s.pos = s.cfg.n - 1 then true else s.ready := sampled_ready
    rw [hready]
    by_cases hlast : s.pos = s.cfg.n - 1
    · rw [if_pos hlast]
      exact ⟨fun _ _ => ⟨hserves, hlast⟩, nofun, fun _ _ => rfl, fun hquiet => absurd hserves hquiet⟩
    · rw [if_neg hlast]
      exact ⟨fun h1 h0 => absurd h1 (Bool.eq_false_iff.mp h0), fun h0 h1 => absurd h1 (Bool.eq_false_iff.mp h0),
        fun _ h => absurd h hlast, fun hquiet => absurd hserves hquiet⟩
  · have hready : t.ready = if s.ph = 2 then false else s.ready := by
      rw [exec_ready hformat hexec, hcode]
      exact if_congr (eq_copy_iff_code hformat) rfl rfl
    rw [hready]
    by_cases hcopy : s.ph = 2
    · rw [if_pos hcopy]
      exact ⟨nofun, fun _ _ => ⟨hquiet, hcopy⟩, fun hserves => absurd hserves hquiet, fun _ _ => rfl⟩
    · rw [if_neg hcopy]
      exact ⟨fun h1 h0 => absurd h1 (Bool.eq_false_iff.mp h0), fun h0 h1 => absurd h1 (Bool.eq_false_iff.mp h0),
        fun hserves => absurd hserves hquiet, fun _ h => absurd h hcopy⟩

/-! ### The output history and the commands -/

/-- Settles O44: a tick appends nothing, an operation of the loop controller its events. -/
theorem outputHistoryGrowsByTheFourKindsOfEvents : Obligations.OutputHistoryGrowsByTheFourKindsOfEvents := by
  unfold Obligations.OutputHistoryGrowsByTheFourKindsOfEvents
  intro s t hrst hstep
  obtain ⟨-, -, rfl⟩ | ⟨-, i, hformat, -, -, hexec⟩ := step_cases_of_not_reset hrst hstep
  · exact ⟨[], by simp, .inl rfl⟩
  · have hout : t.outHist = s.present.outHist ++ s.present.eventsOf i := exec_outHist hformat hexec
    refine ⟨s.present.eventsOf i, hout, ?_⟩
    cases i with
    | emit => exact .inr (.inl ⟨_, _, _, _, rfl⟩)
    | drive => exact .inr (.inr (.inl rfl))
    | stop => exact .inr (.inr (.inr rfl))
    | sample | bankflip | dispatch | acquire | copy | dcrem | window | fft | mag | peak | freq | lookup | seqWait
    | playCheck => exact .inl rfl

/-- Each command register holds the value last sent to its unit (R202). -/
def State.CommandsStand (s : State) : Prop := ∀ u, s.cmd u = lastCmd u s.cfg.speedNeutral s.outHist

theorem commandsStand_resetOf (c : Config) : (State.resetOf c).CommandsStand := fun u => cmd_resetOf c u

/-- Reset starts both anew, a tick touches neither, and an operation's command follows its events. -/
theorem step_commandsStand (h : s.CommandsStand) (hstep : step s = .next t) : t.CommandsStand := by
  intro u
  cases hrst : s.present.port.rst with
  | true =>
    cases (step_of_reset s hrst).symm.trans hstep
    exact commandsStand_resetOf s.cfg u
  | false =>
    obtain ⟨-, -, rfl⟩ | ⟨-, i, hformat, -, -, hexec⟩ := step_cases_of_not_reset hrst hstep
    · simpa [State.cmd] using h u
    · rw [exec_cmd hformat hexec, exec_outHist hformat hexec, exec_cfg hexec, lastCmd_append]
      exact congrArg (lastCmd u · _) (h u)

/-- Settles O57: the claim of `step_commandsStand`, for every state and entry. -/
theorem everyStepKeepsTheStandingCommand : Obligations.EveryStepKeepsTheStandingCommand := by
  unfold Obligations.EveryStepKeepsTheStandingCommand
  exact fun _ _ h hstep => step_commandsStand h hstep

/-! ### The sequencer -/

/-- Only a hit of SEQ_WAIT writes `step_idx`. -/
theorem exec_stepIdx (hformat : i.format = .ph) (h : exec i s = .next t) :
    t.stepIdx = s.stepIdx ∨ (i = .seqWait ∧ s.stepIdx < s.cfg.l ∧ t = s.enterPlaying.goto 0) := by
  by_cases hwait : i = .seqWait
  · subst hwait
    obtain ⟨m, hm, rfl⟩ := exec_seqWait_eq_next h
    split
    · exact .inr ⟨rfl, (List.getElem?_eq_some_iff.mp hm).1, rfl⟩
    · exact .inl rfl
  by_cases hstop : i = .stop
  · subst hstop
    rw [exec_stop] at h
    cases h
    exact .inl (sameSeq_commandUnits s s.cfg.speedNeutral s.cfg.speedNeutral).1
  · exact .inl (exec_sameSeq hformat hwait hstop h).1

/-- Settles O37: SEQ_WAIT is the only operation that writes `step_idx`, and in its phase the sequencer waits. -/
theorem melodyAdvancesByOnePerHit : Obligations.MelodyAdvancesByOnePerHit := by
  unfold Obligations.MelodyAdvancesByOnePerHit
  intro s t hinv hrst hstep
  obtain ⟨-, -, rfl⟩ | ⟨hquiet, i, hformat, -, hcode, hexec⟩ := step_cases_of_not_reset hrst hstep
  · exact .inl (by simp)
  · obtain hsame | ⟨rfl, hlt, rfl⟩ := exec_stepIdx hformat hexec
    · exact .inl hsame
    · exact .inr ⟨hquiet, hcode, waiting_of_ph hinv (by rw [hcode]; decide), rfl, nextStep_eq hlt⟩

/-- In Playing the loop controller is on the playing path (R225). -/
theorem ofPlayingPath_of_playing (h : s.Inv) (hplay : s.playing = true) (hformat : i.format = .ph)
    (hcode : s.ph = BitVec.ofNat 4 i.code) : OfPlayingPath i := by
  have hph := h.playingPhase hplay
  rw [hcode] at hph
  cases i with
  | sample | bankflip => cases hformat
  | dispatch => exact .inl rfl
  | drive => exact .inr (.inl rfl)
  | playCheck => exact .inr (.inr (.inl rfl))
  | stop => exact .inr (.inr (.inr rfl))
  | acquire | copy | dcrem | window | fft | mag | peak | freq | lookup | emit | seqWait => exact absurd hph (by decide)

/-- Settles O49: a tick touches nothing of the loop controller, and in Playing the loop controller is on the playing
path, which touches neither the buffer nor the classifier's registers. -/
theorem nothingIsDetectedWhilePlaying : Obligations.NothingIsDetectedWhilePlaying := by
  unfold Obligations.NothingIsDetectedWhilePlaying
  intro s t hinv hplay hrst hstep
  have hdecode : decodePh s.ph = .ok .dispatch ∨ decodePh s.ph = .ok .drive ∨ decodePh s.ph = .ok .playCheck ∨
      decodePh s.ph = .ok .stop := by
    obtain hph | hph | hph | hph := hinv.playingPhase hplay <;> rw [hph] <;> decide
  refine ⟨hdecode, ?_⟩
  obtain ⟨-, -, rfl⟩ | ⟨-, i, hformat, -, hcode, hexec⟩ := step_cases_of_not_reset hrst hstep
  · obtain ⟨-, -, hwork, hresult, -⟩ := sameLoop_sampled s.present
    exact ⟨hwork, hresult, [], by simp, by simp⟩
  · have hpath := ofPlayingPath_of_playing hinv hplay hformat hcode
    obtain ⟨hwork, hresult⟩ := exec_ofPlayingPath hpath hexec
    have hout : t.outHist = s.present.outHist ++ s.present.eventsOf i := exec_outHist hformat hexec
    exact ⟨hwork, hresult, _, hout, diag_notMem_eventsOf hpath⟩

/-- Settles O34: SEQ_WAIT reads one melody word first, and the fault is exactly that there is none. -/
theorem seqWaitFaultsOnlyOutsideTheMelody : Obligations.SeqWaitFaultsOnlyOutsideTheMelody := by
  unfold Obligations.SeqWaitFaultsOnlyOutsideTheMelody
  intro s
  by_cases hlt : s.stepIdx < s.cfg.melody.length
  · rw [exec_seqWait (List.getElem?_eq_getElem hlt)]
    simp [hlt]
  · simp [exec, execSeqWait, State.melodyStep, Nat.not_lt.mp hlt]

end Sys2Proof.Machine
end

section
/-! SUPPORT. Runs (spec/44_actuator.md R202, R206, spec/43_sequencer.md R190, spec/70_reset_and_hazards.md R284): what
holds along every run, given what every entry is. -/

namespace Sys2Proof.Machine

variable {s t : State} {i : Instr}

/-! ### Induction over the entries presented so far -/

/-- A property of the entries presented so far and the state they led to holds at the end of a run when every step under
an entry with property `E` keeps it. -/
theorem runInputs_history_induction {P : List EnvInput → State → Prop} {E : EnvInput → Prop}
    (hin : ∀ pre s es, P pre s → P pre (s.withInputs es))
    (hstep : ∀ pre s, P pre s → E s.present.port → ∃ t, step s = .next t ∧ P (pre ++ [s.present.port]) t)
    (es : List EnvInput) (hes : ∀ e ∈ es, E e) {s : State} (h : P [] s) : ∃ t, runInputs es s = .next t ∧ P es t := by
  have key : ∀ (es pre : List EnvInput) (s : State), (∀ e ∈ es, E e) → P pre s →
      ∃ t, runInputs es s = .next t ∧ P (pre ++ es) t := by
    intro es
    induction es with
    | nil => exact fun pre s _ h => ⟨_, rfl, by rw [List.append_nil]; exact hin pre s [] h⟩
    | cons e es ih =>
      intro pre s hes h
      obtain ⟨t, ht, hPt⟩ := hstep pre _ (hin pre s (e :: es) h) (hes e (by simp))
      obtain ⟨u, hu, hPu⟩ := ih (pre ++ [e]) t (fun x hx => hes x (by simp [hx])) hPt
      exact ⟨u, by rw [runInputs_cons, ht, andThen_next, hu], by simpa using hPu⟩
  exact key es [] s hes h

/-! ### Runs from reset -/

/-- Settles O47: the invariant, with its neutral clause, holds along every run from reset. -/
theorem vehicleIsNeutralWhileWaiting : Obligations.VehicleIsNeutralWhileWaiting := by
  unfold Obligations.VehicleIsNeutralWhileWaiting
  intro c es hwf
  obtain ⟨t, hrun, hinv, hcfg⟩ := runInputs_induction (P := fun s => s.Inv ∧ s.cfg = c)
    (fun s es h => ⟨inv_withInputs h.1 es, h.2⟩)
    (fun s h => by
      obtain ⟨t, hstep⟩ := step_completes h.1
      exact ⟨t, hstep, step_inv h.1 hstep, (step_cfg hstep).trans h.2⟩)
    es ⟨inv_resetOf hwf, rfl⟩
  exact ⟨t, hrun, fun hwait => hcfg ▸ hinv.neutral hwait⟩

/-- Settles O48: the standing commands are those last sent after reset, and every step keeps that. -/
theorem standingCommandIsTheLastOneSent : Obligations.StandingCommandIsTheLastOneSent := by
  unfold Obligations.StandingCommandIsTheLastOneSent
  intro c es hwf _
  obtain ⟨t, hrun, -, hcfg, hstands⟩ := runInputs_induction (P := fun s => s.Inv ∧ s.cfg = c ∧ s.CommandsStand)
    (fun s es h => ⟨inv_withInputs h.1 es, h.2⟩)
    (fun s ⟨hinv, hcfg, hstands⟩ => by
      obtain ⟨t, hstep⟩ := step_completes hinv
      exact ⟨t, hstep, step_inv hinv hstep, (step_cfg hstep).trans hcfg, step_commandsStand hstands hstep⟩)
    es ⟨inv_resetOf hwf, rfl, commandsStand_resetOf c⟩
  exact ⟨t, hrun, hcfg ▸ hstands⟩

/-! ### Playing -/

/-- The block has stayed in Playing since `s`, is not at STOP and has sent no neutral command. -/
structure StaysPlaying (s t : State) : Prop where
  inv : t.Inv
  playing : t.playing = true
  notStop : t.ph ≠ 14
  startTime : t.startTime = s.startTime
  cfg : t.cfg = s.cfg
  output : ∃ new, t.outHist = s.outHist ++ new ∧ ∀ u, Event.cmdWrite u s.cfg.speedNeutral ∉ new

/-- The playing path but STOP sends no neutral command, the forward speeds being others (R276). -/
theorem neutral_notMem_eventsOf (hwf : s.cfg.wf = true) (hpath : OfPlayingPath i) (hstop : i ≠ .stop) (u : Fin 2) :
    Event.cmdWrite u s.cfg.speedNeutral ∉ s.eventsOf i := by
  obtain ⟨-, -, -, -, -, -, hspeeds⟩ := Config.wf_iff.mp hwf
  obtain ⟨-, -, -, hne0, hne1, -⟩ := Config.speedsOk_iff.mp hspeeds
  obtain rfl | rfl | rfl | rfl := hpath
  · simp [State.eventsOf]
  · simp [State.eventsOf, hne0.symm, hne1.symm]
  · simp [State.eventsOf]
  · exact absurd rfl hstop

/-- Before the time is over no operation of the playing path goes to STOP. -/
theorem phAfter_ne_stop (hpath : OfPlayingPath i)
    (htime : s.cfg.elapsed s.readNow s.startTime < s.cfg.stepDuration) : s.phAfter i ≠ 14 := by
  have hover : ¬ s.stepOver = true := fun h => Nat.not_lt.mpr (stepOver_iff_elapsed s |>.mp h) htime
  obtain rfl | rfl | rfl | rfl := hpath
  · rw [State.phAfter]; split <;> decide
  · rw [State.phAfter]; decide
  · rw [State.phAfter, if_neg hover]; decide
  · rw [State.phAfter]; decide

/-- A step at a time before the end of the step stays in Playing: a tick touches nothing of it, and the loop controller
is on the playing path before STOP. -/
theorem staysPlaying_step {u : State} (h : StaysPlaying s t) (hrst : t.present.port.rst = false)
    (htime : s.cfg.elapsed (t.present.port.now % 2 ^ s.cfg.timeW) s.startTime < s.cfg.stepDuration)
    (hstep : step t = .next u) : StaysPlaying s u := by
  have hinv : u.Inv := step_inv h.inv hstep
  have hcfg : u.cfg = s.cfg := (step_cfg hstep).trans h.cfg
  obtain ⟨new, hout, hnew⟩ := h.output
  obtain ⟨-, -, rfl⟩ | ⟨-, i, hformat, -, hcode, hexec⟩ := step_cases_of_not_reset hrst hstep
  · exact ⟨hinv, by simpa using h.playing, by simpa using h.notStop, by simpa using h.startTime, hcfg, new,
      by simpa using hout, hnew⟩
  · have hpath := ofPlayingPath_of_playing h.inv h.playing hformat hcode
    have hwait : i ≠ .seqWait := by rintro rfl; revert hpath; simp [OfPlayingPath]
    have hstop : i ≠ .stop := by rintro rfl; exact h.notStop hcode
    obtain ⟨-, hplay, hstart⟩ := exec_sameSeq hformat hwait hstop hexec
    have hph : u.ph ≠ 14 := by
      rw [exec_ph hexec]
      refine phAfter_ne_stop hpath ?_
      simpa [State.readNow, h.cfg, h.startTime] using htime
    have hevents : ∀ v, Event.cmdWrite v s.cfg.speedNeutral ∉ t.present.eventsOf i := fun v =>
      h.cfg ▸ neutral_notMem_eventsOf (s := t.present) h.inv.cfgWf hpath hstop v
    refine ⟨hinv, hplay.trans h.playing, hph, hstart.trans h.startTime, hcfg, new ++ t.present.eventsOf i, ?_,
      fun v => ?_⟩
    · rw [exec_outHist hformat hexec, ← List.append_assoc, ← hout]
      rfl
    · rw [List.mem_append]
      exact not_or.mpr ⟨hnew v, hevents v⟩

/-- Settles O50: by induction over the entries, with the invariant and the recorded start carried along. -/
theorem noNeutralCommandBeforeTheStepIsOver : Obligations.NoNeutralCommandBeforeTheStepIsOver := by
  unfold Obligations.NoNeutralCommandBeforeTheStepIsOver
  intro s es hinv hplay hph hes
  obtain ⟨t, hrun, h⟩ := runInputs_history_induction (P := fun _ => StaysPlaying s)
    (fun _ t es h => { h with inv := inv_withInputs h.inv es })
    (fun _ t h ⟨hrst, htime⟩ => by
      obtain ⟨u, hstep⟩ := step_completes h.inv
      exact ⟨u, hstep, staysPlaying_step h hrst htime hstep⟩)
    es hes ⟨hinv, hplay, hph, rfl, rfl, [], by simp, by simp⟩
  obtain ⟨new, hout, hnew⟩ := h.output
  exact ⟨t, new, hrun, h.playing, h.startTime, hout, hnew⟩

/-! ### Steps without ticks -/

/-- The operation `i` under the entry `e`, which is neither a tick nor a reset, leads from `s` to `t`. -/
structure QuietStep (s : State) (e : EnvInput) (i : Instr) (t : State) : Prop where
  exec_eq : exec i (s.at e) = .next t
  inv : t.Inv
  cfg : t.cfg = s.cfg
  ph : t.ph = (s.at e).phAfter i
  outHist : t.outHist = s.outHist ++ (s.at e).eventsOf i
  cmd : ∀ u, t.cmd u = lastCmd u (s.cmd u) ((s.at e).eventsOf i)
  run : ∀ es, runInputs (e :: es) s = runInputs es t

/-- A run whose first entry is neither a tick nor a reset begins with the operation in `ph`. -/
theorem exists_quietStep (h : s.Inv) {e : EnvInput} (he : e.IsQuiet) (hformat : i.format = .ph)
    (hcode : s.ph = BitVec.ofNat 4 i.code) (hdec : decodePh (BitVec.ofNat 4 i.code) = .ok i) :
    ∃ t, QuietStep s e i t := by
  obtain ⟨hrst, htick⟩ := he
  obtain ⟨t, hexec⟩ := exec_completes (s := s.at e) hformat h.stepLt
  have hstep : ∀ es, step (s.withInputs (e :: es)) = exec i ((s.at e).withInputs es) := fun es =>
    (step_of_quiet (s.withInputs (e :: es)) hrst htick h.noPending).trans
      (loopStep_of_decode ((s.at e).withInputs es) (hcode ▸ hdec))
  refine ⟨t, hexec, inv_exec (s := s.at e) { h with } hcode hformat hexec, exec_cfg (s := s.at e) hexec, exec_ph hexec,
    exec_outHist (s := s.at e) hformat hexec, exec_cmd (s := s.at e) hformat hexec, fun es => ?_⟩
  rw [runInputs_cons, hstep, exec_withInputs, hexec, andThen_next, andThen_next, runInputs_withInputs]

/-- Settles O51: the four operations are DISPATCH, DRIVE, PLAY_CHECK with the time over, and STOP. -/
theorem playingEndsWithoutTicksOnceTheTimeIsOver : Obligations.PlayingEndsWithoutTicksOnceTheTimeIsOver := by
  unfold Obligations.PlayingEndsWithoutTicksOnceTheTimeIsOver
  intro s e1 e2 e3 e4 hinv hplay hph h1 h2 h3 h4 htime
  obtain ⟨t1, q1⟩ := exists_quietStep hinv h1 (i := .dispatch) rfl hph rfl
  have hph1 : t1.ph = 12 := q1.ph.trans (if_pos hplay)
  obtain ⟨t2, q2⟩ := exists_quietStep q1.inv h2 (i := .drive) rfl hph1 rfl
  obtain ⟨t3, q3⟩ := exists_quietStep q2.inv h3 (i := .playCheck) rfl q2.ph rfl
  have hcfg1 : t1.cfg = s.cfg := q1.cfg
  have hcfg2 : t2.cfg = s.cfg := q2.cfg.trans hcfg1
  have hcfg3 : t3.cfg = s.cfg := q3.cfg.trans hcfg2
  have hstart : t2.startTime = s.startTime := by
    obtain ⟨-, -, hstart1⟩ := exec_sameSeq (i := .dispatch) rfl (by decide) (by decide) q1.exec_eq
    obtain ⟨-, -, hstart2⟩ := exec_sameSeq (i := .drive) rfl (by decide) (by decide) q2.exec_eq
    exact hstart2.trans hstart1
  have hover : (t2.at e3).stepOver = true := by
    refine (stepOver_iff_elapsed _).mpr ?_
    show t2.cfg.stepDuration ≤ t2.cfg.elapsed (e3.now % 2 ^ t2.cfg.timeW) t2.startTime
    rw [hcfg2, hstart]
    exact htime
  have hph3 : t3.ph = 14 := q3.ph.trans (if_pos hover)
  obtain ⟨t4, q4⟩ := exists_quietStep q3.inv h4 (i := .stop) rfl hph3 rfl
  have hneutral : (t3.at e4).eventsOf .stop = [.cmdWrite 0 s.cfg.speedNeutral, .cmdWrite 1 s.cfg.speedNeutral] :=
    hcfg3 ▸ rfl
  have hforward : (t1.at e2).eventsOf .drive = [.cmdWrite 0 s.cfg.speedFwd0, .cmdWrite 1 s.cfg.speedFwd1] :=
    hcfg1 ▸ rfl
  have hwaits : t4.playing = false := by
    have hexec := q4.exec_eq
    rw [exec_stop] at hexec
    cases hexec
    rfl
  have hcmd : ∀ u, t4.cmd u = s.cfg.speedNeutral := fun u => by
    rw [q4.cmd, hneutral, lastCmd_pair, ite_self]
  refine ⟨t4.withInputs [], by rw [q1.run, q2.run, q3.run, q4.run, runInputs_nil], hwaits, q4.ph, ?_, hcmd 0, hcmd 1⟩
  rw [withInputs_outHist, q4.outHist, q3.outHist, q2.outHist, q1.outHist, hneutral, hforward]
  simp [State.eventsOf]

/-- Settles O52: ACQUIRE without a block goes to its own phase, so a step without a tick changes nothing of the
block. -/
theorem waitingWithoutTicksChangesNothing : Obligations.WaitingWithoutTicksChangesNothing := by
  unfold Obligations.WaitingWithoutTicksChangesNothing
  intro s es hpend hph hready hes
  refine runInputs_history_induction (E := EnvInput.IsQuiet)
    (P := fun _ t => SameStore s t ∧ SameLoop s t ∧ t.cfg = s.cfg ∧ t.tickPending = false)
    (fun _ _ _ h => h) ?step es hes ?start
  case step =>
    rintro - t ⟨hstore, hloop, hcfg, hpend⟩ ⟨hrst, htick⟩
    obtain ⟨-, -, -, -, hsame⟩ := id hstore
    have hr : t.ready = false := hsame.trans hready
    have hph' : t.ph = 1 := hloop.1.trans hph
    have hdec : decodePh t.ph = .ok .acquire := by rw [hph']; rfl
    refine ⟨t.present, ?_, hstore, hloop, hcfg, hpend⟩
    rw [step_of_quiet t hrst htick hpend, loopStep_of_decode t.present hdec, exec_acquire, present_ready, hr,
      if_neg (by decide), goto_eq_self t.present hph']
  case start => simp [SameStore, SameLoop, SameWork, SameResult, SameSeq, SameOutput, hpend]

end Sys2Proof.Machine
end

section
/-! SUPPORT. The registers that are not live at a phase are never seen (spec/10_state.md R31 to R38, R47,
spec/93_implementation_defined.md U11, log 7): a state that holds anything else in them takes the same steps. -/

namespace Sys2Proof.Machine

/-! ### The registers reset leaves unspecified -/

/-- What the registers hold that R47 leaves unspecified. -/
structure Scratch where
  sb : Fin 2
  workRe : Store Value
  workIm : Store Value
  peakBin : Nat
  peakMag : Value
  domFreqNum : Nat
  cls : Cls
  startTime : Nat

def State.scratch (s : State) : Scratch :=
  ⟨s.sb, s.workRe, s.workIm, s.peakBin, s.peakMag, s.domFreqNum, s.cls, s.startTime⟩

/-- The state with other values in those registers. -/
def State.withScratch (s : State) (x : Scratch) : State :=
  { s with
    sb := x.sb, workRe := x.workRe, workIm := x.workIm, peakBin := x.peakBin, peakMag := x.peakMag
    domFreqNum := x.domFreqNum, cls := x.cls, startTime := x.startTime }

/-- The two agree on what is live at the phase code `p`: the clauses of `LiveEqual` on these registers. -/
structure Scratch.Agrees (p : Nat) (playing : Bool) (x y : Scratch) : Prop where
  startTime : playing = true → y.startTime = x.startTime
  workRe : 3 ≤ p → p ≤ 10 → y.workRe = x.workRe
  workIm : 3 ≤ p → p ≤ 6 → y.workIm = x.workIm
  peak : 8 ≤ p → p ≤ 10 → y.peakBin = x.peakBin ∧ y.peakMag = x.peakMag
  domFreqNum : 9 ≤ p → p ≤ 10 → y.domFreqNum = x.domFreqNum
  cls : 10 ≤ p → p ≤ 11 → y.cls = x.cls

variable {s t : State} {i : Instr}

/-- Live equality says that the states differ in these registers only, and not where they are live. -/
theorem liveEqual_iff : LiveEqual s t ↔
    t = s.withScratch t.scratch ∧ s.scratch.Agrees s.ph.toNat s.playing t.scratch := by
  constructor
  · intro h
    obtain ⟨hcfg, hpend, hport, hinputs, hcount⟩ := h.env
    obtain ⟨h0, h1, hfill, hpos, hready⟩ := h.store
    obtain ⟨hcmd0, hcmd1, hout⟩ := h.output
    refine ⟨?_, { h with }⟩
    have hph := h.ph
    have hidx := h.stepIdx
    have hplay := h.playing
    cases t
    simp_all [State.withScratch, State.scratch]
  · rintro ⟨heq, hagrees⟩
    rw [heq]
    exact ⟨⟨rfl, rfl, rfl, rfl, rfl⟩, ⟨rfl, rfl, rfl, rfl, rfl⟩, ⟨rfl, rfl, rfl⟩, rfl, rfl, rfl, hagrees.startTime,
      hagrees.workRe, hagrees.workIm, hagrees.peak, hagrees.domFreqNum, hagrees.cls⟩

/-- Going to the phase `p` keeps two states equal that agree on what is live there. -/
theorem liveEqual_goto {p : PhaseWord} (heq : t = s.withScratch t.scratch)
    (hagrees : s.scratch.Agrees p.toNat s.playing t.scratch) : LiveEqual (s.goto p) (t.goto p) :=
  liveEqual_iff.mpr ⟨congrArg (State.goto · p) heq, hagrees⟩

/-- The environment's entries are the same to both. -/
theorem liveEqual_present (h : LiveEqual s t) : LiveEqual s.present t.present := by
  obtain ⟨heq, hagrees⟩ := liveEqual_iff.mp h
  exact liveEqual_iff.mpr ⟨congrArg State.present heq, hagrees⟩

theorem liveEqual_withInputs (h : LiveEqual s t) (es : List EnvInput) :
    LiveEqual (s.withInputs es) (t.withInputs es) := by
  obtain ⟨heq, hagrees⟩ := liveEqual_iff.mp h
  exact liveEqual_iff.mpr ⟨congrArg (State.withInputs · es) heq, hagrees⟩

/-- Reset leaves nothing of what the registers held. -/
theorem applyReset_eq_of_liveEqual (h : LiveEqual s t) : t.applyReset = s.applyReset := by
  obtain ⟨heq, -⟩ := liveEqual_iff.mp h
  rw [heq]
  rfl

theorem agrees_refl (p : Nat) (playing : Bool) (x : Scratch) : x.Agrees p playing x :=
  ⟨fun _ => rfl, fun _ _ => rfl, fun _ _ => rfl, fun _ _ => ⟨rfl, rfl⟩, fun _ _ => rfl, fun _ _ => rfl⟩

theorem liveEqual_refl (s : State) : LiveEqual s s := liveEqual_iff.mpr ⟨rfl, agrees_refl ..⟩

/-- Outside the detection pass only the start time is live. -/
theorem agrees_outside_pass {p : Nat} {playing : Bool} {x y : Scratch} (hp : p ≤ 2 ∨ 12 ≤ p)
    (hstart : playing = true → y.startTime = x.startTime) : x.Agrees p playing y where
  startTime := hstart
  workRe _ _ := by omega
  workIm _ _ := by omega
  peak _ _ := by omega
  domFreqNum _ _ := by omega
  cls _ _ := by omega

/-- Between COPY and PEAK the buffer is live, its imaginary part up to MAG. -/
theorem agrees_in_analyzer {p : Nat} {playing : Bool} {x y : Scratch} (hp : p ≤ 7)
    (hstart : playing = true → y.startTime = x.startTime) (hre : y.workRe = x.workRe)
    (him : p ≤ 6 → y.workIm = x.workIm) : x.Agrees p playing y where
  startTime := hstart
  workRe _ _ := hre
  workIm _ := him
  peak _ _ := by omega
  domFreqNum _ _ := by omega
  cls _ _ := by omega

/-- From PEAK up to EMIT the magnitudes are live, and of the classifier's registers those already written. -/
theorem agrees_in_classifier {p : Nat} {playing : Bool} {x y : Scratch} (hp : 8 ≤ p)
    (hstart : playing = true → y.startTime = x.startTime) (hre : y.workRe = x.workRe)
    (hpeak : y.peakBin = x.peakBin ∧ y.peakMag = x.peakMag) (hdom : 9 ≤ p → y.domFreqNum = x.domFreqNum)
    (hcls : 10 ≤ p → y.cls = x.cls) : x.Agrees p playing y where
  startTime := hstart
  workRe _ _ := hre
  workIm _ _ := by omega
  peak _ _ := hpeak
  domFreqNum h _ := hdom h
  cls h _ := hcls h

/-! ### The operations of the loop controller -/

theorem withScratch_commandUnits (s : State) (x : Scratch) (v0 v1 : Nat) :
    (s.withScratch x).commandUnits v0 v1 = (s.commandUnits v0 v1).withScratch x := by
  rw [commandUnits_eq, commandUnits_eq]; rfl

/-- The operation in `ph` reads what is live there only, and what it leaves is live at the next phase only if it was or
was just written. -/
theorem exec_liveEqual (h : s.Inv) (hlive : LiveEqual s t) (hcode : s.ph = BitVec.ofNat 4 i.code)
    (hformat : i.format = .ph) {s' : State} (hexec : exec i s = .next s') :
    ∃ t', exec i t = .next t' ∧ LiveEqual s' t' := by
  obtain ⟨heq, hagrees⟩ := liveEqual_iff.mp hlive
  generalize t.scratch = x at heq hagrees
  subst heq
  obtain ⟨sb, re, im, pb, pm, df, k, st⟩ := x
  rw [hcode] at hagrees
  obtain ⟨hstart, hre, him, hpeak, hdf, hk⟩ := hagrees
  dsimp only [State.scratch] at hstart hre him hpeak hdf hk
  cases i with
  | sample | bankflip => cases hformat
  | dispatch | acquire =>
    cases hexec
    refine ⟨_, rfl, liveEqual_goto rfl (agrees_outside_pass ?_ hstart)⟩
    split <;> decide
  | copy =>
    cases hexec
    exact ⟨_, rfl, liveEqual_goto rfl (agrees_in_analyzer (by decide) hstart rfl fun _ => rfl)⟩
  | dcrem | window | fft =>
    obtain rfl := hre (by decide) (by decide)
    obtain rfl := him (by decide) (by decide)
    cases hexec
    exact ⟨_, rfl, liveEqual_goto rfl (agrees_in_analyzer (by decide) hstart rfl fun _ => rfl)⟩
  | mag =>
    obtain rfl := hre (by decide) (by decide)
    obtain rfl := him (by decide) (by decide)
    cases hexec
    exact ⟨_, rfl, liveEqual_goto rfl (agrees_in_analyzer (by decide) hstart rfl (Not.elim (by decide)))⟩
  | peak =>
    obtain rfl := hre (by decide) (by decide)
    cases hexec
    exact ⟨_, rfl, liveEqual_goto rfl (agrees_in_classifier (by decide) hstart rfl ⟨rfl, rfl⟩ (Not.elim (by decide))
      (Not.elim (by decide)))⟩
  | freq =>
    obtain rfl := hre (by decide) (by decide)
    obtain ⟨rfl, rfl⟩ := hpeak (by decide) (by decide)
    cases hexec
    exact ⟨_, rfl, liveEqual_goto rfl (agrees_in_classifier (by decide) hstart rfl ⟨rfl, rfl⟩ (fun _ => rfl)
      (Not.elim (by decide)))⟩
  | lookup =>
    obtain rfl := hre (by decide) (by decide)
    obtain ⟨rfl, rfl⟩ := hpeak (by decide) (by decide)
    obtain rfl := hdf (by decide) (by decide)
    cases hexec
    exact ⟨_, rfl, liveEqual_goto rfl (agrees_in_classifier (by decide) hstart rfl ⟨rfl, rfl⟩ (fun _ => rfl)
      fun _ => rfl)⟩
  | emit =>
    obtain rfl := hre (by decide) (by decide)
    obtain ⟨rfl, rfl⟩ := hpeak (by decide) (by decide)
    obtain rfl := hdf (by decide) (by decide)
    obtain rfl := hk (by decide) (by decide)
    cases hexec
    exact ⟨_, rfl, liveEqual_goto rfl ⟨hstart, fun _ => Not.elim (by decide), fun _ => Not.elim (by decide),
      fun _ => Not.elim (by decide), fun _ => Not.elim (by decide), fun _ _ => rfl⟩⟩
  | seqWait =>
    obtain rfl := hk (by decide) (by decide)
    obtain ⟨m, hm, rfl⟩ := exec_seqWait_eq_next hexec
    refine ⟨_, exec_seqWait hm, ?_⟩
    change LiveEqual _ (State.goto (if m.hit s.cls then _ else _) 0)
    by_cases hhit : m.hit s.cls = true
    · rw [if_pos hhit, if_pos hhit]
      exact liveEqual_goto rfl (agrees_outside_pass (by decide) fun _ => rfl)
    · rw [if_neg hhit, if_neg hhit]
      exact liveEqual_goto rfl (agrees_outside_pass (by decide) hstart)
  | drive =>
    rw [exec_drive] at hexec
    cases hexec
    exact ⟨_, exec_drive _, liveEqual_goto (withScratch_commandUnits ..) (agrees_outside_pass (by decide) hstart)⟩
  | playCheck =>
    obtain rfl := hstart (playing_of_ph h (.inr (.inl hcode)))
    cases hexec
    refine ⟨_, rfl, liveEqual_goto rfl (agrees_outside_pass ?_ fun _ => rfl)⟩
    split <;> decide
  | stop =>
    rw [exec_stop] at hexec
    cases hexec
    refine ⟨_, exec_stop _, liveEqual_goto ?_ (agrees_outside_pass (by decide) nofun)⟩
    exact congrArg State.clearPlaying (withScratch_commandUnits ..)

/-! ### Every step -/

theorem withScratch_writeBank (s : State) (x : Scratch) (b : Fin 2) (j : Nat) (v : Smp) :
    (s.withScratch x).writeBank b j v = (s.writeBank b j v).withScratch x := by
  unfold State.writeBank; split <;> rfl

/-- The Sampler does not look at these registers. -/
theorem withScratch_sampled (s : State) (x : Scratch) : (s.withScratch x).sampled = s.sampled.withScratch x := by
  have hcap : (s.withScratch x).captureSample = s.captureSample.withScratch x :=
    withScratch_writeBank s.serveTick x s.fill s.pos ⟨s.cfg.calibrate s.drawAdc, Value.zero⟩
  unfold State.sampled
  rw [hcap, show (s.withScratch x).pos = s.pos from rfl, show (s.withScratch x).cfg = s.cfg from rfl]
  split <;> rfl

/-- Nor does it write them. -/
theorem scratch_sampled (s : State) : s.sampled.scratch = s.scratch := by
  obtain ⟨-, hsb, ⟨hre, him⟩, ⟨hbin, hmag, hdom, hcls⟩, ⟨-, -, hstart⟩, -⟩ := sameLoop_sampled s
  rw [State.scratch, hsb, hre, him, hbin, hmag, hdom, hcls, hstart, State.scratch]

theorem liveEqual_sampled (h : LiveEqual s t) : LiveEqual s.sampled t.sampled := by
  obtain ⟨heq, hagrees⟩ := liveEqual_iff.mp h
  have hsampled : t.sampled = s.sampled.withScratch t.scratch := by rw [← withScratch_sampled, ← heq]
  refine liveEqual_iff.mpr ⟨by rw [scratch_sampled, hsampled], ?_⟩
  rw [scratch_sampled, scratch_sampled, sampled_ph, sampled_playing]
  exact hagrees

/-- A step of a state that differs in registers that are not live ends in one that differs in such registers again. -/
theorem step_liveEqual (h : s.Inv) (hlive : LiveEqual s t) {s' : State} (hstep : step s = .next s') :
    ∃ t', step t = .next t' ∧ LiveEqual s' t' := by
  have hpresent := liveEqual_present hlive
  obtain ⟨-, -, hport, -⟩ := hpresent.env
  obtain ⟨hcfg, hpend, -⟩ := hlive.env
  obtain ⟨-, -, -, hpos, -⟩ := hlive.store
  obtain ⟨hrst, rfl⟩ | ⟨hrst, htick, hp, h15, rfl⟩ | ⟨hrst, htick, hpend', i, hdec, hformat, hexec⟩ :=
    step_cases s hstep
  · have hreset : t.present.applyReset = s.present.applyReset := applyReset_eq_of_liveEqual hpresent
    exact ⟨_, (step_of_reset t (hport ▸ hrst)).trans (by rw [hreset]), liveEqual_refl _⟩
  · have hp' : t.pos < t.cfg.n := by rw [hpos, hcfg]; exact hp
    exact ⟨_, step_of_servesTick (hport ▸ hrst) (hlive.ph ▸ h15) (by rw [hport, htick, hpend]) hp',
      liveEqual_sampled hpresent⟩
  · have htick' : t.present.port.tick = false := by rw [hport]; exact htick
    obtain ⟨t', hexec', hlive'⟩ := exec_liveEqual (inv_present h) hpresent (code_of_decodePh hdec) hformat hexec
    refine ⟨t', ?_, hlive'⟩
    rw [step_of_quiet t (hport ▸ hrst) htick' (hpend.trans hpend'),
      loopStep_of_decode t.present (show decodePh t.ph = .ok i from hlive.ph ▸ hdec), hexec']

/-- Along every run the two stay live equal. -/
theorem runInputs_liveEqual (es : List EnvInput) (h : s.Inv) (hlive : LiveEqual s t) :
    ∃ s' t', runInputs es s = .next s' ∧ runInputs es t = .next t' ∧ LiveEqual s' t' := by
  induction es generalizing s t with
  | nil => exact ⟨_, _, rfl, rfl, liveEqual_withInputs hlive []⟩
  | cons e es ih =>
    have hlive' := liveEqual_withInputs hlive (e :: es)
    have hinv := inv_withInputs h (e :: es)
    obtain ⟨s1, hs1⟩ := step_completes hinv
    obtain ⟨t1, ht1, hlive1⟩ := step_liveEqual hinv hlive' hs1
    obtain ⟨s', t', hs', ht', hend⟩ := ih (step_inv hinv hs1) hlive1
    exact ⟨s', t', by rw [runInputs_cons, hs1, andThen_next, hs'], by rw [runInputs_cons, ht1, andThen_next, ht'], hend⟩

/-- Settles O55: by the step lemma and its run; at DISPATCH in WaitingForNote none of the registers is live. -/
theorem unspecifiedRegistersAreNeverSeen : Obligations.UnspecifiedRegistersAreNeverSeen := by
  unfold Obligations.UnspecifiedRegistersAreNeverSeen
  refine ⟨fun s t s' h hlive hstep => step_liveEqual h hlive hstep, ?_⟩
  intro c es sb re im pb pm df k st hwf
  have hlive : LiveEqual (State.resetOf c) ((State.resetOf c).withScratch ⟨sb, re, im, pb, pm, df, k, st⟩) :=
    liveEqual_iff.mpr ⟨rfl, agrees_outside_pass (.inl (Nat.zero_le 2)) nofun⟩
  obtain ⟨t, u, hrun, hrun', hend⟩ := runInputs_liveEqual es (inv_resetOf hwf) hlive
  obtain ⟨hcmd0, hcmd1, hout⟩ := hend.output
  exact ⟨t, u, hrun, hrun', hout, hcmd0, hcmd1, hend.stepIdx, hend.playing⟩

end Sys2Proof.Machine
end

section
/-! SUPPORT. The two agents and the sample store they share (spec/10_state.md R21, R26, spec/20_memory.md R73, R80,
spec/40_sampler.md R124): where the samples go, and what either agent sees of the other. -/

namespace Sys2Proof.Machine

variable {s t : State} {i : Instr}

/-! ### Sample numbers -/

/-- The next sample is number `n`: it goes to bank `(n div N) mod 2` at position `n mod N` (R124). -/
structure State.AtSample (s : State) (n : Nat) : Prop where
  pos_eq : s.pos = n % s.cfg.n
  fill_eq : (s.fill : Nat) = n / s.cfg.n % 2

/-- At the last position of a bank the next sample is the first of the other bank. -/
theorem succ_div_mod_two {n N : Nat} (hN : 0 < N) :
    (n + 1) / N % 2 = if n % N = N - 1 then 1 - n / N % 2 else n / N % 2 := by
  have hdiv : n = N * (n / N) + n % N := (Nat.div_add_mod n N).symm
  have hlt : n % N < N := Nat.mod_lt n hN
  split
  case isTrue hlast =>
    have hsucc : (n + 1) / N = n / N + 1 := by
      rw [show n + 1 = N * (n / N + 1) by rw [Nat.mul_succ]; omega, Nat.mul_div_cancel_left _ hN]
    omega
  case isFalse hlast =>
    have hsucc : (n + 1) / N = n / N := by
      rw [show n + 1 = (n % N + 1) + N * (n / N) by omega, Nat.add_mul_div_left _ _ hN, Nat.div_eq_of_lt (by omega),
        Nat.zero_add]
    rw [hsucc]

/-- After sample `n` comes sample `n + 1`. -/
theorem atSample_sampled {n : Nat} (h : s.AtSample n) (hp : s.pos < s.cfg.n) : s.sampled.AtSample (n + 1) := by
  obtain ⟨hpos, hfill⟩ := h
  constructor
  · rw [sampled_cfg, sampled_pos hp, hpos, Nat.mod_add_mod]
  · rw [sampled_cfg, sampled_fill, succ_div_mod_two (Nat.zero_lt_of_lt hp), hpos, ← hfill]
    split
    · exact val_one_sub s.fill
    · rfl

/-- A step of the loop controller keeps the sample number. -/
theorem atSample_exec {n : Nat} (h : s.AtSample n) (hformat : i.format = .ph) (hexec : exec i s = .next t) :
    t.AtSample n := by
  obtain ⟨-, -, hfill, hpos⟩ := exec_store hformat hexec
  exact ⟨by rw [hpos, exec_cfg hexec, h.pos_eq], by rw [hfill, exec_cfg hexec, h.fill_eq]⟩

/-- The entries to come are no part of it. -/
theorem atSample_present {n : Nat} (h : s.AtSample n) : s.present.AtSample n := ⟨h.pos_eq, h.fill_eq⟩
theorem atSample_withInputs {n : Nat} (h : s.AtSample n) (es : List EnvInput) : (s.withInputs es).AtSample n :=
  ⟨h.pos_eq, h.fill_eq⟩

theorem atSample_resetOf (c : Config) : (State.resetOf c).AtSample 0 :=
  ⟨(Nat.zero_mod _).symm, by simp [State.resetOf]⟩

/-- In a state that meets the invariant no tick is pending, so the entry says whether one is served. -/
theorem servesTick_iff (h : s.Inv) : s.servesTick ↔ s.present.port.tick = true := by
  simp [State.servesTick, h.noPending]

theorem tick_of_not_servesTick (h : s.Inv) (hquiet : ¬ s.servesTick) : s.present.port.tick = false := by
  rw [← Bool.not_eq_true, ← servesTick_iff h]
  exact hquiet

/-- Settles O19: a tick is sample `n`, and the loop controller writes nothing of the store. -/
theorem samplesFollowOneAnotherThroughTheBanks : Obligations.SamplesFollowOneAnotherThroughTheBanks := by
  unfold Obligations.SamplesFollowOneAnotherThroughTheBanks
  refine ⟨fun s n hinv hpos hfill hrst => ?_, fun c => ⟨(atSample_resetOf c).pos_eq, (atSample_resetOf c).fill_eq⟩⟩
  obtain ⟨t, hstep⟩ := step_completes hinv
  refine ⟨t, hstep, ?_⟩
  obtain ⟨hserves, hp, rfl⟩ | ⟨hquiet, i, hformat, -, -, hexec⟩ := step_cases_of_not_reset hrst hstep
  · refine ⟨fun _ => ?_, fun hquiet => absurd hserves hquiet⟩
    obtain ⟨hpos', hfill'⟩ := atSample_sampled (s := s.present) ⟨hpos, hfill⟩ hp
    rw [sampled_cfg] at hpos' hfill'
    refine ⟨hpos', hfill', hpos ▸ sampled_ready, fun b i => ?_⟩
    rw [readBank_sampled, ← hpos, ← hfill]
    exact if_congr (and_congr_left' Fin.ext_iff) rfl rfl
  · obtain ⟨h0, h1, hfill', hpos'⟩ := exec_store hformat hexec
    exact ⟨fun hserves => absurd hserves hquiet, fun _ => ⟨hpos', hfill', readBank_congr h0 h1⟩⟩

/-- What a run from reset has done after the entries `pre`: as many samples as ticks, and a block only when `N` of them
fill one; `ready` is cleared by the loop controller alone. -/
structure SampledSinceReset (c : Config) (pre : List EnvInput) (s : State) : Prop where
  inv : s.Inv
  cfg_eq : s.cfg = c
  atSample : s.AtSample (pre.countP (·.tick))
  ready_imp : s.ready = true → c.n ≤ pre.countP (·.tick)
  ready_iff : (∀ e ∈ pre, e.tick = true) → (s.ready = true ↔ c.n ≤ pre.length)

theorem sampledSinceReset_tick {c : Config} {pre : List EnvInput} (h : SampledSinceReset c pre s)
    (hp : s.pos < s.cfg.n) (htick : s.present.port.tick = true) (hinv : s.present.sampled.Inv) :
    SampledSinceReset c (pre ++ [s.present.port]) s.present.sampled := by
  have hcount : (pre ++ [s.present.port]).countP (·.tick) = pre.countP (·.tick) + 1 := by simp [htick]
  have hpos : s.pos = pre.countP (·.tick) % c.n := h.cfg_eq ▸ h.atSample.pos_eq
  have hle : pre.countP (·.tick) % c.n ≤ pre.countP (·.tick) := Nat.mod_le _ _
  have hlt : s.pos < c.n := h.cfg_eq ▸ hp
  have hready : s.present.sampled.ready = true ↔ s.pos = c.n - 1 ∨ s.ready = true := by
    rw [sampled_ready, present_pos, present_cfg, h.cfg_eq]
    by_cases hlast : s.pos = c.n - 1 <;> simp [hlast]
  refine ⟨hinv, (sampled_cfg _).trans h.cfg_eq, hcount ▸ atSample_sampled (atSample_present h.atSample) hp,
    fun hr => ?_, fun hall => ?_⟩
  · obtain hlast | hr := hready.mp hr
    · omega
    · have := h.ready_imp hr
      omega
  · have hall' : ∀ e ∈ pre, e.tick = true := fun e he => hall e (by simp [he])
    have hlen : pre.countP (·.tick) = pre.length := List.countP_eq_length.mpr hall'
    rw [hlen] at hpos hle
    rw [hready, h.ready_iff hall', List.length_append, List.length_singleton]
    constructor
    · omega
    · intro hge
      by_cases hshort : pre.length < c.n
      · rw [Nat.mod_eq_of_lt hshort] at hpos
        omega
      · exact .inr (Nat.not_lt.mp hshort)

theorem sampledSinceReset_quiet {c : Config} {pre : List EnvInput} (h : SampledSinceReset c pre s)
    (htick : s.present.port.tick = false) (hformat : i.format = .ph) (hexec : exec i s.present = .next t)
    (hinv : t.Inv) : SampledSinceReset c (pre ++ [s.present.port]) t := by
  have hcount : (pre ++ [s.present.port]).countP (·.tick) = pre.countP (·.tick) := by simp [htick]
  have hready : t.ready = true → s.ready = true := by
    rw [exec_ready hformat hexec]
    split
    · nofun
    · exact id
  refine ⟨hinv, (exec_cfg hexec).trans h.cfg_eq,
    hcount ▸ atSample_exec (atSample_present h.atSample) hformat hexec,
    fun hr => hcount ▸ h.ready_imp (hready hr), fun hall => ?_⟩
  exact absurd (hall s.present.port (by simp)) (by simp [htick])

theorem sampledSinceReset_step {c : Config} {pre : List EnvInput} (h : SampledSinceReset c pre s)
    (hrst : s.present.port.rst = false) (hstep : step s = .next t) :
    SampledSinceReset c (pre ++ [s.present.port]) t := by
  have hinv := step_inv h.inv hstep
  obtain ⟨hserves, hp, rfl⟩ | ⟨hquiet, i, hformat, -, -, hexec⟩ := step_cases_of_not_reset hrst hstep
  · exact sampledSinceReset_tick h hp ((servesTick_iff h.inv).mp hserves) hinv
  · exact sampledSinceReset_quiet h (tick_of_not_servesTick h.inv hquiet) hformat hexec hinv

/-- Settles O56: by induction over the entries. -/
theorem sampleNumberIsTheCountOfTicks : Obligations.SampleNumberIsTheCountOfTicks := by
  unfold Obligations.SampleNumberIsTheCountOfTicks
  intro c es hwf hes
  have hn : ¬ c.n ≤ 0 := by have := Config.four_le_n_of_wf hwf; omega
  obtain ⟨t, hrun, h⟩ := runInputs_history_induction (P := SampledSinceReset c)
    (fun _ _ es h => { h with inv := inv_withInputs h.inv es, atSample := atSample_withInputs h.atSample es })
    (fun _ s h hrst => by
      obtain ⟨t, hstep⟩ := step_completes h.inv
      exact ⟨t, hstep, sampledSinceReset_step h hrst hstep⟩)
    es hes ⟨inv_resetOf hwf, rfl, atSample_resetOf c, nofun, fun _ => by simpa [State.resetOf] using hn⟩
  obtain ⟨hpos, hfill⟩ := h.atSample
  rw [h.cfg_eq] at hpos hfill
  exact ⟨t, hrun, hpos, hfill, h.ready_imp,
    fun hall => Bool.eq_iff_iff.mpr ((h.ready_iff hall).trans decide_eq_true_iff.symm)⟩

end Sys2Proof.Machine
end

section
/-! SUPPORT. A block on its way through the two banks (spec/10_state.md R26, spec/20_memory.md R73): what the filling
bank holds after the ticks so far, and the COPY that follows. -/

namespace Sys2Proof.Machine

variable {s t : State} {i : Instr}

/-! ### A block from its first sample to COPY -/

/-- The readings so far, in order of capture. -/
def ticksOf (pre : List EnvInput) : List EnvInput := pre.filter (·.tick)

theorem ticksOf_append_of_tick {e : EnvInput} (h : e.tick = true) (pre : List EnvInput) :
    ticksOf (pre ++ [e]) = ticksOf pre ++ [e] := by simp [ticksOf, h]

theorem ticksOf_append_of_quiet {e : EnvInput} (h : e.tick = false) (pre : List EnvInput) :
    ticksOf (pre ++ [e]) = ticksOf pre := by simp [ticksOf, h]

/-- From `s`, whose filling bank was empty, the entries `pre` have led to `t`: the samples have numbers from the first
of that bank on, and as long as they fit it holds their readings in order. -/
structure CapturedSince (s : State) (pre : List EnvInput) (t : State) : Prop where
  inv : t.Inv
  cfg_eq : t.cfg = s.cfg
  atSample : t.AtSample (s.cfg.n * s.fill + (ticksOf pre).length)
  stored : (ticksOf pre).length ≤ s.cfg.n → ∀ k e, (ticksOf pre)[k]? = some e →
    t.readBank s.fill k = ⟨s.cfg.calibrate (e.raw % 2 ^ s.cfg.adcW), Value.zero⟩
  ready : (ticksOf pre).length = s.cfg.n → ∀ e, pre.getLast? = some e → e.tick = true → t.ready = true

/-- While the bank is not full, the next sample goes behind those it holds. -/
theorem capturedSince_next {pre : List EnvInput} (h : CapturedSince s pre t) (hlt : (ticksOf pre).length < s.cfg.n) :
    t.fill = s.fill ∧ t.pos = (ticksOf pre).length := by
  obtain ⟨hpos, hfill⟩ := h.atSample
  rw [h.cfg_eq, Nat.mul_add_mod, Nat.mod_eq_of_lt hlt] at hpos
  rw [h.cfg_eq, Nat.mul_add_div (by omega), Nat.div_eq_of_lt hlt, Nat.add_zero, Nat.mod_eq_of_lt s.fill.isLt] at hfill
  exact ⟨Fin.ext hfill, hpos⟩

theorem capturedSince_tick {pre : List EnvInput} (h : CapturedSince s pre t) (hp : t.pos < t.cfg.n)
    (htick : t.present.port.tick = true) (hinv : t.present.sampled.Inv) :
    CapturedSince s (pre ++ [t.present.port]) t.present.sampled := by
  have hticks := ticksOf_append_of_tick htick pre
  have hlen : (ticksOf (pre ++ [t.present.port])).length = (ticksOf pre).length + 1 := by simp [hticks]
  have hcfg := h.cfg_eq
  refine ⟨hinv, (sampled_cfg _).trans hcfg, ?_, fun hle k e hk => ?_, fun heq _ _ _ => ?_⟩
  · rw [hlen]
    exact atSample_sampled (atSample_present h.atSample) hp
  · obtain ⟨hfill, hpos⟩ := capturedSince_next h (by omega)
    rw [readBank_sampled, present_fill, present_pos, hfill, hpos, present_cfg, hcfg]
    rw [hticks] at hk
    by_cases hlast : k = (ticksOf pre).length
    · subst hlast
      rw [List.getElem?_concat_length] at hk
      cases hk
      rw [if_pos ⟨rfl, rfl⟩, State.drawAdc, present_cfg, hcfg]
    · have hklt : k < (ticksOf pre).length := by
        have hk' := (List.getElem?_eq_some_iff.mp hk).1
        rw [List.length_append, List.length_singleton] at hk'
        omega
      rw [List.getElem?_append_left hklt] at hk
      rw [if_neg fun h => hlast h.2]
      exact h.stored (by omega) k e hk
  · obtain ⟨-, hpos⟩ := capturedSince_next h (by omega)
    rw [sampled_ready, present_pos, present_cfg, hcfg, if_pos (by omega)]

theorem capturedSince_quiet {u : State} {pre : List EnvInput} (h : CapturedSince s pre t)
    (htick : t.present.port.tick = false) (hformat : i.format = .ph) (hexec : exec i t.present = .next u)
    (hinv : u.Inv) : CapturedSince s (pre ++ [t.present.port]) u := by
  obtain ⟨h0, h1, -, -⟩ := exec_store hformat hexec
  refine ⟨hinv, (exec_cfg hexec).trans h.cfg_eq, ?_, ?_, fun _ e he hetick => ?_⟩
  · rw [ticksOf_append_of_quiet htick]
    exact atSample_exec (atSample_present h.atSample) hformat hexec
  · rw [ticksOf_append_of_quiet htick]
    exact fun hle k e hk => (readBank_congr h0 h1 s.fill k).trans (h.stored hle k e hk)
  · rw [List.getLast?_concat] at he
    cases he
    cases htick.symm.trans hetick

theorem capturedSince_step {u : State} {pre : List EnvInput} (h : CapturedSince s pre t)
    (hrst : t.present.port.rst = false) (hstep : step t = .next u) : CapturedSince s (pre ++ [t.present.port]) u := by
  have hinv := step_inv h.inv hstep
  obtain ⟨hserves, hp, rfl⟩ | ⟨hquiet, i, hformat, -, -, hexec⟩ := step_cases_of_not_reset hrst hstep
  · exact capturedSince_tick h hp ((servesTick_iff h.inv).mp hserves) hinv
  · exact capturedSince_quiet h (tick_of_not_servesTick h.inv hquiet) hformat hexec hinv

/-- Settles O20: by induction over the entries the bank holds the readings; after the `N`th tick it is the stable bank,
which COPY takes. -/
theorem completedBlockIsCopiedInCaptureOrder : Obligations.CompletedBlockIsCopiedInCaptureOrder := by
  unfold Obligations.CompletedBlockIsCopiedInCaptureOrder
  intro s es hinv hpos hes hcount
  have hn : 0 < s.cfg.n := Nat.zero_lt_of_lt hinv.posLt
  have hstart : CapturedSince s [] s := by
    refine ⟨hinv, rfl, ⟨?_, ?_⟩, nofun, nofun⟩
    · rw [hpos]; simp [ticksOf]
    · simp [ticksOf, Nat.mul_div_cancel_left _ hn]; omega
  obtain ⟨t, hrun, h⟩ := runInputs_history_induction (P := CapturedSince s)
    (fun _ t es h => { h with inv := inv_withInputs h.inv es, atSample := atSample_withInputs h.atSample es })
    (fun _ t h hrst => by
      obtain ⟨u, hstep⟩ := step_completes h.inv
      exact ⟨u, hstep, capturedSince_step h hrst hstep⟩)
    es hes hstart
  obtain ⟨hpos', hfill'⟩ := h.atSample
  have hlen : (ticksOf es).length = s.cfg.n := hcount
  rw [h.cfg_eq, hlen, Nat.add_mod_right, Nat.mul_mod_right] at hpos'
  rw [h.cfg_eq, hlen, Nat.mul_add_div hn, Nat.div_self hn] at hfill'
  have hfill : t.fill = 1 - s.fill := by
    refine Fin.ext (hfill'.trans ?_)
    rw [val_one_sub]; omega
  obtain ⟨u, hcopy, hready, hsb, -, hcopied, -⟩ := copyTakesTheStableBank t
  rw [hfill, one_sub_one_sub] at hsb hcopied
  refine ⟨t, u, hrun, hfill, hpos', h.ready hlen, hcopy, hsb, hready, fun k e hk => ?_⟩
  have hk' : k < s.cfg.n := hlen ▸ (List.getElem?_eq_some_iff.mp hk).1
  obtain ⟨hre, him⟩ := hcopied k (h.cfg_eq ▸ hk')
  rw [hre, him, h.stored hlen.le k e hk]
  exact ⟨rfl, rfl⟩

end Sys2Proof.Machine
end

section
/-! SUPPORT. The independence of the two agents (spec/10_state.md R21, spec/20_memory.md R80): an operation of either
agent commutes with the other's private part of the sample store. -/

namespace Sys2Proof.Machine

variable {s t : State} {i : Instr}

/-! ### The loop controller and the sample store -/

/-- The state with the Sampler's part taken from `d`. -/
def State.withSampler (s d : State) : State :=
  { s with
    bank0 := d.bank0, bank1 := d.bank1, fill := d.fill, pos := d.pos, ready := d.ready, tickPending := d.tickPending }

/-- Every operation of the loop controller but ACQUIRE and COPY ignores the sample store. -/
theorem exec_withSampler (hformat : i.format = .ph) (hacquire : i ≠ .acquire) (hcopy : i ≠ .copy) (s d : State) :
    exec i (s.withSampler d) = Answer.andThen (exec i s) fun t => .next (t.withSampler d) := by
  cases i with
  | sample | bankflip => cases hformat
  | acquire => exact absurd rfl hacquire
  | copy => exact absurd rfl hcopy
  | seqWait =>
    have hmelody : (s.withSampler d).melodyStep = s.melodyStep := rfl
    have hcls : (s.withSampler d).cls = s.cls := rfl
    simp only [exec, execSeqWait, hmelody, hcls]
    split
    · split <;> rfl
    · rfl
  | dispatch | dcrem | window | fft | mag | peak | freq | lookup | emit | drive | playCheck | stop => rfl

/-- What the Sampler's head writes is determined by the sample store, the configuration and the port. -/
theorem captureSample_eq_withSampler (hstore : SameStore s t) (hcfg : t.cfg = s.cfg) (hport : t.port = s.port) :
    t.captureSample = t.withSampler s.captureSample := by
  obtain ⟨h0, h1, hfill, hpos, hready⟩ := hstore
  simp only [State.captureSample, State.serveTick, State.writeBank, State.drawAdc, State.withSampler, h0, h1, hfill,
    hpos, hready, hcfg, hport]
  split <;> rfl

theorem withSampler_flipBanks (d : State) : (t.withSampler d).flipBanks = t.withSampler d.flipBanks := rfl

theorem withSampler_advancePos {d : State} (hcfg : t.cfg = d.cfg) :
    (t.withSampler d).advancePos = t.withSampler d.advancePos := by
  simp only [State.advancePos, State.withSampler, hcfg]

/-- Either operation of the Sampler inside the bank: what it writes is determined by the sample store, the configuration
and the port. -/
theorem exec_tsel_withSampler (hformat : i.format = .tsel) (hp : s.pos < s.cfg.n) : ∃ d, ∀ t, SameStore s t →
    t.cfg = s.cfg → t.port = s.port → exec i t = .next (t.withSampler d) := by
  cases i with
  | sample =>
    refine ⟨s.sampled, fun t hstore hcfg hport => ?_⟩
    obtain ⟨-, -, -, hpos, -⟩ := id hstore
    have hhead := captureSample_eq_withSampler hstore hcfg hport
    have hcfg' : t.cfg = s.captureSample.cfg := hcfg.trans (captureSample_cfg s).symm
    rw [exec_sample t (by rw [hpos, hcfg]; exact hp), hhead, hpos, hcfg, withSampler_flipBanks,
      withSampler_advancePos hcfg', State.sampled, apply_ite t.withSampler]
  | bankflip =>
    refine ⟨s.captureSample.flipBanks, fun t hstore hcfg hport => ?_⟩
    obtain ⟨-, -, -, hpos, -⟩ := id hstore
    rw [exec_bankflip (by rw [hpos, hcfg]; exact hp), captureSample_eq_withSampler hstore hcfg hport]
    rfl
  | dispatch | acquire | copy | dcrem | window | fft | mag | peak | freq | lookup | emit | seqWait | drive | playCheck
  | stop => cases hformat

/-- Settles O21: the loop controller's operation ignores what the Sampler writes, and keeps all that the Sampler
reads. -/
theorem samplerCommutesWithPrivateOperations : Obligations.SamplerCommutesWithPrivateOperations := by
  unfold Obligations.SamplerCommutesWithPrivateOperations
  intro i j s hi hacquire hcopy hj hp
  obtain ⟨d, hd⟩ := exec_tsel_withSampler hj hp
  rw [hd s ⟨rfl, rfl, rfl, rfl, rfl⟩ rfl rfl, andThen_next, exec_withSampler hi hacquire hcopy]
  cases hexec : exec i s with
  | next t =>
    obtain ⟨h0, h1, hfill, hpos⟩ := exec_store hi hexec
    have hready : t.ready = s.ready := (exec_ready hi hexec).trans (if_neg hcopy)
    obtain ⟨hcfg, hport, -⟩ := exec_env hexec
    exact hd t ⟨h0, h1, hfill, hpos, hready⟩ hcfg hport
  | fault r | refused r => rfl

/-! ### The loop controller and the filling bank -/

/-- The state with the content of one bank replaced. -/
def State.withBank (s : State) (b : Fin 2) (m : Store Smp) : State :=
  if b = 0 then { s with bank0 := m } else { s with bank1 := m }

@[simp] theorem withBank_fill (s : State) (b : Fin 2) (m : Store Smp) : (s.withBank b m).fill = s.fill := by
  unfold State.withBank; split <;> rfl

theorem present_withBank (s : State) (b : Fin 2) (m : Store Smp) :
    (s.withBank b m).present = s.present.withBank b m := by
  unfold State.withBank; split <;> rfl

/-- The stable bank is not the filling one. -/
theorem readBank_withBank_stable (s : State) (m : Store Smp) (k : Nat) :
    (s.withBank s.fill m).readBank (1 - s.fill) k = s.readBank (1 - s.fill) k := by
  generalize s.fill = b
  fin_cases b <;> rfl

/-- Every operation of the loop controller ignores both banks, except that COPY reads the stable one. -/
theorem exec_withBank (hformat : i.format = .ph) (s : State) (m : Store Smp) :
    exec i (s.withBank s.fill m) = Answer.andThen (exec i s) fun t => .next (t.withBank s.fill m) := by
  cases i with
  | sample | bankflip => cases hformat
  | copy =>
    simp only [exec_copy, andThen_next, withBank_fill, readBank_withBank_stable]
    generalize s.fill = b
    fin_cases b <;> rfl
  | seqWait =>
    have hmelody : (s.withBank s.fill m).melodyStep = s.melodyStep := by unfold State.withBank; split <;> rfl
    have hcls : (s.withBank s.fill m).cls = s.cls := by unfold State.withBank; split <;> rfl
    simp only [exec, execSeqWait, hmelody, hcls]
    generalize s.fill = b
    split
    · split <;> fin_cases b <;> rfl
    · rfl
  | dispatch | acquire | dcrem | window | fft | mag | peak | freq | lookup | emit | drive | playCheck | stop =>
    generalize s.fill = b
    fin_cases b <;> rfl

/-- Settles O54: the operation performed writes nothing of the store but `ready`, and does not look at the filling
bank. -/
theorem loopControllerNeverSeesTheFillingBank : Obligations.LoopControllerNeverSeesTheFillingBank := by
  unfold Obligations.LoopControllerNeverSeesTheFillingBank
  intro s t m hrst hquiet hstep
  obtain ⟨hreset, -⟩ | ⟨-, htick, -, -, -⟩ | ⟨-, htick, hpend, i, hdec, hformat, hexec⟩ := step_cases s hstep
  · cases hrst.symm.trans hreset
  · exact absurd (servesTick_of_tick_eq_not_pending s htick) hquiet
  obtain ⟨h0, h1, hfill, hpos⟩ := exec_store hformat hexec
  refine ⟨h0, h1, hfill, hpos, ?_⟩
  have hport : (s.withBank s.fill m).present.port = s.present.port := by
    rw [present_withBank]; unfold State.withBank; split <;> rfl
  have hpend' : (s.withBank s.fill m).tickPending = false := by
    rw [← hpend]; unfold State.withBank; split <;> rfl
  have hdec' : decodePh (s.present.withBank s.fill m).ph = .ok i := by
    rw [← hdec]; unfold State.withBank; split <;> rfl
  show step (s.withBank s.fill m) = .next (t.withBank s.fill m)
  rw [step_of_quiet _ (hport ▸ hrst) (hport ▸ htick) hpend', present_withBank, loopStep_of_decode _ hdec']
  exact (exec_withBank hformat s.present m).trans (by rw [hexec]; rfl)

end Sys2Proof.Machine
end

section
/-! SUPPORT. The analyzer's WINDOW and its five operations in order (spec/41_analyzer.md R141, R142, R145), and the
elapsed time over a wrap of the counter (spec/43_sequencer.md R184). -/

namespace Sys2Proof

namespace Machine

variable {s : State}

/-! ### A constant block -/

/-- Settles O24: the mean of a constant block counts `N - 1` of its `N` elements. -/
theorem constantBlockLeavesAResidue : Obligations.ConstantBlockLeavesAResidue := by
  unfold Obligations.ConstantBlockLeavesAResidue
  intro s t c hwf hnum hconst hexec
  have hfour := Config.four_le_n_of_wf hwf
  have hn : (s.cfg.n : ℝ) ≠ 0 := by
    have : s.cfg.n ≠ 0 := by omega
    exact_mod_cast this
  have hmean : ∑ j ∈ Finset.Ico 1 s.cfg.n, (s.readRe j).val = ((s.cfg.n : ℝ) - 1) * c := by
    rw [Finset.sum_congr rfl fun j hj => hconst j (Finset.mem_Ico.mp hj).2, Finset.sum_const, Nat.card_Ico,
      nsmul_eq_mul, Nat.cast_sub (by omega), Nat.cast_one]
  rw [exec_dcrem] at hexec
  cases hexec
  refine ⟨?_, fun i h1 hi => ?_⟩
  · rw [readRe_goto, readRe_fillRe_of_lt s _ (by omega), dcRemoved_zero, hconst 0 (by omega)]
  · rw [readRe_goto, readRe_fillRe_of_lt s _ hi, dcRemoved_val hnum h1, hconst i hi, hmean]
    field_simp
    ring

/-! ### WINDOW -/

/-- Element `i` after WINDOW. -/
def State.windowed (s : State) (i : Nat) : Value := s.cfg.num.mul (s.readRe i) (s.cfg.window i)

theorem exec_window (s : State) : exec .window s = .next ((s.fillRe s.windowed).goto 5) := rfl

/-- A coefficient inside the window is the configured one. -/
theorem window_eq_getElem {c : Config} {i : Nat} (hi : i < c.hamming.length) : c.window i = c.hamming[i] := by
  simp [Config.window, hi]

theorem window_of_reference {c : Config} (href : c.hamming = hammingWindow c.n) {i : Nat} (hi : i < c.n) :
    c.window i = hammingCoef c.n i := by
  simp [Config.window, href, hammingWindow, hi]

/-- Settles O25: every element is read from the filled buffer, multiplied by its coefficient, which the reference window
computes by the formula. -/
theorem windowScalesTheRealComponent : Obligations.WindowScalesTheRealComponent := by
  unfold Obligations.WindowScalesTheRealComponent
  intro s hwf
  have hlen : s.cfg.hamming.length = s.cfg.n := by
    obtain ⟨-, -, hhamming, -⟩ := Config.wf_iff.mp hwf
    exact Config.hammingOk_iff.mp hhamming
  have hread : ∀ i, i < s.cfg.n → (s.fillRe s.windowed).readRe i = s.windowed i :=
    fun i hi => readRe_fillRe_of_lt s _ hi
  refine ⟨_, exec_window s, rfl, fun i hi => ?_, fun hnum href i hi => ?_, rfl, sameOutsideWork_fillRe_goto s _ 5⟩
  · rw [readRe_goto, hread i (hlen ▸ hi), State.windowed, window_eq_getElem hi]
  · rw [readRe_goto, hread i hi, State.windowed, window_of_reference href hi, hnum, NumSys.exact_mul, hammingCoef_val]

/-! ### The five operations in order -/

/-- A list of operations is its front part and then the rest. -/
theorem execAll_append (is js : List Instr) (s : State) :
    execAll (is ++ js) s = Answer.andThen (execAll is s) (execAll js) := by
  induction is generalizing s with
  | nil => rfl
  | cons i is ih =>
    rw [List.cons_append, execAll, execAll]
    cases exec i s with
    | next t => exact ih t
    | fault r | refused r => rfl

/-- COPY, DCREM and WINDOW leave the windowed, DC-corrected block `h_i·y_i` in a real buffer. -/
theorem execAll_copy_dcrem_window {x : Nat → ℝ} {m : ℝ} (hinv : s.Inv) (hnum : s.cfg.num = .exact)
    (hx : ∀ i, x i = (s.readBank (1 - s.fill) i).re.val)
    (hm : m = (∑ i ∈ Finset.Ico 1 s.cfg.n, x i) / (s.cfg.n : ℝ)) :
    ∃ t, execAll [.copy, .dcrem, .window] s = .next t ∧ t.cfg = s.cfg ∧
      (∀ i, i < s.cfg.n → (t.readRe i).val = (s.cfg.window i).val * if i = 0 then x 0 else x i - m) ∧
      ∀ i, i < s.cfg.n → t.readIm i = Value.zero := by
  obtain ⟨s1, hcopy, -, -, -, hcopied, -, -, -, -, -, -, -, hcfg1, -⟩ := copyTakesTheStableBank s
  obtain ⟨s2, hdcrem, -, hzero, -, hrest, him, -, -, -, -, -, hcfg2, -⟩ :=
    dcRemovalSubtractsTheMean s1 (hcfg1 ▸ hinv.cfgWf)
  have hcfg : s2.cfg = s.cfg := hcfg2.trans hcfg1
  have hre1 : ∀ i, i < s.cfg.n → (s1.readRe i).val = x i := fun i hi => by rw [(hcopied i hi).1, hx]
  have hre2 : ∀ i, i < s.cfg.n → (s2.readRe i).val = if i = 0 then x 0 else x i - m := fun i hi => by
    by_cases h0 : i = 0
    · rw [h0, if_pos rfl, hzero, hre1 0 (h0 ▸ hi)]
    · have hsum : ∑ j ∈ Finset.Ico 1 s.cfg.n, (s1.readRe j).val = ∑ j ∈ Finset.Ico 1 s.cfg.n, x j :=
        Finset.sum_congr rfl fun j hj => hre1 j (Finset.mem_Ico.mp hj).2
      rw [if_neg h0, hrest (hcfg1 ▸ hnum) i (Nat.one_le_iff_ne_zero.mpr h0) (hcfg1 ▸ hi), hre1 i hi, hcfg1, hsum, hm]
  refine ⟨(s2.fillRe s2.windowed).goto 5, ?_, hcfg, fun i hi => ?_, fun i hi => ?_⟩
  · rw [execAll, hcopy, andThen_next, execAll, hdcrem, andThen_next, execAll, exec_window]; rfl
  · rw [readRe_goto, readRe_fillRe_of_lt s2 _ (hcfg ▸ hi), State.windowed, hcfg, hnum, NumSys.exact_mul, hre2 i hi,
      mul_comm]
  · have hkept : s2.readIm i = s1.readIm i := by rw [State.readIm, him]; rfl
    rw [readIm_goto, readIm_fillRe, hkept, (hcopied i hi).2, hinv.bankImZero]

/-- FFT and MAG turn a real buffer `y` into the norms of its transform. -/
theorem execAll_fft_mag {y : Nat → ℝ} (hnum : s.cfg.num = .exact) (hre : ∀ i, i < s.cfg.n → (s.readRe i).val = y i)
    (him : ∀ i, i < s.cfg.n → s.readIm i = Value.zero) :
    ∃ t, execAll [.fft, .mag] s = .next t ∧ t.ph = 7 ∧ ∀ k, k < s.cfg.n → (t.readRe k).val =
      ‖∑ n ∈ Finset.range s.cfg.n, (y n : ℂ) *
        Complex.exp (-(2 * (Real.pi : ℂ) * Complex.I * (k : ℂ) * (n : ℂ) / (s.cfg.n : ℂ)))‖ := by
  obtain ⟨s1, hfft, -, htransformed, -, -, -, -, -, hcfg, -⟩ := fftIsTheForwardTransform s
  obtain ⟨s2, hmag, hph, -, hmagnitude, -⟩ := magIsTheComplexMagnitude s1
  refine ⟨s2, by rw [execAll, hfft, andThen_next, execAll, hmag]; rfl, hph, fun k hk => ?_⟩
  rw [hmagnitude (hcfg ▸ hnum) k (hcfg ▸ hk), ← Complex.norm_add_mul_I, htransformed hnum k hk]
  refine congrArg norm (Finset.sum_congr rfl fun n hn => ?_)
  have hlt := Finset.mem_range.mp hn
  rw [hre n hlt, him n hlt, Value.val_zero, Complex.ofReal_zero, zero_mul, add_zero]

/-- Settles O28: the first three operations leave the corrected block, the last two the norms of its transform. -/
theorem analyzerComputesTheSpectrum : Obligations.AnalyzerComputesTheSpectrum := by
  unfold Obligations.AnalyzerComputesTheSpectrum
  intro s x m hinv hnum hx hm
  obtain ⟨t, hfront, hcfg, hre, him⟩ := execAll_copy_dcrem_window hinv hnum hx hm
  rw [← hcfg] at hre him hnum ⊢
  obtain ⟨u, hback, hph, hnorm⟩ := execAll_fft_mag hnum hre him
  have hrun : execAll analyzeOps s = .next u := by
    have hsplit : analyzeOps = [.copy, .dcrem, .window] ++ [.fft, .mag] := rfl
    rw [hsplit, execAll_append, hfront, andThen_next, hback]
  exact ⟨u, hrun, hph, fun k hk => hnorm k (by omega)⟩

end Machine

/-! ### The elapsed time -/

/-- The start cancels from the difference of the two counter values, whatever wraps there were. -/
theorem Config.elapsed_of_passed (c : Config) (start passed : Nat) :
    c.elapsed ((start + passed) % 2 ^ c.timeW) (start % 2 ^ c.timeW) = passed % 2 ^ c.timeW := by
  zify
  rw [Config.elapsed_cast]
  push_cast
  rw [Int.sub_emod_emod, Int.emod_sub_emod, add_sub_cancel_left]

/-- Settles O36: below `2^TIME_W` the time passed is its own remainder. -/
theorem elapsedTimeSurvivesTheWrap : Obligations.ElapsedTimeSurvivesTheWrap := by
  unfold Obligations.ElapsedTimeSurvivesTheWrap
  intro c start passed
  have h := c.elapsed_of_passed start passed
  exact ⟨h, fun hlt => h.trans (Nat.mod_eq_of_lt hlt)⟩

end Sys2Proof
end

section
/-! SUPPORT. The word formats CLS, MST and NRG at every width (spec/30_encoding.md R93 to R95): a field above a field of
`M` values. -/

namespace Sys2Proof

/-! ### A field above a field -/

variable {a y A M w x : Nat}

theorem mul_add_div_of_lt (hy : y < M) : (a * M + y) / M = a := by
  rw [mul_comm, Nat.mul_add_div (Nat.zero_lt_of_lt hy), Nat.div_eq_of_lt hy, add_zero]

theorem mul_add_lt_mul (ha : a < A) (hy : y < M) : a * M + y < A * M :=
  calc a * M + y < a * M + M := Nat.add_lt_add_left hy _
    _ = (a + 1) * M := (Nat.succ_mul a M).symm
    _ ≤ A * M := Nat.mul_le_mul_right M ha

/-! ### One flag above a symbol: CLS and MST -/

/-- The word `{flag, sym}`, the common form of CLS and MST. -/
def flagWord (w : Nat) (b : Bool) (sym : Nat) : Nat := b.toNat * 2 ^ w + sym

theorem flagWord_lt {b : Bool} (hy : y < 2 ^ w) : flagWord w b y < 2 ^ (1 + w) := by
  rw [pow_add, pow_one]
  exact mul_add_lt_mul b.toNat_lt hy

theorem flagWord_div {b : Bool} (hy : y < 2 ^ w) : flagWord w b y / 2 ^ w = b.toNat := mul_add_div_of_lt hy

theorem flagWord_mod {b : Bool} (hy : y < 2 ^ w) : flagWord w b y % 2 ^ w = y := Nat.mul_add_mod_of_lt hy

theorem flagWord_flag {b : Bool} (hy : y < 2 ^ w) : decide (flagWord w b y / 2 ^ w % 2 = 1) = b := by
  rw [flagWord_div hy]
  cases b <;> rfl

/-- A word of the format is the word of its two fields. -/
theorem flagWord_fields (hx : x < 2 ^ (1 + w)) : flagWord w (decide (x / 2 ^ w % 2 = 1)) (x % 2 ^ w) = x := by
  have hflag : (decide (x / 2 ^ w % 2 = 1)).toNat = x / 2 ^ w := by
    have hlt : x / 2 ^ w < 2 := Nat.div_lt_of_lt_mul (by rwa [pow_add, pow_one, mul_comm] at hx)
    generalize x / 2 ^ w = q at hlt
    interval_cases q <;> rfl
  rw [flagWord, hflag, Nat.div_add_mod']

/-! ### A symbol above two frequencies: NRG -/

theorem noteRow_toWord_div_div {fw : Nat} {r : NoteRow} (hmin : r.fmin < 2 ^ fw) (hmax : r.fmax < 2 ^ fw) :
    r.toWord fw / 2 ^ (2 * fw) = r.sym := by
  rw [two_mul, pow_add, ← Nat.div_div_eq_div_mul, NoteRow.toWord, mul_add_div_of_lt hmax, mul_add_div_of_lt hmin]

theorem noteRow_toWord_div_mod {fw : Nat} {r : NoteRow} (hmin : r.fmin < 2 ^ fw) (hmax : r.fmax < 2 ^ fw) :
    r.toWord fw / 2 ^ fw % 2 ^ fw = r.fmin := by
  rw [NoteRow.toWord, mul_add_div_of_lt hmax, Nat.mul_add_mod_of_lt hmin]

theorem noteRow_toWord_mod {fw : Nat} {r : NoteRow} (hmax : r.fmax < 2 ^ fw) : r.toWord fw % 2 ^ fw = r.fmax := by
  rw [NoteRow.toWord, Nat.mul_add_mod_of_lt hmax]

theorem noteRow_toWord_lt {sw fw : Nat} {r : NoteRow} (hsym : r.sym < 2 ^ sw) (hmin : r.fmin < 2 ^ fw)
    (hmax : r.fmax < 2 ^ fw) : r.toWord fw < 2 ^ (sw + 2 * fw) := by
  rw [two_mul, ← add_assoc, pow_add, pow_add]
  exact mul_add_lt_mul (mul_add_lt_mul hsym hmin) hmax

/-- A word of the format is the word of its three fields. -/
theorem noteRow_toWord_ofWord {sw fw : Nat} (hx : x < 2 ^ (sw + 2 * fw)) : (NoteRow.ofWord sw fw x).toWord fw = x := by
  have hsym : x / 2 ^ (2 * fw) < 2 ^ sw := Nat.div_lt_of_lt_mul (by rwa [pow_add, mul_comm] at hx)
  rw [NoteRow.toWord, NoteRow.ofWord, Nat.mod_eq_of_lt hsym, two_mul, pow_add, ← Nat.div_div_eq_div_mul,
    Nat.div_add_mod', Nat.div_add_mod']

/-- Settles O4: CLS and MST are one format, NRG is two fields above a third. -/
theorem wordFormatsRoundTrip : Obligations.WordFormatsRoundTrip := by
  unfold Obligations.WordFormatsRoundTrip
  refine ⟨fun w c hc => ?cls, fun w x hx => flagWord_fields hx, fun w m hm => ?mst, fun w x hx => flagWord_fields hx,
    fun sw fw r hsym hmin hmax => ?nrg, fun sw fw x hx => noteRow_toWord_ofWord hx⟩
  case cls =>
    refine ⟨flagWord_lt hc, flagWord_div hc, flagWord_mod hc, ?_⟩
    exact congrArg₂ Cls.mk (flagWord_flag hc) (flagWord_mod hc)
  case mst =>
    refine ⟨flagWord_lt hm, flagWord_div hm, flagWord_mod hm, ?_⟩
    exact congrArg₂ MelodyStep.mk (flagWord_flag hm) (flagWord_mod hm)
  case nrg =>
    have hdiv := noteRow_toWord_div_div hmin hmax
    have hmid := noteRow_toWord_div_mod hmin hmax
    have hmod := noteRow_toWord_mod hmax
    refine ⟨noteRow_toWord_lt hsym hmin hmax, hdiv, hmid, hmod, ?_⟩
    rw [NoteRow.ofWord, hdiv, hmid, hmod, Nat.mod_eq_of_lt hsym]

end Sys2Proof
end

section
/-! SUPPORT. The operation codes (spec/30_encoding.md R97, R98, R100) and which operation a step performs
(spec/45_mainloop.md R227, R228). -/

namespace Sys2Proof

/-! ### Codes -/

/-- Settles O1: the decoder at each of the table's words. -/
theorem codesSelectTheirOperations : Obligations.CodesSelectTheirOperations := by
  unfold Obligations.CodesSelectTheirOperations
  decide

/-- Settles O2: the word is `2·tick + last`, for each of the two flags' values; its four values are decoded by cases. -/
theorem selectWordIsTickAndLast : Obligations.SelectWordIsTickAndLast := by
  unfold Obligations.SelectWordIsTickAndLast
  refine ⟨fun s => ?_, by decide⟩
  change (s.tselWord.getLsbD 1 = s.tickPending) ∧ (s.tselWord.getLsbD 0 = s.lastPos)
  unfold Machine.State.tselWord
  cases s.tickPending <;> cases s.lastPos <;> decide

/-- Settles O3: by the law of each operation. -/
theorem encodedOperationsDecodeBack : Obligations.EncodedOperationsDecodeBack := by
  unfold Obligations.EncodedOperationsDecodeBack
  intro i _
  have hlaw : Laws.RoundTrip.Statement i := by
    cases i with
    | sample => exact Laws.RoundTrip.sample
    | bankflip => exact Laws.RoundTrip.bankflip
    | dispatch => exact Laws.RoundTrip.dispatch
    | acquire => exact Laws.RoundTrip.acquire
    | copy => exact Laws.RoundTrip.copy
    | dcrem => exact Laws.RoundTrip.dcrem
    | window => exact Laws.RoundTrip.window
    | fft => exact Laws.RoundTrip.fft
    | mag => exact Laws.RoundTrip.mag
    | peak => exact Laws.RoundTrip.peak
    | freq => exact Laws.RoundTrip.freq
    | lookup => exact Laws.RoundTrip.lookup
    | emit => exact Laws.RoundTrip.emit
    | seqWait => exact Laws.RoundTrip.seqWait
    | drive => exact Laws.RoundTrip.drive
    | playCheck => exact Laws.RoundTrip.playCheck
    | stop => exact Laws.RoundTrip.stop
  obtain ⟨-, hfits, hdecode⟩ := hlaw
  exact ⟨hdecode, hfits⟩

/-- The code of an operation of the loop controller, as a phase word and as a table word of four or eight bits. -/
theorem decode_code_of_ph {i : Instr} (hformat : i.format = .ph) : decodePh (BitVec.ofNat 4 i.code) = .ok i ∧
    decodeTableWord 4 i.code = some i ∧ decodeTableWord 8 i.code = some i := by
  cases i with
  | sample | bankflip => cases hformat
  | dispatch | acquire | copy | dcrem | window | fft | mag | peak | freq | lookup | emit | seqWait | drive | playCheck
  | stop => decide

namespace Machine

variable {s : State}

/-! ### Steps -/

/-- Settles O5: without reset and tick the loop controller moves, and `ph` names its operation. -/
theorem stepRunsThePhaseOperation : Obligations.StepRunsThePhaseOperation := by
  unfold Obligations.StepRunsThePhaseOperation
  intro s i hrst htick hpend hdec
  rw [step_of_quiet s hrst htick hpend, loopStep_of_decode s.present hdec]

/-- Settles O6: by whether the state holds the reserved phase code. -/
theorem stepServesATick : Obligations.StepServesATick := by
  unfold Obligations.StepServesATick
  intro s hrst htick
  by_cases h15 : s.ph = 15
  · rw [if_pos h15, step_of_reserved s hrst h15]
  · rw [if_neg h15, step_of_tick s hrst h15 htick]

/-- Settles O7: presenting an entry writes the three fields of the environment. -/
theorem presentedInputChangesOnlyThePorts : Obligations.PresentedInputChangesOnlyThePorts := by
  unfold Obligations.PresentedInputChangesOnlyThePorts
  intro s
  refine ⟨rfl, by simp [SameStore], by simp [SameLoop, SameWork, SameResult, SameSeq, SameOutput], rfl, rfl, rfl, ?_⟩
  intro e es h
  rw [State.present, h]

/-- Settles O10: by whether the state holds the reserved phase code, which is checked first. -/
theorem secondPendingTickIsRefused : Obligations.SecondPendingTickIsRefused := by
  unfold Obligations.SecondPendingTickIsRefused
  intro s hpend hrst htick
  by_cases h15 : s.ph = 15
  · rw [if_pos h15, step_of_reserved s hrst h15]
  · have h15' : s.present.ph ≠ 15 := h15
    have hpend' : s.present.tickPending = true := hpend
    rw [if_neg h15, step, portStep, hrst, if_neg Bool.false_ne_true, if_neg h15', if_pos htick, if_pos hpend']

/-! ### Table words -/

/-- A PH word selected by its number is the operation of the very next step. -/
theorem step_select_ph {i : Instr} (hformat : i.format = .ph) :
    step (s.select .ph i.code) = exec i (s.select .ph i.code).present := by
  rw [step_of_quiet _ rfl rfl rfl]
  exact loopStep_of_decode _ (decode_code_of_ph hformat).1

/-- A TSEL word selected by its number is the operation of the very next step, at the last position or away from it. -/
theorem step_select_tsel {i : Instr} (hn : 2 ≤ s.cfg.n) (hformat : i.format = .tsel) :
    step (s.select .tsel i.code) = exec i (s.select .tsel i.code).present.requestTick := by
  have h15 : (s.select .tsel i.code).ph ≠ 15 := by
    show (if s.ph = 15 then 0 else s.ph) ≠ 15
    split <;> simp_all
  cases i with
  | sample =>
    have hpos : (s.select .tsel Instr.sample.code).pos ≠ (s.select .tsel Instr.sample.code).cfg.n - 1 := by
      show (if s.pos = s.cfg.n - 1 then 0 else s.pos) ≠ s.cfg.n - 1
      split <;> omega
    rw [step_of_tick _ rfl h15 rfl, if_neg hpos]
  | bankflip =>
    have hpos : (s.select .tsel Instr.bankflip.code).pos = (s.select .tsel Instr.bankflip.code).cfg.n - 1 := rfl
    rw [step_of_tick _ rfl h15 rfl, if_pos hpos]
  | dispatch | acquire | copy | dcrem | window | fft | mag | peak | freq | lookup | emit | seqWait | drive | playCheck
  | stop => cases hformat

/-- Settles O8: words of up to two bits are TSEL words, wider ones PH words. -/
theorem selectedTableWordRunsItsOperation : Obligations.SelectedTableWordRunsItsOperation := by
  unfold Obligations.SelectedTableWordRunsItsOperation
  intro s i hn
  refine ⟨fun hformat => ⟨(decode_code_of_ph hformat).2, step_select_ph hformat, step_select_ph hformat⟩,
    fun hformat => ⟨?_, step_select_tsel hn hformat⟩⟩
  cases i with
  | sample | bankflip => decide
  | dispatch | acquire | copy | dcrem | window | fft | mag | peak | freq | lookup | emit | seqWait | drive | playCheck
  | stop => cases hformat

end Machine

end Sys2Proof
end
